-- ==== Sys2Proof/Word.lean ====
section
/-! DEFINITION. The widths the engine works in (spec/00_scope.md R8, R15, R16). Every value is unsigned. -/

namespace Sys2Proof

/-- One byte of the block buffer BUF. -/
abbrev Byte := BitVec 8

/-- A 32-bit command word (R86), and the width of KEY, LEN, ARG and ERR.INFO. -/
abbrev CmdWord := BitVec 32

/-- A 64-bit state word or register (R8, WORD_BITS). -/
abbrev Word := BitVec 64

/-- The ten state words W[0..9] (10_state.md R36), 10 * 64 = 640 bits.
DESIGN CHOICE (log entry 19): 00_scope.md R8 gives STATE_BITS as 800 beside WORD_BITS 64 and STATE_SIZE 10, and no ruling
settles the two; the model holds ten 64-bit words, which is what every rule computes on. Unsafe if an engine's state had
160 bits more. -/
abbrev Words := Vector Word 10

/-- The whole block buffer as one value, BUF[0..99] (00_scope.md R11). -/
abbrev Block := Vector Byte 100

/-- A digest: DIGEST_BYTES = 32 bytes (00_scope.md R8). -/
abbrev Digest := Vector Byte 32

end Sys2Proof
end

