-- ==== Sys2Proof/Syntax.lean ====
section
/-! DEFINITION. The twenty commands of spec/opcode_table.json (30_encoding.md R94), with their fields D, S and R
as they stand in the command word (R87), and the assembler's text of a command (R98). -/

namespace Sys2Proof

/-- One constructor for each row of the opcode table. `d` is the descriptor index D, `s` the subround index S and
`r` the round index R (R89 to R91); which values are legal is `Instr.wellFormed`. -/
inductive Instr where
  | nop
  | build
  | chksched
  | prngSeed
  | prngNext32
  | prngNext64
  | prngBounded
  | unpack
  | pack
  | premix
  | mswap (d : BitVec 1) (s : BitVec 3)
  | wshuf
  | prot (d : BitVec 1) (s : BitVec 3)
  | perm (d : BitVec 1)
  | subst
  | lmix
  | rkey (r : BitVec 7)
  | round (r : BitVec 7)
  | encrypt
  | hash
  deriving DecidableEq, Repr

/-- The table's mnemonic of a command (R94). -/
def Instr.mnemonic : Instr → String
  | .nop => "NOP"
  | .build => "BUILD"
  | .chksched => "CHKSCHED"
  | .prngSeed => "PRNG_SEED"
  | .prngNext32 => "PRNG_NEXT32"
  | .prngNext64 => "PRNG_NEXT64"
  | .prngBounded => "PRNG_BOUNDED"
  | .unpack => "UNPACK"
  | .pack => "PACK"
  | .premix => "PREMIX"
  | .mswap _ _ => "MSWAP"
  | .wshuf => "WSHUF"
  | .prot _ _ => "PROT"
  | .perm _ => "PERM"
  | .subst => "SUBST"
  | .lmix => "LMIX"
  | .rkey _ => "RKEY"
  | .round _ => "ROUND"
  | .encrypt => "ENCRYPT"
  | .hash => "HASH"

/-- The fields a command reads, in the order of the assembler's syntax (R98). -/
def Instr.fields : Instr → List Nat
  | .mswap d s => [d.toNat, s.toNat]
  | .prot d s => [d.toNat, s.toNat]
  | .perm d => [d.toNat]
  | .rkey r => [r.toNat]
  | .round r => [r.toNat]
  | .nop | .build | .chksched | .prngSeed | .prngNext32 | .prngNext64 | .prngBounded => []
  | .unpack | .pack | .premix | .wshuf | .subst | .lmix | .encrypt | .hash => []

/-- The assembler's text: the mnemonic, then the fields in decimal, comma-separated (R98). -/
def Instr.text (i : Instr) : String :=
  match i.fields with
  | [] => i.mnemonic
  | f :: fs => fs.foldl (fun t n => t ++ ", " ++ Nat.repr n) (i.mnemonic ++ " " ++ Nat.repr f)

end Sys2Proof
end

