-- ==== Sys2Proof/WellFormed.lean ====
section
/-! DEFINITION. Which commands are legal: the range checks of 30_encoding.md R94. -/

namespace Sys2Proof

/-- The range check of a command: S <= 5 for MSWAP, S <= 4 for PROT, R <= 83 for RKEY and ROUND (R90, R91, R94).
D has no illegal value (R89), and the fieldless commands have nothing to check. -/
def Instr.wellFormed : Instr → Bool
  | .mswap _ s => decide (s.toNat ≤ 5)
  | .prot _ s => decide (s.toNat ≤ 4)
  | .rkey r => decide (r.toNat ≤ 83)
  | .round r => decide (r.toNat ≤ 83)
  | .perm _ => true
  | .nop | .build | .chksched | .prngSeed | .prngNext32 | .prngNext64 | .prngBounded => true
  | .unpack | .pack | .premix | .wshuf | .subst | .lmix | .encrypt | .hash => true

end Sys2Proof
end

