-- ==== Sys2Proof/Decode.lean ====
section
/-! DEFINITION. The command decoder of 30_encoding.md R96, total on every word and every byte string, rejecting by
name, and after it the assembler of R98. -/

namespace Sys2Proof

/-- The twenty assigned operations (R94), before their fields are read. -/
inductive Op where
  | nop | build | chksched | prngSeed | prngNext32 | prngNext64 | prngBounded
  | unpack | pack | premix | mswap | wshuf | prot | perm | subst | lmix | rkey | round | encrypt | hash
  deriving DecidableEq, Repr

/-- Why a word is no command (R95); the engine reports each of them as ILLEGAL_CMD. -/
inductive DecodeError where
  /-- The byte string holds fewer than the four bytes of a command word (R86). -/
  | truncated
  /-- OP is a reserved value (R95, 93_implementation_defined.md S5). -/
  | reservedOpcode
  /-- A reserved bit or a field the operation does not read is nonzero (R93, R95). -/
  | reservedBits
  /-- S or R is outside its range check (R95). -/
  | fieldRange
  deriving DecidableEq, Repr

/-- The opcode map of R94: the value of OP of each operation. -/
def Op.code : Op → BitVec 8
  | .nop => 0x00
  | .build => 0x01
  | .chksched => 0x02
  | .prngSeed => 0x10
  | .prngNext32 => 0x11
  | .prngNext64 => 0x12
  | .prngBounded => 0x13
  | .unpack => 0x20
  | .pack => 0x21
  | .premix => 0x22
  | .mswap => 0x23
  | .wshuf => 0x24
  | .prot => 0x25
  | .perm => 0x26
  | .subst => 0x27
  | .lmix => 0x28
  | .rkey => 0x29
  | .round => 0x2A
  | .encrypt => 0x30
  | .hash => 0x31

/-- The rows of the opcode map, in the table's order. -/
def Op.all : List Op :=
  [.nop, .build, .chksched, .prngSeed, .prngNext32, .prngNext64, .prngBounded, .unpack, .pack, .premix] ++
  [.mswap, .wshuf, .prot, .perm, .subst, .lmix, .rkey, .round, .encrypt, .hash]

/-- The operation whose code is `c`, if the value is assigned (R94, R95). -/
def Op.ofCode (c : BitVec 8) : Option Op :=
  Op.all.find? fun op => op.code == c

/-- The bits of the word an operation reads as fields: `free` of R96. -/
def Op.free : Op → CmdWord
  | .mswap => 0x00007100
  | .prot => 0x00007100
  | .perm => 0x00000100
  | .rkey => 0x007F0000
  | .round => 0x007F0000
  | .nop | .build | .chksched | .prngSeed | .prngNext32 | .prngNext64 | .prngBounded => 0
  | .unpack | .pack | .premix | .wshuf | .subst | .lmix | .encrypt | .hash => 0

/-- The command of an operation with the three fields of the word; an operation takes the ones it reads (R92). -/
def Op.withFields (op : Op) (d : BitVec 1) (s : BitVec 3) (r : BitVec 7) : Instr :=
  match op with
  | .nop => .nop
  | .build => .build
  | .chksched => .chksched
  | .prngSeed => .prngSeed
  | .prngNext32 => .prngNext32
  | .prngNext64 => .prngNext64
  | .prngBounded => .prngBounded
  | .unpack => .unpack
  | .pack => .pack
  | .premix => .premix
  | .mswap => .mswap d s
  | .wshuf => .wshuf
  | .prot => .prot d s
  | .perm => .perm d
  | .subst => .subst
  | .lmix => .lmix
  | .rkey => .rkey r
  | .round => .round r
  | .encrypt => .encrypt
  | .hash => .hash

/-- The field D, bit 8 (R87, R89). -/
def fieldD (w : CmdWord) : BitVec 1 := w.extractLsb' 8 1

/-- The field S, bits 14 to 12 (R87, R90). -/
def fieldS (w : CmdWord) : BitVec 3 := w.extractLsb' 12 3

/-- The field R, bits 22 to 16 (R87, R91). -/
def fieldR (w : CmdWord) : BitVec 7 := w.extractLsb' 16 7

/-- The decoder of R96, with the reason where it answers ILLEGAL. -/
def decode (w : CmdWord) : Except DecodeError Instr :=
  match Op.ofCode (w.extractLsb' 0 8) with
  | none => .error .reservedOpcode
  | some op =>
    if w &&& ~~~op.free = op.code.setWidth 32 then
      if (op.withFields (fieldD w) (fieldS w) (fieldR w)).wellFormed then
        .ok (op.withFields (fieldD w) (fieldS w) (fieldR w))
      else .error .fieldRange
    else .error .reservedBits

/-- Decoding a byte string: a command word is four bytes, the least significant first (20_memory.md R66, as a CMD
write carries it); the rest of the string is handed back. -/
def decodeBytes : List Byte → Except DecodeError (Instr × List Byte)
  | b0 :: b1 :: b2 :: b3 :: rest => (decode (b3 ++ b2 ++ b1 ++ b0)).map fun i => (i, rest)
  | _ => .error .truncated

/-- The word of an operation and its fields (R98): `zext_32(op) | d << 8 | s << 12 | r << 16`. -/
def assemble (op : Op) (d : BitVec 1) (s : BitVec 3) (r : BitVec 7) : CmdWord :=
  op.code.setWidth 32 ||| d.setWidth 32 <<< 8 ||| s.setWidth 32 <<< 12 ||| r.setWidth 32 <<< 16

/-- The command word of a command (R98); a field the command does not have is 0 (R93). -/
def encode : Instr → CmdWord
  | .nop => assemble .nop 0 0 0
  | .build => assemble .build 0 0 0
  | .chksched => assemble .chksched 0 0 0
  | .prngSeed => assemble .prngSeed 0 0 0
  | .prngNext32 => assemble .prngNext32 0 0 0
  | .prngNext64 => assemble .prngNext64 0 0 0
  | .prngBounded => assemble .prngBounded 0 0 0
  | .unpack => assemble .unpack 0 0 0
  | .pack => assemble .pack 0 0 0
  | .premix => assemble .premix 0 0 0
  | .mswap d s => assemble .mswap d s 0
  | .wshuf => assemble .wshuf 0 0 0
  | .prot d s => assemble .prot d s 0
  | .perm d => assemble .perm d 0 0
  | .subst => assemble .subst 0 0 0
  | .lmix => assemble .lmix 0 0 0
  | .rkey r => assemble .rkey 0 0 r
  | .round r => assemble .round 0 0 r
  | .encrypt => assemble .encrypt 0 0 0
  | .hash => assemble .hash 0 0 0

/-- The bytes of a command word as a CMD write carries them, the least significant first (20_memory.md R66). -/
def wordBytes (w : CmdWord) : List Byte :=
  [w.extractLsb' 0 8, w.extractLsb' 8 8, w.extractLsb' 16 8, w.extractLsb' 24 8]

/-- What the decoder reads from a table row's word of `nbits` bits, the bits above them being 0. -/
def decodeTableWord (nbits w : Nat) : Option Instr :=
  if nbits ≤ 32 then
    match decodeBytes (wordBytes (BitVec.ofNat 32 (w % 2 ^ nbits))) with
    | .ok (i, _) => some i
    | .error _ => none
  else none

end Sys2Proof
end

