-- ==== Sys2Proof/Config.lean ====
section
/-! DEFINITION. What is fixed for the machine: the cipher parameters of 00_scope.md R8 and the open parameters
PRNG_BASE_MUL and PRNG_BASE_ADD of R12, with their conformance values, and the open values of FINAL (R13). The parameters a
machine has are in its State (Sys2Proof.Machine.Params): every command takes them from there. -/

namespace Sys2Proof

/-- The open parameters of the PRNG (00_scope.md R12). Every PRNG and schedule operation takes them as an argument. -/
structure PrngParams where
  baseMul : Word
  baseAdd : Word
  deriving DecidableEq, Repr

namespace Config

/-- The number of rounds of the driver (R8). -/
def rounds : Nat := 84

/-- The longest input HASH accepts, in bytes (R8, MAX_INPUT_BYTES). -/
def maxInputBytes : Nat := 80

/-- The bytes of the cipher block (R8). -/
def blockBytes : Nat := 80

/-- The bytes of the block buffer BUF (R11). -/
def bufBytes : Nat := 100

/-- The window offset of BUF[0] (10_state.md R22). -/
def bufBase : Nat := 0x100

/-- The conformance values of R12, the parameters right after reset.
DESIGN CHOICE (the spec's own, 92_eei_decisions.md D25; log entry 5): unsafe if an engine has other constants. -/
def prng : PrngParams := { baseMul := 0x5851F42D4C957F2D, baseAdd := 0x14057B7EF767814F }

/-- FINAL where it is left open (R13): for each number a total function on 100 bytes of which nothing is known.
DESIGN CHOICE (log entry 6), safe. -/
opaque openFinal : Nat → Block → Block

/-- The constant that ID reads at all times (10_state.md R23). -/
def idRegister : Word := 0x50130A0606060A54

end Config

end Sys2Proof
end

