-- ==== Sys2Proof/Machine/State.lean ====
section
/-! DEFINITION. The machine's state as plain data (spec/10_state.md), its reset (R52, R207), and the reasons a step can stop. -/

namespace Sys2Proof.Machine

/-- A sparse array of `w`-bit cells by key. The canonical form is `Cells.wf` (Machine/Ops.lean): keys strictly rising
and no cell equal to 0, which is what an unlisted key reads as. -/
abbrev Cells (w : Nat) := List (Nat × BitVec w)

/-- The bytes of the window that are memory: BUF[k] is the byte at window offset 0x100 + k (10_state.md R22, R37).
An unlisted byte reads 0, the reset contents of R52. -/
abbrev Memory := List Host.Cell

/-- The PRNG registers PRNG.CUR, PRNG.MUL and PRNG.ADD (10_state.md R32). -/
structure Prng where
  cur : Word
  mul : Word
  add : Word
  deriving DecidableEq, Repr

/-- One permutation descriptor: `mask[s][k]` is PMASK[d][s][k] (R41) and `rot[s][k]` is PROT[d][s][k] (R42). -/
structure Pbox where
  mask : Vector (Vector Word 5) 6
  rot : Vector (Vector (BitVec 6) 5) 5
  deriving DecidableEq, Repr

/-- The contents of the schedule store (10_state.md R38 to R44). -/
structure Schedule where
  /-- SBOX1[t][x] (R39). -/
  sbox1 : Vector (Vector (BitVec 6) 64) 40
  /-- SBOX2[t][x] (R40). -/
  sbox2 : Vector (Vector (BitVec 10) 1024) 10
  /-- The two permutation descriptors, PMASK[d] and PROT[d] (R41, R42). -/
  pbox : Vector Pbox 2
  /-- ROT[j] (R43). -/
  rot : Vector (BitVec 6) 6
  /-- RKEY[r] (R44). -/
  rkey : Vector (BitVec 10) 84
  deriving DecidableEq, Repr

/-- The error codes of 60_exceptions.md R177. NONE is the absence of a record. -/
inductive ErrCode where
  | precondition
  | invariant
  | noSchedule
  | illegalCmd
  | cmdBusy
  | access
  | accessBusy
  | schedRange
  deriving DecidableEq, Repr

/-- The error record: ERR.CODE, ERR.OVF and ERR.INFO while STATUS.ERR = 1 (10_state.md R30, 60_exceptions.md R180). -/
structure ErrRecord where
  code : ErrCode
  ovf : Bool
  info : BitVec 32
  deriving DecidableEq, Repr

/-- The architectural state of the engine (10_state.md R21). STATUS.BUSY, STATUS.ERR, STATUS.SV and irq are views of
these fields (Machine/Flags.lean; log entries 3 and 4). -/
structure Engine where
  /-- CTRL.IE_DONE (R24). -/
  ieDone : Bool
  /-- CTRL.IE_ERR (R24). -/
  ieErr : Bool
  /-- STATUS.DONE (R25). -/
  done : Bool
  /-- ERR (R30); there is a record exactly while STATUS.ERR = 1. -/
  err : Option ErrRecord
  /-- LASTCMD, which a read of CMD returns (R26). -/
  lastcmd : CmdWord
  /-- PEND, the accepted command not yet completed, valid exactly while STATUS.BUSY = 1 (R47). -/
  pend : Option CmdWord
  /-- KEY (R27). -/
  key : BitVec 32
  /-- LEN (R28). -/
  len : BitVec 32
  /-- ARG (R29). -/
  arg : BitVec 32
  /-- SKEY (R35). -/
  skey : BitVec 32
  /-- PRNG_OUT (R31). -/
  prngOut : Word
  /-- PRNG_CUR, PRNG_MUL, PRNG_ADD (R32). -/
  prng : Prng
  /-- SCHED_ADDR (R33). -/
  schedAddr : BitVec 16
  /-- The schedule store (R38): the schedule the last BUILD wrote, or none after reset; STATUS.SV = 1 exactly while
  there is one (R46). DEDUCED from R38 and R207 ("a model may hold any value there, or none"); safe (log entry 3). -/
  store : Option Schedule
  /-- STATE0 to STATE9 (R36). -/
  w : Words
  /-- BUF (R37). -/
  buf : Memory
  deriving DecidableEq, Repr

/-- The width of a host access in bytes (20_memory.md R62). -/
inductive Width where
  | w1
  | w2
  | w4
  | w8
  deriving DecidableEq, Repr

/-- A host access: a 9-bit window offset, a width and a direction; a write carries a value, of which the low
8 * width bits count (20_memory.md R61, R62). -/
inductive Access where
  | read (off : BitVec 9) (n : Width)
  | write (off : BitVec 9) (n : Width) (v : Word)
  deriving DecidableEq, Repr

/-- A mapped register of the window (10_state.md R22). -/
inductive Reg where
  | id
  | ctrl
  | status
  | cmd
  | key
  | len
  | arg
  | err
  | prngOut
  | prngCur
  | prngMul
  | prngAdd
  | schedAddr
  | schedData
  | skey
  | word (i : Fin 10)
  deriving DecidableEq, Repr

/-- The access class of a register, which decides its rules while a command is pending (R22, 20_memory.md R70). -/
inductive RegClass where
  | control
  | operand
  | engineOwned
  deriving DecidableEq, Repr

/-- What a legal access reaches: a register, or the bytes of BUF from the access's offset on. -/
inductive Target where
  | reg (r : Reg)
  | buf
  deriving DecidableEq, Repr

/-- A statement of a host program (30_encoding.md R99). Variables `$name` and labels are numbered. -/
inductive HostStmt where
  /-- `wr8` to `wr64 OFF, V`. -/
  | wr (n : Width) (off : BitVec 9) (v : Word)
  /-- `rd8` to `rd64 $x, OFF`. -/
  | rd (n : Width) (x : Nat) (off : BitVec 9)
  /-- `bnz $x, MASK, l`. -/
  | bnz (x : Nat) (mask : Word) (l : Nat)
  /-- `l:` -/
  | label (l : Nat)
  /-- `halt`. -/
  | halt
  deriving DecidableEq, Repr

/-- The host agent running a host program (R21, R99): the statements, the index of the next one and the variables.
DESIGN CHOICE (log entry 9). -/
structure HostAgent where
  program : List HostStmt
  pos : Nat
  vars : Cells 64
  deriving DecidableEq, Repr

/-- Who moves in a step: the host, the engine, or the platform asserting `rst` (R206). -/
inductive Turn where
  | host
  | engine
  | rst
  deriving DecidableEq, Repr

/-- Which total function on 100 bytes FINAL is (00_scope.md R13), as plain data. -/
inductive Finalization where
  /-- The conformance value, Keccak-p[800, 12] (93_implementation_defined.md G7). -/
  | keccak
  /-- Any other: the open function number `k`, of which nothing is known (Config.openFinal). -/
  | other (k : Nat)
  deriving DecidableEq, Repr

/-- The open parameters a machine has: PRNG_BASE_MUL and PRNG_BASE_ADD (00_scope.md R12) and FINAL (R13). No step changes
them; the commands take them as arguments (log entries 5 and 6). -/
structure Params where
  prng : PrngParams
  final : Finalization
  deriving DecidableEq, Repr

/-- The machine: the engine, the host agent, its parameters, and the order in which the agents move.
`turns` is the MODEL's own field: the latency T_CMD is open (00_scope.md R14), so any list stands for one finite
interleaving. DESIGN CHOICE (log entry 1). -/
structure State where
  eng : Engine
  host : HostAgent
  turns : List Turn
  params : Params
  deriving DecidableEq, Repr

/-- Why a step stops with a fault. -/
inductive Fault where
  /-- Raised by the host agent's `bnz` to a label its program does not have (30_encoding.md R99 gives no effect).
  Safe: the model stops (log entry 9). No command and no access of the engine raises it. -/
  | noSuchLabel (l : Nat)
  deriving DecidableEq, Repr

/-- Why a step is refused. -/
inductive Refusal where
  /-- Raised by exec for a command that has no meaning yet; safe. No arm of exec answers it. -/
  | notModelled (mnemonic : String)
  deriving DecidableEq, Repr

/-- The engine after reset (10_state.md R52, 70_reset_and_hazards.md R207). -/
def Engine.reset : Engine where
  ieDone := false
  ieErr := false
  done := false
  err := none
  lastcmd := 0
  pend := none
  key := 0
  len := 0
  arg := 0
  skey := 0
  prngOut := 0
  prng := { cur := 0, mul := 1, add := 0 }
  schedAddr := 0
  store := none
  w := Vector.replicate 10 0
  buf := []

/-- The machine right after reset: the engine of R207, a host with no program and no turns set
(DESIGN CHOICE, log entries 1 and 9: the spec gives the host and the order of the agents no reset value), and the parameters
at the spec's conformance values (DESIGN CHOICE, log entries 5 and 6). -/
def State.reset : State where
  eng := Engine.reset
  host := { program := [], pos := 0, vars := [] }
  turns := []
  params := { prng := Config.prng, final := .keccak }

end Sys2Proof.Machine
end

