-- ==== Sys2Proof/Machine/Flags.lean ====
section
/-! DEFINITION. The engine's flags and status registers: STATUS, ERR, CTRL and irq (spec/10_state.md R24, R25, R30, R48, R50),
and the two events of a command that change them (20_memory.md R78, R79). -/

namespace Sys2Proof.Machine

/-- STATUS.BUSY: a command is pending (R25, R47). -/
def Engine.busy (e : Engine) : Bool := e.pend.isSome

/-- STATUS.ERR: an error is recorded (R25, R180). -/
def Engine.hasErr (e : Engine) : Bool := e.err.isSome

/-- STATUS.SV: the store holds a schedule (R25, R46). -/
def Engine.sv (e : Engine) : Bool := e.store.isSome

/-- A flag as bit `k` of a register. -/
def flagBit (b : Bool) (k : Nat) : Word := (BitVec.ofBool b).setWidth 64 <<< k

/-- The value a read of STATUS returns (R25); bits 63 to 4 are reserved and read 0 (R51). -/
def Engine.statusWord (e : Engine) : Word :=
  flagBit e.busy 0 ||| flagBit e.done 1 ||| flagBit e.hasErr 2 ||| flagBit e.sv 3

/-- The value a read of CTRL returns (R24): SRST always reads 0. -/
def Engine.ctrlWord (e : Engine) : Word :=
  flagBit e.ieDone 0 ||| flagBit e.ieErr 1

/-- The code of an error as ERR.CODE records it (60_exceptions.md R177). -/
def ErrCode.toByte : ErrCode → BitVec 8
  | .precondition => 0x01
  | .invariant => 0x02
  | .noSchedule => 0x03
  | .illegalCmd => 0x04
  | .cmdBusy => 0x05
  | .access => 0x06
  | .accessBusy => 0x07
  | .schedRange => 0x08

/-- The value a read of ERR returns: CODE [7:0], OVF [8], INFO [63:32], 0 when no error is recorded (R30). -/
def Engine.errWord (e : Engine) : Word :=
  match e.err with
  | none => 0
  | some r => r.code.toByte.setWidth 64 ||| flagBit r.ovf 8 ||| r.info.setWidth 64 <<< 32

/-- The interrupt output (R48, 60_exceptions.md R191): a level, re-evaluated after every state change. -/
def Engine.irq (e : Engine) : Bool := (e.done && e.ieDone) || (e.hasErr && e.ieErr)

/-- Acceptance of a command word (60_exceptions.md R176): LASTCMD and PEND take it, DONE falls and BUSY rises. -/
def Engine.accept (e : Engine) (w : CmdWord) : Engine :=
  { e with lastcmd := w, pend := some w, done := false }

/-- The end of a command's completion (20_memory.md R79): BUSY falls and DONE rises. -/
def Engine.complete (e : Engine) : Engine := { e with pend := none, done := true }

/-- A write to STATUS (R25): DONE is write-1-to-clear; bit 2 is `Engine.clearErr`'s (Machine/Ops.lean). -/
def Engine.clearDone (e : Engine) : Engine := { e with done := false }

end Sys2Proof.Machine
end

