-- ==== Sys2Proof/Machine/Ops.lean ====
section
/-! DEFINITION. The shared operations: memory, taking and clearing an error, acceptance of a command and the frame every
command's meaning runs in. -/

namespace Sys2Proof.Machine

/-! ### Sparse cells and the bytes of BUF -/

/-- Reading a cell; an unlisted key reads 0. -/
def Cells.read {w : Nat} : Cells w → Nat → BitVec w
  | [], _ => 0
  | (b, x) :: m, a => if a = b then x else Cells.read m a

/-- Writing a cell, keeping the canonical form: keys rise, and a cell that becomes 0 is not listed. -/
def Cells.write {w : Nat} : Cells w → Nat → BitVec w → Cells w
  | [], a, v => if v = 0 then [] else [(a, v)]
  | (b, x) :: m, a, v =>
    if a < b then (if v = 0 then (b, x) :: m else (a, v) :: (b, x) :: m)
    else if a = b then (if v = 0 then m else (a, v) :: m)
    else (b, x) :: Cells.write m a v

/-- The canonical form: keys strictly rising, no listed cell 0. -/
def Cells.wf {w : Nat} : Cells w → Bool
  | [] => true
  | (a, v) :: m => decide (v ≠ 0) && m.all (fun c => decide (a < c.1)) && Cells.wf m

/-- The canonical form of the buffer memory. -/
def Memory.wf (m : Memory) : Bool := Cells.wf m

/-- The byte at a window offset. -/
def Memory.read (m : Memory) (a : Nat) : Byte := Cells.read m a

/-- Storing the byte at a window offset. -/
def Memory.write (m : Memory) (a : Nat) (v : Byte) : Memory := Cells.write m a v

/-- An `n`-byte little-endian value from offset `a` on: the byte at the lowest offset is the least significant
(20_memory.md R66, R67). -/
def Memory.loadLE (m : Memory) (a : Nat) : Nat → Word
  | 0 => 0
  | n + 1 => (Memory.read m a).setWidth 64 ||| Memory.loadLE m (a + 1) n <<< 8

/-- Storing the low `n` bytes of a value from offset `a` on, the least significant first (20_memory.md R66). -/
def Memory.storeLE (m : Memory) (a : Nat) : Nat → Word → Memory
  | 0, _ => m
  | n + 1, v => Memory.storeLE (Memory.write m a (v.setWidth 8)) (a + 1) n (v >>> 8)

/-- Storing a string of bytes from offset `a` on. -/
def Memory.writeBytes (m : Memory) (a : Nat) : List Byte → Memory
  | [] => m
  | b :: bs => Memory.writeBytes (Memory.write m a b) (a + 1) bs

/-- BUF[k] (10_state.md R37). -/
def Engine.bufByte (e : Engine) (k : Nat) : Byte := Memory.read e.buf (Config.bufBase + k)

/-- BUF[0..99] as one value. -/
def bufBlock (m : Memory) : Block := Vector.ofFn fun k : Fin 100 => Memory.read m (Config.bufBase + k)

/-! ### Errors: taking one (R180) and clearing it (R193) -/

/-- `raise Error(c, info)`, the engine's "trap entry" (60_exceptions.md R180, R192): the first error is recorded, a later
one only sets OVF (R194). It is the only way an error changes state. -/
def Engine.raise (e : Engine) (c : ErrCode) (info : BitVec 32) : Engine :=
  match e.err with
  | none => { e with err := some { code := c, ovf := false, info := info } }
  | some r => { e with err := some { r with ovf := true } }

/-- The engine's "trap return" (60_exceptions.md R193): STATUS.ERR and the whole of ERR become 0 in one step. -/
def Engine.clearErr (e : Engine) : Engine := { e with err := none }

/-! ### Acceptance of a command (R176) -/

/-- The commands marked "sched" in 30_encoding.md R94, which need STATUS.SV = 1. -/
def needsSchedule : Instr → Bool
  | .chksched => true
  | .mswap _ _ => true
  | .prot _ _ => true
  | .perm _ => true
  | .subst => true
  | .lmix => true
  | .rkey _ => true
  | .round _ => true
  | .encrypt => true
  | .hash => true
  | .nop | .build | .prngSeed | .prngNext32 | .prngNext64 | .prngBounded => false
  | .unpack | .pack | .premix | .wshuf => false

/-- The error with which a command is turned away while no other is pending, in the order of R176 and R188:
ILLEGAL_CMD (a field outside its range, R95), NO_SCHEDULE, PRECONDITION. -/
def commandError (i : Instr) (e : Engine) : Option ErrCode :=
  if i.wellFormed = false then some .illegalCmd
  else if needsSchedule i = true ∧ e.sv = false then some .noSchedule
  else if i = .hash ∧ Config.maxInputBytes < e.len.toNat then some .precondition
  else none

/-- `present(w)`: a host write of the command word `w` to CMD (60_exceptions.md R176). A rejected word has no effect
other than the error record. -/
def Engine.present (e : Engine) (w : CmdWord) : Engine :=
  if e.busy then e.raise .cmdBusy w
  else
    match decode w with
    | .error _ => e.raise .illegalCmd w
    | .ok i =>
      match commandError i e with
      | some c => e.raise c w
      | none => e.accept w

/-! ### Completion of a command (R79) -/

/-- The engine turns the pending word away: the error is recorded and the word dropped, with no other effect.
Unreachable from a command that R176 accepted, whose operands are frozen (10_state.md R47); DESIGN CHOICE (log entry 2). -/
def Engine.turnAway (e : Engine) (c : ErrCode) (w : CmdWord) : Engine :=
  { e.raise c w with pend := none }

/-- The completion step of a command (20_memory.md R79): its whole effect on the engine, then BUSY 0 and DONE 1.
Nothing but the engine changes. -/
def runCommand (i : Instr) (effect : Engine → Engine) (s : State) : Host.Outcome State Fault Refusal :=
  match commandError i s.eng with
  | some c => .next { s with eng := s.eng.turnAway c (encode i) }
  | none => .next { s with eng := (effect s.eng).complete }

/-- An effect that reads the schedule store; a store that no BUILD wrote is never computed with (R181). -/
def Engine.withStore (effect : Schedule → Engine → Engine) (e : Engine) : Engine :=
  match e.store with
  | some sch => effect sch e
  | none => e

/-- The completion step of a "sched" command, whose effect reads the schedule store. -/
def runSched (i : Instr) (effect : Schedule → Engine → Engine) (s : State) : Host.Outcome State Fault Refusal :=
  runCommand i (Engine.withStore effect) s

/-- An effect that only replaces the state words. -/
def Engine.mapWords (f : Words → Words) (e : Engine) : Engine := { e with w := f e.w }

end Sys2Proof.Machine
end

