-- ==== Sys2Proof/Machine/Prng.lean ====
section
/-! DEFINITION. The deterministic PRNG (spec/40_prng.md): its primitives R106 to R110, with the open parameters as an
argument, and the commands PRNG_SEED, PRNG_NEXT32, PRNG_NEXT64 and PRNG_BOUNDED. -/

namespace Sys2Proof.Machine

/-- `next_uint32()` (R106): ADD with the old MUL, then MUL, then CUR with the new MUL and ADD; the draw is CUR[63:32]. -/
def Prng.next32 (P : PrngParams) (g : Prng) : BitVec 32 × Prng :=
  let add := g.add + g.mul * P.baseAdd
  let mul := g.mul * P.baseMul
  let cur := g.cur * mul + add
  (cur.extractLsb' 32 32, { cur := cur, mul := mul, add := add })

/-- `next_uint64()` (R107): two draws, the first in the high half. -/
def Prng.next64 (P : PrngParams) (g : Prng) : Word × Prng :=
  let hi := g.next32 P
  let lo := hi.2.next32 P
  (hi.1 ++ lo.1, lo.2)

/-- `next_bounded(n)` (R108): one draw, the high half of the exact product with the bound. -/
def Prng.bounded (P : PrngParams) (n : BitVec 32) (g : Prng) : BitVec 32 × Prng :=
  let x := g.next32 P
  ((x.1.setWidth 64 * n.setWidth 64).extractLsb' 32 32, x.2)

/-- `seed(key)` (R110): the key zero-extended, multiplicand 1, addend 0. -/
def Prng.seed (key : BitVec 32) : Prng := { cur := key.setWidth 64, mul := 1, add := 0 }

/-- The array and PRNG after the first `k` iterations of the loop of R109. -/
def shuffleSteps (P : PrngParams) (size : Nat) (g : Prng) : Nat → Vector Nat size × Prng
  | 0 => (Vector.ofFn (fun i : Fin size => i.val), g)
  | k + 1 =>
    let before := shuffleSteps P size g k
    let j := before.2.bounded P (BitVec.ofNat 32 (k + 2))
    (before.1.swapIfInBounds (k + 1) j.1.toNat, j.2)

/-- `shuffle(size)` (R109): the forward Fisher–Yates shuffle of the identity, iterations i = 1 .. size-1. -/
def shuffle (P : PrngParams) (size : Nat) (g : Prng) : Vector Nat size × Prng :=
  shuffleSteps P size g (size - 1)

/-- The effect of PRNG_SEED (R113). -/
def Engine.seedPrng (e : Engine) : Engine := { e with prng := Prng.seed e.key }

/-- The effect of PRNG_NEXT32 (R114): PRNG_OUT takes the draw zero-extended. -/
def Engine.drawNext32 (P : PrngParams) (e : Engine) : Engine :=
  { e with prngOut := (e.prng.next32 P).1.setWidth 64, prng := (e.prng.next32 P).2 }

/-- The effect of PRNG_NEXT64 (R115). -/
def Engine.drawNext64 (P : PrngParams) (e : Engine) : Engine :=
  { e with prngOut := (e.prng.next64 P).1, prng := (e.prng.next64 P).2 }

/-- The effect of PRNG_BOUNDED (R116): the bound is ARG; a bound of 0 gives 0 and still draws. -/
def Engine.drawBounded (P : PrngParams) (e : Engine) : Engine :=
  { e with prngOut := (e.prng.bounded P e.arg).1.setWidth 64, prng := (e.prng.bounded P e.arg).2 }

/-- PRNG_SEED (R113). -/
def execPrngSeed (s : State) : Host.Outcome State Fault Refusal := runCommand .prngSeed Engine.seedPrng s

/-- PRNG_NEXT32 (R114). -/
def execPrngNext32 (s : State) : Host.Outcome State Fault Refusal :=
  runCommand .prngNext32 (Engine.drawNext32 s.params.prng) s

/-- PRNG_NEXT64 (R115). -/
def execPrngNext64 (s : State) : Host.Outcome State Fault Refusal :=
  runCommand .prngNext64 (Engine.drawNext64 s.params.prng) s

/-- PRNG_BOUNDED (R116). -/
def execPrngBounded (s : State) : Host.Outcome State Fault Refusal :=
  runCommand .prngBounded (Engine.drawBounded s.params.prng) s

end Sys2Proof.Machine
end

