-- ==== Sys2Proof/Machine/Build.lean ====
section
/-! DEFINITION. The key schedule builder (spec/41_schedule.md): the five steps of R122 to R126, the invariant check of R130,
and the commands BUILD and CHKSCHED. -/

namespace Sys2Proof.Machine

/-- `n` draws of one kind in increasing index, the PRNG threaded through them. -/
def drawVec {α : Type} (n : Nat) (draw : Prng → α × Prng) (g : Prng) : Vector α n × Prng :=
  match n with
  | 0 => (#v[], g)
  | k + 1 =>
    let before := drawVec k draw g
    let x := draw before.2
    (before.1.push x.1, x.2)

/-- One substitution table of step 2 (R123): a shuffle of the identity of [0, 2^w), its values held in `w` bits. -/
def drawTable (P : PrngParams) (size w : Nat) (g : Prng) : Vector (BitVec w) size × Prng :=
  let a := shuffle P size g
  (Vector.ofFn (fun x : Fin size => BitVec.ofNat w a.1[x]), a.2)

/-- One rotation amount of step 3 (R124): `next_bounded(63) + 1`, in [1, 63]. -/
def drawAmount (P : PrngParams) (g : Prng) : BitVec 6 × Prng :=
  let x := g.bounded P 63
  (BitVec.ofNat 6 (x.1.toNat + 1), x.2)

/-- One permutation descriptor of step 3 (R124): all 30 masks, then all 25 amounts, each in increasing s then k. -/
def drawPbox (P : PrngParams) (g : Prng) : Pbox × Prng :=
  let masks := drawVec 6 (drawVec 5 (Prng.next64 P)) g
  let amounts := drawVec 5 (drawVec 5 (drawAmount P)) masks.2
  ({ mask := masks.1, rot := amounts.1 }, amounts.2)

/-- The scan of step 4 (R125): the first candidate from here on whose sum with `sum` is odd; a candidate is `b + 1`.
The empty list is never reached (R128). -/
def scanOdd (sum : Nat) : List Nat → Nat
  | [] => 0
  | b :: bs => if (b + 1 + sum) % 2 = 0 then scanOdd sum bs else b + 1

/-- The rotation set of step 4 (R125) from the shuffled candidates: the first five plus one, and the scan's sixth. -/
def rotationSet (b : Vector Nat 63) : Vector (BitVec 6) 6 :=
  let sum := (b[0] + 1) + (b[1] + 1) + (b[2] + 1) + (b[3] + 1) + (b[4] + 1)
  #v[BitVec.ofNat 6 (b[0] + 1), BitVec.ofNat 6 (b[1] + 1), BitVec.ofNat 6 (b[2] + 1), BitVec.ofNat 6 (b[3] + 1),
     BitVec.ofNat 6 (b[4] + 1), BitVec.ofNat 6 (scanOdd sum (b.toList.drop 5))]

/-- One round key of step 5 (R126): `next_bounded(1024)`, 10 bits. -/
def drawRoundKey (P : PrngParams) (g : Prng) : BitVec 10 × Prng :=
  let x := g.bounded P 1024
  (x.1.setWidth 10, x.2)

/-- `build_schedule(key)` (R121 to R126): the schedule and the PRNG as the last draw leaves it (R129). -/
def buildSchedule (P : PrngParams) (key : BitVec 32) : Schedule × Prng :=
  let small := drawVec 40 (drawTable P 64 6) (Prng.seed key)
  let large := drawVec 10 (drawTable P 1024 10) small.2
  let pboxes := drawVec 2 (drawPbox P) large.2
  let candidates := shuffle P 63 pboxes.2
  let keys := drawVec 84 (drawRoundKey P) candidates.2
  ({ sbox1 := small.1, sbox2 := large.1, pbox := pboxes.1, rot := rotationSet candidates.1, rkey := keys.1 }, keys.2)

/-- A table holds every value of [0, 2^w): `{t[x] | x} = [0, 2^w)` (R130). -/
def isFullTable {w n : Nat} (t : Vector (BitVec w) n) : Bool :=
  (List.range (2 ^ w)).all fun y => t.toList.contains (BitVec.ofNat w y)

/-- A rotation amount is in [1, 63] (R45): 6 bits hold at most 63. -/
def isAmount (r : BitVec 6) : Bool := r != 0

/-- The test of CHKSCHED (R130), the invariants (a) to (c) of 10_state.md R45. -/
def Schedule.ok (sch : Schedule) : Bool :=
  sch.sbox1.toList.all isFullTable &&
  sch.sbox2.toList.all isFullTable &&
  decide (sch.rot.toList.Pairwise (· ≠ ·)) &&
  sch.rot.toList.all isAmount &&
  decide ((sch.rot.toList.map (·.toNat)).sum % 2 = 1) &&
  sch.pbox.toList.all fun p => p.rot.toList.all fun row => row.toList.all isAmount

/-- The effect of BUILD (R121): the store, the PRNG registers, SKEY and (with the store) STATUS.SV. -/
def Engine.build (P : PrngParams) (e : Engine) : Engine :=
  { e with store := some (buildSchedule P e.key).1, prng := (buildSchedule P e.key).2, skey := e.key }

/-- The effect of CHKSCHED (R130): INVARIANT with info 0x00000002 when the test fails (60_exceptions.md R179). -/
def Engine.check (sch : Schedule) (e : Engine) : Engine :=
  if sch.ok then e else e.raise .invariant 0x00000002

/-- BUILD (R121). -/
def execBuild (s : State) : Host.Outcome State Fault Refusal := runCommand .build (Engine.build s.params.prng) s

/-- CHKSCHED (R130). -/
def execChksched (s : State) : Host.Outcome State Fault Refusal := runSched .chksched Engine.check s

end Sys2Proof.Machine
end

