-- ==== Sys2Proof/Machine/Keccak.lean ====
section
/-! DEFINITION. The conformance value of the finalization parameter FINAL: Keccak-p[800, 12]
(spec/00_scope.md R13, 93_implementation_defined.md G7). -/

namespace Sys2Proof.Machine

/-- The 25 lanes of 32 bits; lane A[x][y] is entry x + 5*y (G7). -/
abbrev Lanes := Vector (BitVec 32) 25

/-- Lane A[x][y], both indices modulo 5 (G7). -/
def Lanes.at (a : Lanes) (x y : Nat) : BitVec 32 := a[x % 5 + 5 * (y % 5)]'(by omega)

/-- Building the lanes from their coordinates. -/
def Lanes.build (f : Nat → Nat → BitVec 32) : Lanes := Vector.ofFn fun i : Fin 25 => f (i.val % 5) (i.val / 5)

/-- `rotl32(v, n)`: left rotation by n modulo 32 (G7). -/
def rotl32 (v : BitVec 32) (n : Nat) : BitVec 32 := v.rotateLeft (n % 32)

/-- The rho offsets RHO[x][y] of G7, rows y, columns x. -/
def rhoTable : Vector Nat 25 :=
  #v[0, 1, 30, 28, 27, 4, 12, 6, 23, 20, 3, 10, 11, 25, 7, 9, 13, 15, 21, 8, 18, 2, 29, 24, 14]

/-- RHO[x][y], both indices modulo 5. -/
def rho (x y : Nat) : Nat := rhoTable[x % 5 + 5 * (y % 5)]'(by omega)

/-- The round constants RC[10] to RC[21] of G7. -/
def roundConstants : List (BitVec 32) :=
  [0x80008009, 0x8000000A, 0x8000808B, 0x0000008B, 0x00008089, 0x00008003] ++
  [0x00008002, 0x00000080, 0x0000800A, 0x8000000A, 0x80008081, 0x00008080]

/-- The theta step of G7. -/
def theta (a : Lanes) : Lanes :=
  let col : Vector (BitVec 32) 5 :=
    Vector.ofFn fun x : Fin 5 => a.at x 0 ^^^ a.at x 1 ^^^ a.at x 2 ^^^ a.at x 3 ^^^ a.at x 4
  let d : Vector (BitVec 32) 5 :=
    Vector.ofFn fun x : Fin 5 => col[(x.val + 4) % 5]'(by omega) ^^^ rotl32 (col[(x.val + 1) % 5]'(by omega)) 1
  Lanes.build fun x y => a.at x y ^^^ (d[x % 5]'(by omega))

/-- The rho and pi steps of G7: `B[y][(2x + 3y) mod 5] := rotl32(A[x][y], RHO[x][y])`, read at the target B[p][q],
whose source is y = p, x = (p + 3q) mod 5. -/
def rhoPi (a : Lanes) : Lanes :=
  Lanes.build fun p q => rotl32 (a.at (p + 3 * q) p) (rho (p + 3 * q) p)

/-- The chi step of G7. -/
def chi (b : Lanes) : Lanes :=
  Lanes.build fun x y => b.at x y ^^^ (~~~(b.at (x + 1) y) &&& b.at (x + 2) y)

/-- The iota step of G7. -/
def iota (rc : BitVec 32) (a : Lanes) : Lanes :=
  Lanes.build fun x y => if x = 0 ∧ y = 0 then a.at 0 0 ^^^ rc else a.at x y

/-- The lanes of a buffer: lane i is bytes 4i to 4i+3, little-endian (G7). -/
def lanesOf (b : Block) : Lanes :=
  Vector.ofFn fun i : Fin 25 =>
    b[4 * i.val + 3]'(by omega) ++ b[4 * i.val + 2]'(by omega) ++ b[4 * i.val + 1]'(by omega) ++ b[4 * i.val]'(by omega)

/-- The buffer of the lanes, in the same order (G7). -/
def bytesOf (a : Lanes) : Block :=
  Vector.ofFn fun k : Fin 100 => (a[k.val / 4]'(by omega)).extractLsb' (8 * (k.val % 4)) 8

/-- Keccak-p[800] with 12 rounds on the 100-byte buffer (G7). -/
def keccakP800 (b : Block) : Block :=
  bytesOf (roundConstants.foldl (fun a rc => iota rc (chi (rhoPi (theta a)))) (lanesOf b))

end Sys2Proof.Machine
end

