-- ==== Sys2Proof/Machine/Operands.lean ====
section
/-! DEFINITION. The operand forms: the schedule entries the fields D, S and R select (spec/30_encoding.md R89 to R92),
and the schedule index space of 20_memory.md R74. -/

namespace Sys2Proof.Machine

/-- SBOX1[4*i + j][x] (10_state.md R39). -/
def Schedule.small (sch : Schedule) (i : Fin 10) (j : Fin 4) (x : BitVec 6) : BitVec 6 :=
  (sch.sbox1[4 * i.val + j.val]'(by omega))[x.toNat]'(x.isLt)

/-- SBOX2[i][x] (10_state.md R40). -/
def Schedule.large (sch : Schedule) (i : Fin 10) (x : BitVec 10) : BitVec 10 :=
  (sch.sbox2[i])[x.toNat]'(x.isLt)

/-- The permutation descriptor D selects (R89). -/
def Schedule.descriptor (sch : Schedule) (d : BitVec 1) : Pbox :=
  sch.pbox[d.toNat]'(d.isLt)

/-- The masks PMASK[d][s][0..4] of subround S (R90); S is at most 5 in a legal command. -/
def Pbox.maskRow (p : Pbox) (s : Nat) : Vector Word 5 := p.mask.getD s (Vector.replicate 5 0)

/-- The amounts PROT[d][s][0..4] of subround S (R90); S is at most 4 in a legal command. -/
def Pbox.rotRow (p : Pbox) (s : Nat) : Vector (BitVec 6) 5 := p.rot.getD s (Vector.replicate 5 0)

/-- The round key RKEY[r] (R91); R is at most 83 in a legal command. -/
def Schedule.roundKey (sch : Schedule) (r : Nat) : BitVec 10 := sch.rkey.getD r 0

/-- The entry of the schedule index space at `a`, zero-extended to 64 bits, or none where R74 gives no entry.
DEDUCED (log entry 20): a PMASK entry keeps all its 64 bits, as 10_state.md R34 and R41 and 20_memory.md R74 and R75 say,
against the "64 (16 used)" of SCHED_DATA in the width column of 10_state.md R22; no ruling names the disagreement. Unsafe if
an engine returns the low 16 bits only. -/
def schedEntry (sch : Schedule) (a : BitVec 16) : Option Word :=
  let n := a.toNat
  if n < 0x1000 then
    (sch.sbox1[n / 64]?).bind fun t => (t[n % 64]?).map (·.setWidth 64)
  else if n < 0x4000 then
    (sch.sbox2[(n - 0x1000) / 1024]?).bind fun t => (t[(n - 0x1000) % 1024]?).map (·.setWidth 64)
  else if n < 0x4100 then
    (sch.pbox[(n - 0x4000) / 64]?).bind fun p =>
      (p.mask[(n - 0x4000) % 64 / 8]?).bind fun row => row[(n - 0x4000) % 8]?
  else if n < 0x4200 then
    (sch.pbox[(n - 0x4100) / 64]?).bind fun p =>
      (p.rot[(n - 0x4100) % 64 / 8]?).bind fun row => (row[(n - 0x4100) % 8]?).map (·.setWidth 64)
  else if n < 0x4300 then
    (sch.rot[n - 0x4200]?).map (·.setWidth 64)
  else
    (sch.rkey[n - 0x4300]?).map (·.setWidth 64)

end Sys2Proof.Machine
end

