-- ==== Sys2Proof/Machine/Transform.lean ====
section
/-! DEFINITION. The state transform primitives of spec/42_transform.md R136 to R145, and the commands UNPACK, PACK, PREMIX,
MSWAP, WSHUF, PROT, PERM, SUBST, LMIX and RKEY that apply them. -/

namespace Sys2Proof.Machine

/-- `rotl64(x, r)` (00_scope.md R16): left circular rotation, the amount taken modulo 64. -/
def rotl64 (x : Word) (r : Nat) : Word :=
  if r % 64 = 0 then x else (x <<< (r % 64)) ||| (x >>> (64 - r % 64))

/-- The even word 2k of a word-pair. -/
def evenOf (k : Fin 5) : Fin 10 := ⟨2 * k.val, by omega⟩

/-- The odd word 2k+1 of a word-pair. -/
def oddOf (k : Fin 5) : Fin 10 := ⟨2 * k.val + 1, by omega⟩

/-- The word-pair a word belongs to. -/
def pairOf (i : Fin 10) : Fin 5 := ⟨i.val / 2, by omega⟩

/-- `unpack()` (R136): word i is the little-endian value of BUF[8i..8i+7]. -/
def unpackWords (m : Memory) : Words :=
  Vector.ofFn fun i : Fin 10 => Memory.loadLE m (Config.bufBase + 8 * i.val) 8

/-- Storing words one after another from offset `a` on, eight little-endian bytes each. -/
def storeWords (m : Memory) (a : Nat) : List Word → Memory
  | [] => m
  | x :: xs => storeWords (Memory.storeLE m a 8 x) (a + 8) xs

/-- `pack()` (R137): BUF[8i + j] takes W[i][8j+7:8j]. -/
def packWords (m : Memory) (w : Words) : Memory := storeWords m Config.bufBase w.toList

/-- The accumulator of `pre_mix()` (R138): the XOR of all ten words, XORed with its own right shift by 32. -/
def mixAcc (w : Words) : Word :=
  let acc := w.toList.foldl (· ^^^ ·) 0
  acc ^^^ (acc >>> 32)

/-- `pre_mix()` (R138). -/
def preMix (w : Words) : Words := Vector.ofFn fun i : Fin 10 => w[i] ^^^ mixAcc w

/-- `masked_swap(m[0..4])` (R139): both words of pair k take `sw = m[k] & (a ^ b)`. -/
def maskedSwap (m : Vector Word 5) (w : Words) : Words :=
  Vector.ofFn fun i : Fin 10 =>
    w[i] ^^^ (m[pairOf i] &&& (w[evenOf (pairOf i)] ^^^ w[oddOf (pairOf i)]))

/-- `word_shuffle()` with m = 3 (R140), read at its target: the new W[j] is the old W[(7 * j) mod 10]. -/
def wordShuffle (w : Words) : Words :=
  Vector.ofFn fun j : Fin 10 => w[(7 * j.val) % 10]'(by omega)

/-- `pbox_rotate(rr[0..4])` (R141): even word 2k rotates left by rr[k], odd words stay. -/
def pboxRotate (rr : Vector (BitVec 6) 5) (w : Words) : Words :=
  Vector.ofFn fun i : Fin 10 => if i.val % 2 = 0 then rotl64 w[i] rr[pairOf i].toNat else w[i]

/-- One of the first five subrounds of a permutation (R142). -/
def subround (p : Pbox) (s : Nat) (w : Words) : Words :=
  pboxRotate (p.rotRow s) (wordShuffle (maskedSwap (p.maskRow s) w))

/-- `apply_permutation(d)` (R142) with the descriptor's masks and amounts. -/
def applyPermutation (p : Pbox) (w : Words) : Words :=
  maskedSwap (p.maskRow 5) ((List.range 5).foldl (fun w s => subround p s w) w)

/-- The 16-bit group j of the substituted word i (R143): the 6-bit field at its low end, the 10-bit field above. -/
def substGroup (sch : Schedule) (i : Fin 10) (x : Word) (j : Fin 4) : Word :=
  (sch.small i j (x.extractLsb' (16 * j.val) 6)).setWidth 64 <<< (16 * j.val) |||
  (sch.large i (x.extractLsb' (16 * j.val + 6) 10)).setWidth 64 <<< (16 * j.val + 6)

/-- `apply_substitution()` (R143). -/
def applySubstitution (sch : Schedule) (w : Words) : Words :=
  Vector.ofFn fun i : Fin 10 =>
    substGroup sch i w[i] 0 ||| substGroup sch i w[i] 1 ||| substGroup sch i w[i] 2 ||| substGroup sch i w[i] 3

/-- `linear_mix()` (R144): word i+1 (wrapping) XOR the six rotations of the original word i. -/
def linearMix (rot : Vector (BitVec 6) 6) (w : Words) : Words :=
  Vector.ofFn fun i : Fin 10 =>
    rot.toList.foldl (fun n r => n ^^^ rotl64 w[i] r.toNat) (w[(i.val + 1) % 10]'(by omega))

/-- `inject_round_key(key)` (R145): bit i of the key is XORed into bit 0 of word i. -/
def injectRoundKey (key : BitVec 10) (w : Words) : Words :=
  Vector.ofFn fun i : Fin 10 => w[i] ^^^ (key.extractLsb' i.val 1).setWidth 64

/-- The effect of UNPACK (R146). -/
def Engine.unpack (e : Engine) : Engine := { e with w := unpackWords e.buf }

/-- The effect of PACK (R147). -/
def Engine.pack (e : Engine) : Engine := { e with buf := packWords e.buf e.w }

/-- UNPACK (R146). -/
def execUnpack (s : State) : Host.Outcome State Fault Refusal := runCommand .unpack Engine.unpack s

/-- PACK (R147). -/
def execPack (s : State) : Host.Outcome State Fault Refusal := runCommand .pack Engine.pack s

/-- PREMIX (R148). -/
def execPremix (s : State) : Host.Outcome State Fault Refusal := runCommand .premix (Engine.mapWords preMix) s

/-- MSWAP d, s (R149). -/
def execMswap (d : BitVec 1) (sub : BitVec 3) (s : State) : Host.Outcome State Fault Refusal :=
  runSched (.mswap d sub) (fun sch => Engine.mapWords (maskedSwap ((sch.descriptor d).maskRow sub.toNat))) s

/-- WSHUF (R150). -/
def execWshuf (s : State) : Host.Outcome State Fault Refusal := runCommand .wshuf (Engine.mapWords wordShuffle) s

/-- PROT d, s (R151). -/
def execProt (d : BitVec 1) (sub : BitVec 3) (s : State) : Host.Outcome State Fault Refusal :=
  runSched (.prot d sub) (fun sch => Engine.mapWords (pboxRotate ((sch.descriptor d).rotRow sub.toNat))) s

/-- PERM d (R152). -/
def execPerm (d : BitVec 1) (s : State) : Host.Outcome State Fault Refusal :=
  runSched (.perm d) (fun sch => Engine.mapWords (applyPermutation (sch.descriptor d))) s

/-- SUBST (R153). -/
def execSubst (s : State) : Host.Outcome State Fault Refusal :=
  runSched .subst (fun sch => Engine.mapWords (applySubstitution sch)) s

/-- LMIX (R154). -/
def execLmix (s : State) : Host.Outcome State Fault Refusal :=
  runSched .lmix (fun sch => Engine.mapWords (linearMix sch.rot)) s

/-- RKEY r (R155). -/
def execRkey (r : BitVec 7) (s : State) : Host.Outcome State Fault Refusal :=
  runSched (.rkey r) (fun sch => Engine.mapWords (injectRoundKey (sch.roundKey r.toNat))) s

end Sys2Proof.Machine
end

