-- ==== Sys2Proof/Machine/Driver.lean ====
section
/-! DEFINITION. The encryption driver and the hash entry point (spec/43_driver.md R161 to R168): the commands NOP, ROUND,
ENCRYPT and HASH. -/

namespace Sys2Proof.Machine

/-- `round(r)` (R161). -/
def cipherRound (sch : Schedule) (r : Nat) (w : Words) : Words :=
  injectRoundKey (sch.roundKey r)
    (linearMix sch.rot
      (applyPermutation (sch.descriptor 1)
        (applySubstitution sch
          (applyPermutation (sch.descriptor 0) w))))

/-- The rounds 0 to 83 in increasing order (R162). -/
def allRounds (sch : Schedule) (w : Words) : Words :=
  (List.range Config.rounds).foldl (fun w r => cipherRound sch r w) w

/-- The final cipher state of `encrypt()` on a buffer (R162): unpack, pre_mix once, then the 84 rounds. -/
def cipherWords (sch : Schedule) (m : Memory) : Words := allRounds sch (preMix (unpackWords m))

/-- `encrypt()` (R162): the state words take the final cipher state, BUF[0..79] its packed bytes. -/
def Engine.encrypt (sch : Schedule) (e : Engine) : Engine :=
  { e with w := cipherWords sch e.buf, buf := packWords e.buf (cipherWords sch e.buf) }

/-- `pad(n)` (R166): zero BUF[n..99], then the marker byte 1 at BUF[n]. -/
def padInput (n : Nat) (m : Memory) : Memory :=
  Memory.write (Memory.writeBytes m (Config.bufBase + n) (List.replicate (Config.bufBytes - n) 0))
    (Config.bufBase + n) 1

/-- `BUF[0..99] <- FINAL(BUF[0..99])` (R167). -/
def finalize (final : Block → Block) (m : Memory) : Memory :=
  Memory.writeBytes m Config.bufBase (final (bufBlock m)).toList

/-- The effect of HASH (R167) with n = LEN, for any finalization FINAL: pad, encrypt in place, finalize the whole buffer. -/
def Engine.hash (final : Block → Block) (sch : Schedule) (e : Engine) : Engine :=
  let padded := padInput e.len.toNat e.buf
  { e with w := cipherWords sch padded, buf := finalize final (packWords padded (cipherWords sch padded)) }

/-- The function FINAL is (00_scope.md R13): its conformance value, or one of which nothing but totality is known
(log entry 6). -/
def Finalization.apply : Finalization → Block → Block
  | .keccak => keccakP800
  | .other k => Config.openFinal k

/-- The digest, BUF[0..31] after HASH completes (R168), BUF[0] first. -/
def Engine.digest (e : Engine) : Digest := Vector.ofFn fun k : Fin 32 => e.bufByte k

/-- NOP (R163): nothing but completing. -/
def execNop (s : State) : Host.Outcome State Fault Refusal :=
  runCommand .nop (fun e => e) s

/-- ROUND r (R164). -/
def execRound (r : BitVec 7) (s : State) : Host.Outcome State Fault Refusal :=
  runSched (.round r) (fun sch => Engine.mapWords (cipherRound sch r.toNat)) s

/-- ENCRYPT (R165). -/
def execEncrypt (s : State) : Host.Outcome State Fault Refusal :=
  runSched .encrypt Engine.encrypt s

/-- HASH (R167). -/
def execHash (s : State) : Host.Outcome State Fault Refusal :=
  runSched .hash (Engine.hash s.params.final.apply) s

end Sys2Proof.Machine
end

