-- ==== Sys2Proof/Machine/Dispatch.lean ====
section
/-! DEFINITION. exec: one arm for each command, its completion step (spec/20_memory.md R79). -/

namespace Sys2Proof.Machine

def exec (i : Instr) (s : State) : Host.Outcome State Fault Refusal :=
  match i with
  | .nop => Sys2Proof.Machine.execNop s
  | .build => Sys2Proof.Machine.execBuild s
  | .chksched => Sys2Proof.Machine.execChksched s
  | .prngSeed => Sys2Proof.Machine.execPrngSeed s
  | .prngNext32 => Sys2Proof.Machine.execPrngNext32 s
  | .prngNext64 => Sys2Proof.Machine.execPrngNext64 s
  | .prngBounded => Sys2Proof.Machine.execPrngBounded s
  | .unpack => Sys2Proof.Machine.execUnpack s
  | .pack => Sys2Proof.Machine.execPack s
  | .premix => Sys2Proof.Machine.execPremix s
  | .mswap d sub => Sys2Proof.Machine.execMswap d sub s
  | .wshuf => Sys2Proof.Machine.execWshuf s
  | .prot d sub => Sys2Proof.Machine.execProt d sub s
  | .perm d => Sys2Proof.Machine.execPerm d s
  | .subst => Sys2Proof.Machine.execSubst s
  | .lmix => Sys2Proof.Machine.execLmix s
  | .rkey r => Sys2Proof.Machine.execRkey r s
  | .round r => Sys2Proof.Machine.execRound r s
  | .encrypt => Sys2Proof.Machine.execEncrypt s
  | .hash => Sys2Proof.Machine.execHash s

end Sys2Proof.Machine
end

