-- ==== Sys2Proof/Machine/Bus.lean ====
section
/-! DEFINITION. Host accesses to the register window (spec/20_memory.md R61 to R75, 10_state.md R22 to R37): which are
legal, the busy gating, and what a legal read or write does. -/

namespace Sys2Proof.Machine

/-- The width in bytes (R62). -/
def Width.bytes : Width → Nat
  | .w1 => 1
  | .w2 => 2
  | .w4 => 4
  | .w8 => 8

/-- The offset and register of each row of 10_state.md R22. -/
def regMap : List (Nat × Reg) :=
  [(0x000, .id), (0x008, .ctrl), (0x010, .status), (0x018, .cmd), (0x020, .key), (0x028, .len), (0x030, .arg)] ++
  [(0x038, .err), (0x040, .prngOut), (0x048, .prngCur), (0x050, .prngMul), (0x058, .prngAdd)] ++
  [(0x060, .schedAddr), (0x068, .schedData), (0x070, .skey)] ++
  [(0x080, .word 0), (0x088, .word 1), (0x090, .word 2), (0x098, .word 3), (0x0A0, .word 4)] ++
  [(0x0A8, .word 5), (0x0B0, .word 6), (0x0B8, .word 7), (0x0C0, .word 8), (0x0C8, .word 9)]

/-- The class column of R22. -/
def Reg.cls : Reg → RegClass
  | .id | .ctrl | .status | .cmd | .err => .control
  | .key | .len | .arg | .schedAddr => .operand
  | .prngOut | .prngCur | .prngMul | .prngAdd | .schedData | .skey | .word _ => .engineOwned

/-- The read-only registers (20_memory.md R69). -/
def Reg.readOnly : Reg → Bool
  | .id | .err | .prngOut | .prngCur | .prngMul | .prngAdd | .schedData | .skey => true
  | .ctrl | .status | .cmd | .key | .len | .arg | .schedAddr | .word _ => false

/-- What an access of width `n` at offset `off` reaches, or none where it is illegal by itself: registers take width 8
at their own offset (R63); BUF takes a naturally aligned access that ends inside it (R64); the rest is unmapped (R65). -/
def accessTarget (off : BitVec 9) (n : Width) : Option Target :=
  let o := off.toNat
  if o < 0x0D0 then
    if n = .w8 then (regMap.lookup o).map .reg else none
  else if 0x100 ≤ o ∧ o + n.bytes - 1 ≤ 0x163 ∧ o % n.bytes = 0 then some .buf
  else none

/-- Access info (60_exceptions.md R177): [15:0] the offset, [16] 1 for a write, [23:20] the width in bytes. -/
def accessInfo (off : BitVec 9) (n : Width) (isWrite : Bool) : BitVec 32 :=
  off.setWidth 32 ||| (BitVec.ofBool isWrite).setWidth 32 <<< 16 ||| BitVec.ofNat 32 n.bytes <<< 20

/-- A legal read of SCHED_DATA while no command is pending (20_memory.md R75). -/
def readSchedule (info : BitVec 32) (e : Engine) : Word × Engine :=
  match e.store with
  | none => (0, e.raise .noSchedule info)
  | some sch =>
    match schedEntry sch e.schedAddr with
    | none => (0, e.raise .schedRange info)
    | some v => (v, e)

/-- The value a legal read of a register returns, reserved bits 0 (R68, 10_state.md R23 to R36, R51). Only SCHED_DATA
can change state. -/
def readReg (r : Reg) (info : BitVec 32) (e : Engine) : Word × Engine :=
  match r with
  | .id => (Config.idRegister, e)
  | .ctrl => (e.ctrlWord, e)
  | .status => (e.statusWord, e)
  | .cmd => (e.lastcmd.setWidth 64, e)
  | .key => (e.key.setWidth 64, e)
  | .len => (e.len.setWidth 64, e)
  | .arg => (e.arg.setWidth 64, e)
  | .err => (e.errWord, e)
  | .prngOut => (e.prngOut, e)
  | .prngCur => (e.prng.cur, e)
  | .prngMul => (e.prng.mul, e)
  | .prngAdd => (e.prng.add, e)
  | .schedAddr => (e.schedAddr.setWidth 64, e)
  | .schedData => readSchedule info e
  | .skey => (e.skey.setWidth 64, e)
  | .word i => (e.w[i], e)

/-- A write to CTRL (10_state.md R24): with SRST set, the whole reset of 70_reset_and_hazards.md R208; else the enables. -/
def writeCtrl (v : Word) (e : Engine) : Engine :=
  if v.getLsbD 31 then Engine.reset else { e with ieDone := v.getLsbD 0, ieErr := v.getLsbD 1 }

/-- A write to STATUS (10_state.md R25): bits 1 and 2 are write-1-to-clear, the others are ignored. -/
def writeStatus (v : Word) (e : Engine) : Engine :=
  let e1 := if v.getLsbD 1 then e.clearDone else e
  if v.getLsbD 2 then e1.clearErr else e1

/-- A legal write of `v` to a register (20_memory.md R69). Read-only registers are not reached here. -/
def writeReg (r : Reg) (v : Word) (e : Engine) : Engine :=
  match r with
  | .ctrl => writeCtrl v e
  | .status => writeStatus v e
  | .cmd => e.present (v.setWidth 32)
  | .key => { e with key := v.setWidth 32 }
  | .len => { e with len := v.setWidth 32 }
  | .arg => { e with arg := v.setWidth 32 }
  | .schedAddr => { e with schedAddr := v.setWidth 16 }
  | .word i => { e with w := e.w.set i v }
  | .id | .err | .prngOut | .prngCur | .prngMul | .prngAdd | .schedData | .skey => e

/-- What the busy gating refuses to a read: engine-owned registers and BUF (20_memory.md R70). -/
def Target.readGated : Target → Bool
  | .reg r => r.cls == .engineOwned
  | .buf => true

/-- What the busy gating refuses to a write: operand registers too (20_memory.md R70). -/
def Target.writeGated : Target → Bool
  | .reg r => r.cls != .control
  | .buf => true

/-- A write that is illegal by itself because its register is read-only (60_exceptions.md R184 (d)). -/
def Target.readOnly : Target → Bool
  | .reg r => r.readOnly
  | .buf => false

/-- `MemRead(off, n)` (00_scope.md R18): the value read and the engine after it. At most one error, in the order of
60_exceptions.md R189; a read that raises one returns 0 (20_memory.md R65). -/
def memRead (off : BitVec 9) (n : Width) (e : Engine) : Word × Engine :=
  match accessTarget off n with
  | none => (0, e.raise .access (accessInfo off n false))
  | some t =>
    if e.busy && t.readGated then (0, e.raise .accessBusy (accessInfo off n false))
    else
      match t with
      | .reg r => readReg r (accessInfo off n false) e
      | .buf => (Memory.loadLE e.buf off.toNat n.bytes, e)

/-- `MemWrite(off, n, v)` (00_scope.md R18): the engine after the write; a write that raises an error changes nothing
else (20_memory.md R65). -/
def memWrite (off : BitVec 9) (n : Width) (v : Word) (e : Engine) : Engine :=
  match accessTarget off n with
  | none => e.raise .access (accessInfo off n true)
  | some t =>
    if t.readOnly then e.raise .access (accessInfo off n true)
    else if e.busy && t.writeGated then e.raise .accessBusy (accessInfo off n true)
    else
      match t with
      | .reg r => writeReg r v e
      | .buf => { e with buf := Memory.storeLE e.buf off.toNat n.bytes v }

/-- One host access: the value a read returns (0 for a write) and the engine after it (20_memory.md R62). -/
def access (a : Access) (e : Engine) : Word × Engine :=
  match a with
  | .read off n => memRead off n e
  | .write off n v => (0, memWrite off n v e)

end Sys2Proof.Machine
end

