-- ==== Sys2Proof/Machine/HostAgent.lean ====
section
/-! DEFINITION. The host agent: a step of a host program (spec/30_encoding.md R99) and the pseudo-instructions of R100. -/

namespace Sys2Proof.Machine

/-- The index of a label in a host program, counted from `n` (R99); the first of its name. -/
def labelPos (l : Nat) (n : Nat) : List HostStmt → Option Nat
  | [] => none
  | .label k :: ss => if k = l then some n else labelPos l (n + 1) ss
  | .wr _ _ _ :: ss => labelPos l (n + 1) ss
  | .rd _ _ _ :: ss => labelPos l (n + 1) ss
  | .bnz _ _ _ :: ss => labelPos l (n + 1) ss
  | .halt :: ss => labelPos l (n + 1) ss

/-- The host at its next statement. -/
def HostAgent.advance (h : HostAgent) : HostAgent := { h with pos := h.pos + 1 }

/-- One statement of the host program (R99). A host that has halted, or has no statement left, waits. -/
def hostStep (s : State) : Host.Outcome State Fault Refusal :=
  match s.host.program[s.host.pos]? with
  | none => .next s
  | some .halt => .next s
  | some (.label _) => .next { s with host := s.host.advance }
  | some (.wr n off v) =>
    .next { s with eng := (access (.write off n v) s.eng).2, host := s.host.advance }
  | some (.rd n x off) =>
    let r := access (.read off n) s.eng
    .next { s with eng := r.2, host := { s.host.advance with vars := Cells.write s.host.vars x r.1 } }
  | some (.bnz x mask l) =>
    if Cells.read s.host.vars x &&& mask = 0 then .next { s with host := s.host.advance }
    else
      match labelPos l 0 s.host.program with
      | some p => .next { s with host := { s.host with pos := p } }
      | none => .fault (.noSuchLabel l)

/-- `cmd M ops` (R100). -/
def HostStmt.cmd (i : Instr) : HostStmt := .wr .w8 0x018 ((encode i).setWidth 64)

/-- `wait` (R100): poll until STATUS.BUSY = 0, with the label and the variable $s the program gives it. -/
def waitStmts (l x : Nat) : List HostStmt := [.label l, .rd .w8 x 0x010, .bnz x 0x1 l]

/-- `wrstate i, V` (R100). -/
def wrState (i : Fin 10) (v : Word) : HostStmt := .wr .w8 (BitVec.ofNat 9 (0x080 + 8 * i.val)) v

/-- `rdstate $x, i` (R100). -/
def rdState (x : Nat) (i : Fin 10) : HostStmt := .rd .w8 x (BitVec.ofNat 9 (0x080 + 8 * i.val))

/-- `wrbuf k, V` (R100). -/
def wrBuf (k : Fin 100) (v : Byte) : HostStmt := .wr .w1 (BitVec.ofNat 9 (0x100 + k.val)) (v.setWidth 64)

/-- `rdbuf64 $x, k` (R100), k a multiple of 8. -/
def rdBuf64 (x : Nat) (k : Fin 100) : HostStmt := .rd .w8 x (BitVec.ofNat 9 (0x100 + k.val))

/-- `clrerr` (R100). -/
def clrErrStmt : HostStmt := .wr .w8 0x010 0x4

/-- `clrdone` (R100). -/
def clrDoneStmt : HostStmt := .wr .w8 0x010 0x2

/-- The machine about to run a host program from its first statement (log entry 8). -/
def State.withHostProgram (s : State) (p : List HostStmt) : State := { s with host := { s.host with program := p, pos := 0 } }

end Sys2Proof.Machine
end

