-- ==== Sys2Proof/Machine/Agents.lean ====
section
/-! DEFINITION. The moves of the agents (spec/10_state.md R21, 20_memory.md R79, 70_reset_and_hazards.md R206), and how a
command word is placed for the engine's next step. -/

namespace Sys2Proof.Machine

/-- The engine's step (20_memory.md R79): it takes the word in PEND, decodes it and completes the command. It is enabled
exactly while STATUS.BUSY = 1; a turn of the engine while it is idle changes nothing (60_exceptions.md R202). -/
def engineStep (s : State) : Host.Outcome State Fault Refusal :=
  match s.eng.pend with
  | none => .next s
  | some w =>
    match decode w with
    | .ok i => exec i s
    | .error _ => .next { s with eng := s.eng.turnAway .illegalCmd w }

/-- The hardware reset `rst` (70_reset_and_hazards.md R206, R207): the whole engine, and nothing of the host. -/
def hardwareReset (s : State) : Host.Outcome State Fault Refusal := .next { s with eng := Engine.reset }

/-- The move of one agent. -/
def takeTurn (t : Turn) (s : State) : Host.Outcome State Fault Refusal :=
  match t with
  | .host => hostStep s
  | .engine => engineStep s
  | .rst => hardwareReset s

/-- Who moves when `turns` says nothing: the engine while it is busy, so that completion is eventually taken (R14, R79),
else the host. DESIGN CHOICE (log entry 1). -/
def defaultTurn (s : State) : Turn := if s.eng.busy then .engine else .host

/-- The command word placed for the engine's next step, as the host's CMD write places it when R176 accepts it; a word
R176 rejects is put in PEND as it stands, and the engine turns it away with its error. DESIGN CHOICE (log entry 8). -/
def Engine.place (e : Engine) (w : CmdWord) : Engine :=
  let idle : Engine := { e with pend := none }
  if (idle.present w).busy then idle.present w else { idle with pend := some w }

end Sys2Proof.Machine
end

