-- ==== Sys2Proof/Machine/Step.lean ====
section
/-! DEFINITION. One step of the machine, and a command word placed where the next step takes it. -/

namespace Sys2Proof.Machine

/-- One step: one agent moves (spec/10_state.md R21). `turns` says which, or `defaultTurn` where it is empty. -/
def step (s : State) : Host.Outcome State Fault Refusal :=
  match s.turns with
  | [] => takeTurn (defaultTurn s) s
  | t :: ts => takeTurn t { s with turns := ts }

/-- The state whose next step is the engine's completion of the command word `w` (log entry 8). -/
def State.withFetchWord (s : State) (nbits w : Nat) : State :=
  { s with eng := s.eng.place (BitVec.ofNat 32 (w % 2 ^ nbits)), turns := .engine :: s.turns }

end Sys2Proof.Machine
end

