-- ==== Sys2Proof/Safety.lean ====
section
/-! DEFINITION. What a good state and a safe run are: the invariants the rules give the engine, and host programs whose
branches all have a target. -/

namespace Sys2Proof.Machine

/-- Every listed byte lies in the window's buffer region, 0x100 to 0x163 (10_state.md R22). -/
abbrev Memory.InBuf (m : Memory) : Prop := ∀ c ∈ m, Config.bufBase ≤ c.1 ∧ c.1 < Config.bufBase + Config.bufBytes

/-- The invariants of the engine. -/
structure Engine.Inv (e : Engine) : Prop where
  /-- While a command is pending LASTCMD equals it (10_state.md R47), DONE is 0 (R25), and it is a command that
  acceptance lets through in this state (60_exceptions.md R176): its operands are frozen (R47). -/
  pending : ∀ w, e.pend = some w → e.lastcmd = w ∧ e.done = false ∧ ∃ i, decode w = .ok i ∧ commandError i e = none
  /-- The buffer memory is in canonical form. -/
  bufWf : Memory.wf e.buf = true
  /-- The buffer memory lists bytes of BUF only (R22). -/
  bufIn : Memory.InBuf e.buf
  /-- The store satisfies the schedule invariants (10_state.md R45, 41_schedule.md R131). -/
  storeOk : ∀ sch, e.store = some sch → sch.ok = true
  /-- INVARIANT is never recorded (41_schedule.md R131, 60_exceptions.md R179). -/
  noInvariantError : ∀ r, e.err = some r → r.code ≠ .invariant

/-- The invariants of the machine: the engine's, and the canonical form of the host's variables. -/
structure State.Inv (s : State) : Prop where
  eng : s.eng.Inv
  vars : Cells.wf s.host.vars = true

/-- Every branch of a host program names a label the program has (30_encoding.md R99). -/
def labelsOk (p : List HostStmt) : Bool :=
  p.all fun st =>
    match st with
    | .bnz _ _ l => (labelPos l 0 p).isSome
    | .wr _ _ _ => true
    | .rd _ _ _ => true
    | .label _ => true
    | .halt => true

/-- A run that no step stops: every number of steps answers a next state. -/
def SafeRun (s : State) : Prop := ∀ k, ∃ t, Host.Core.run Sys2Proof.core k s = .next t

end Sys2Proof.Machine
end

