-- ==== Sys2Proof/Certificates/Slice0/Obligations.lean ====
section
/-! DEFINITION. The statements for the provers, and the small words they are said in. -/

namespace Sys2Proof.Claims

open Sys2Proof.Machine

/-! ### The words of the statements -/

/-- `s` with the engine `e` after a command has completed: STATUS.BUSY 0 and STATUS.DONE 1 (20_memory.md R79). -/
def finished (s : State) (e : Engine) : State := { s with eng := { e with pend := none, done := true } }

/-- The completions of several commands, one after another. -/
def runSeq : List Instr → State → Host.Outcome State Fault Refusal
  | [], s => .next s
  | i :: is, s =>
    match exec i s with
    | .next t => runSeq is t
    | .fault r => .fault r
    | .refused r => .refused r

/-- The field of a command word from bit `lo` on, as a number (00_scope.md R15). -/
def field (w : CmdWord) (lo width : Nat) : Nat := w.toNat / 2 ^ lo % 2 ^ width

/-- The assigned values of OP (30_encoding.md R96). -/
def assigned : List Nat :=
  [0x00, 0x01, 0x02, 0x10, 0x11, 0x12, 0x13, 0x20, 0x21, 0x22, 0x23, 0x24, 0x25, 0x26, 0x27, 0x28, 0x29, 0x2A, 0x30, 0x31]

/-- The OP values that need STATUS.SV = 1 (30_encoding.md R94, column "sched"). -/
def schedOps : List Nat := [0x02, 0x23, 0x25, 0x26, 0x27, 0x28, 0x29, 0x2A, 0x30, 0x31]

/-- The decoder of 30_encoding.md R96 as it is printed there, on numbers: `(op, d, s, r)`, or none for ILLEGAL. -/
def refDecode (w : CmdWord) : Option (Nat × Nat × Nat × Nat) :=
  let op := field w 0 8
  let free : CmdWord :=
    if op = 0x23 ∨ op = 0x25 then 0x00007100
    else if op = 0x26 then 0x00000100
    else if op = 0x29 ∨ op = 0x2A then 0x007F0000
    else 0
  if op ∉ assigned then none
  else if (w &&& ~~~free).toNat ≠ op then none
  else if op = 0x23 ∧ 5 < field w 12 3 then none
  else if op = 0x25 ∧ 4 < field w 12 3 then none
  else if (op = 0x29 ∨ op = 0x2A) ∧ 83 < field w 16 7 then none
  else some (op, field w 8 1, field w 12 3, field w 16 7)

/-- The numbers `(op, d, s, r)` of a command, from the opcode map of 30_encoding.md R94; a field it does not have is 0. -/
def numbers : Instr → Nat × Nat × Nat × Nat
  | .nop => (0x00, 0, 0, 0)
  | .build => (0x01, 0, 0, 0)
  | .chksched => (0x02, 0, 0, 0)
  | .prngSeed => (0x10, 0, 0, 0)
  | .prngNext32 => (0x11, 0, 0, 0)
  | .prngNext64 => (0x12, 0, 0, 0)
  | .prngBounded => (0x13, 0, 0, 0)
  | .unpack => (0x20, 0, 0, 0)
  | .pack => (0x21, 0, 0, 0)
  | .premix => (0x22, 0, 0, 0)
  | .mswap d s => (0x23, d.toNat, s.toNat, 0)
  | .wshuf => (0x24, 0, 0, 0)
  | .prot d s => (0x25, d.toNat, s.toNat, 0)
  | .perm d => (0x26, d.toNat, 0, 0)
  | .subst => (0x27, 0, 0, 0)
  | .lmix => (0x28, 0, 0, 0)
  | .rkey r => (0x29, 0, 0, r.toNat)
  | .round r => (0x2A, 0, 0, r.toNat)
  | .encrypt => (0x30, 0, 0, 0)
  | .hash => (0x31, 0, 0, 0)

/-- The legal words as 30_encoding.md R97 counts them: fifteen without fields, then MSWAP, PROT, PERM, RKEY and ROUND. -/
def legalWords : List CmdWord :=
  [0x00, 0x01, 0x02, 0x10, 0x11, 0x12, 0x13, 0x20, 0x21, 0x22, 0x24, 0x27, 0x28, 0x30, 0x31] ++
  (List.range 2).flatMap (fun d => (List.range 6).map fun s => BitVec.ofNat 32 (0x23 + 0x100 * d + 0x1000 * s)) ++
  (List.range 2).flatMap (fun d => (List.range 5).map fun s => BitVec.ofNat 32 (0x25 + 0x100 * d + 0x1000 * s)) ++
  (List.range 2).map (fun d => BitVec.ofNat 32 (0x26 + 0x100 * d)) ++
  (List.range 84).map (fun r => BitVec.ofNat 32 (0x29 + 0x10000 * r)) ++
  (List.range 84).map (fun r => BitVec.ofNat 32 (0x2A + 0x10000 * r))

/-- How many legal words have the operation code `op`. -/
def legalCount (op : Nat) : Nat := (legalWords.filter fun w => field w 0 8 == op).length

/-- The PRNG registers after `k` calls of `next_uint32` (40_prng.md R106). -/
def draws (P : PrngParams) : Nat → Prng → Prng
  | 0, g => g
  | k + 1, g => draws P k (g.next32 P).2

/-- The plain LCG of 40_prng.md R112 from a 32-bit seed. -/
def plainLcg (P : PrngParams) (seed : BitVec 32) : Nat → Word
  | 0 => seed.setWidth 64
  | n + 1 => P.baseMul * plainLcg P seed n + P.baseAdd

/-- An array with two places exchanged. -/
def exchanged (A : Nat → Nat) (i j : Nat) : Nat → Nat :=
  fun x => if x = i then A j else if x = j then A i else A x

/-- The loop of 40_prng.md R109 on an unbounded array, after its iterations i = 1 .. k. -/
def shuffleLoop (P : PrngParams) (g : Prng) : Nat → (Nat → Nat) × Prng
  | 0 => (fun x => x, g)
  | k + 1 =>
    let before := shuffleLoop P g k
    let j := before.2.bounded P (BitVec.ofNat 32 (k + 2))
    (exchanged before.1 (k + 1) j.1.toNat, j.2)

/-- The rotation set of 41_schedule.md R125 from the shuffled candidates B: the first five plus one, and the first candidate
from index 5 on whose sum with those five is odd. -/
structure RotationsFrom (B : Vector Nat 63) (rot : Vector (BitVec 6) 6) : Prop where
  first : ∀ j (_ : j < 5), (rot[j]).toNat = B[j] + 1
  sixth : ∃ q, ∃ _ : q < 63, 5 ≤ q ∧ (rot[5]).toNat = B[q] + 1 ∧
    (B[q] + 1 + ((B[0] + 1) + (B[1] + 1) + (B[2] + 1) + (B[3] + 1) + (B[4] + 1))) % 2 = 1 ∧
    ∀ p (_ : p < 63), 5 ≤ p → p < q →
      (B[p] + 1 + ((B[0] + 1) + (B[1] + 1) + (B[2] + 1) + (B[3] + 1) + (B[4] + 1))) % 2 = 0

/-- The schedule and PRNG of the five steps of 41_schedule.md R122 to R126, each entry drawn at its own place in the sequence
of draws from `seed(key)`. -/
structure BuiltFrom (P : PrngParams) (key : BitVec 32) (sch : Schedule) (after : Prng) : Prop where
  small : ∀ t (_ : t < 40) x (_ : x < 64),
    (sch.sbox1[t][x]).toNat = (shuffle P 64 (draws P (63 * t) (Prng.seed key))).1[x]
  large : ∀ t (_ : t < 10) x (_ : x < 1024),
    (sch.sbox2[t][x]).toNat = (shuffle P 1024 (draws P (2520 + 1023 * t) (Prng.seed key))).1[x]
  masks : ∀ d (_ : d < 2) s (_ : s < 6) k (_ : k < 5),
    sch.pbox[d].mask[s][k] = ((draws P (12750 + 85 * d + 2 * (5 * s + k)) (Prng.seed key)).next64 P).1
  amounts : ∀ d (_ : d < 2) s (_ : s < 5) k (_ : k < 5),
    (sch.pbox[d].rot[s][k]).toNat =
      ((draws P (12750 + 85 * d + 60 + (5 * s + k)) (Prng.seed key)).bounded P 63).1.toNat + 1
  rotations : RotationsFrom (shuffle P 63 (draws P 12920 (Prng.seed key))).1 sch.rot
  keys : ∀ r (_ : r < 84),
    (sch.rkey[r]).toNat = ((draws P (12982 + r) (Prng.seed key)).bounded P 1024).1.toNat
  left : after = draws P 13066 (Prng.seed key)

/-- The schedule invariants (a) to (d) of 10_state.md R45. -/
structure ScheduleInvariants (sch : Schedule) : Prop where
  small : ∀ t (_ : t < 40), Function.Bijective fun x : Fin 64 => sch.sbox1[t][x.val]
  large : ∀ t (_ : t < 10), Function.Bijective fun x : Fin 1024 => sch.sbox2[t][x.val]
  distinct : ∀ i (_ : i < 6) j (_ : j < 6), i ≠ j → sch.rot[i] ≠ sch.rot[j]
  rotations : ∀ j (_ : j < 6), 1 ≤ (sch.rot[j]).toNat ∧ (sch.rot[j]).toNat ≤ 63
  oddSum : (sch.rot[0].toNat + sch.rot[1].toNat + sch.rot[2].toNat + sch.rot[3].toNat + sch.rot[4].toNat +
    sch.rot[5].toNat) % 2 = 1
  amounts : ∀ d (_ : d < 2) s (_ : s < 5) k (_ : k < 5),
    1 ≤ (sch.pbox[d].rot[s][k]).toNat ∧ (sch.pbox[d].rot[s][k]).toNat ≤ 63
  keys : ∀ r (_ : r < 84), (sch.rkey[r]).toNat < 1024

/-- The number of one-bits of a state. -/
def popcount (w : Words) : Nat :=
  ∑ i : Fin 10, ∑ b ∈ Finset.range 64, if (w[i]).getLsbD b then 1 else 0

/-- The commands of `apply_permutation(d)` (42_transform.md R142, R152). -/
def permCommands (d : BitVec 1) : List Instr :=
  [.mswap d 0, .wshuf, .prot d 0, .mswap d 1, .wshuf, .prot d 1, .mswap d 2, .wshuf, .prot d 2] ++
  [.mswap d 3, .wshuf, .prot d 3, .mswap d 4, .wshuf, .prot d 4, .mswap d 5]

/-- The commands of `encrypt()` (43_driver.md R162, R164). -/
def encryptCommands : List Instr :=
  [.unpack, .premix] ++ (List.range 84).map (fun r => Instr.round (BitVec.ofNat 7 r)) ++ [.pack]

/-- The schedule index space of 20_memory.md R74: the entry at index `a`, zero-extended to 64 bits. -/
inductive EntryAt (sch : Schedule) : Nat → Word → Prop where
  | sbox1 (t x : Nat) (ht : t < 40) (hx : x < 64) : EntryAt sch (64 * t + x) ((sch.sbox1[t][x]).setWidth 64)
  | sbox2 (t x : Nat) (ht : t < 10) (hx : x < 1024) :
      EntryAt sch (0x1000 + 1024 * t + x) ((sch.sbox2[t][x]).setWidth 64)
  | pmask (d s k : Nat) (hd : d < 2) (hs : s < 6) (hk : k < 5) :
      EntryAt sch (0x4000 + 64 * d + 8 * s + k) sch.pbox[d].mask[s][k]
  | prot (d s k : Nat) (hd : d < 2) (hs : s < 5) (hk : k < 5) :
      EntryAt sch (0x4100 + 64 * d + 8 * s + k) ((sch.pbox[d].rot[s][k]).setWidth 64)
  | rot (j : Nat) (hj : j < 6) : EntryAt sch (0x4200 + j) ((sch.rot[j]).setWidth 64)
  | rkey (r : Nat) (hr : r < 84) : EntryAt sch (0x4300 + r) ((sch.rkey[r]).setWidth 64)

/-- An access of `n` bytes at offset `o` that is illegal by 60_exceptions.md R184 (a), (b) or (c). -/
def IllegalPlace (o n : Nat) : Prop :=
  (o < 0x0D0 ∧ (n ≠ 8 ∨ o % 8 ≠ 0 ∨ (0x078 ≤ o ∧ o ≤ 0x07F))) ∨
  (0x100 ≤ o ∧ o ≤ 0x163 ∧ (o % n ≠ 0 ∨ 0x163 < o + n - 1)) ∨
  (0x0D0 ≤ o ∧ o ≤ 0x0FF) ∨ 0x164 ≤ o

/-- The offsets of the read-only registers (60_exceptions.md R184 (d)). -/
def readOnlyOffsets : List Nat := [0x000, 0x038, 0x040, 0x048, 0x050, 0x058, 0x068, 0x070]

/-- The offsets of the engine-owned registers (60_exceptions.md R185). -/
def engineOwnedOffsets : List Nat :=
  [0x040, 0x048, 0x050, 0x058, 0x068, 0x070, 0x080, 0x088, 0x090, 0x098, 0x0A0, 0x0A8, 0x0B0, 0x0B8, 0x0C0, 0x0C8]

/-- The offsets of the operand registers KEY, LEN, ARG and SCHED_ADDR (20_memory.md R70). -/
def operandOffsets : List Nat := [0x020, 0x028, 0x030, 0x060]

/-- Access info (60_exceptions.md R177): the offset, 1 in bit 16 for a write, the width in bits [23:20]. -/
def infoWord (o n write : Nat) : BitVec 32 := BitVec.ofNat 32 (o + write * 2 ^ 16 + n * 2 ^ 20)

/-- A flag as the number 0 or 1. -/
def num (b : Bool) : Nat := if b then 1 else 0

end Sys2Proof.Claims

open Sys2Proof Sys2Proof.Machine Sys2Proof.Claims

/-! ### Encoding -/

/-- Decoding the word of a well-formed command gives it back, and so does decoding the word's four bytes, whatever
follows them (30_encoding.md R96, R98; 20_memory.md R66). -/
def Obligations.DecodeGivesBackEncodedCommand : Prop :=
  ∀ i : Instr, i.wellFormed = true →
    decode (encode i) = .ok i ∧ ∀ rest, decodeBytes (wordBytes (encode i) ++ rest) = .ok (i, rest)

/-- A word that decodes is the word of the command it decodes to, which is well-formed (30_encoding.md R93, R95): no two
words stand for one command, and no illegal command comes out. -/
def Obligations.DecodedWordIsTheCommandsOwn : Prop :=
  ∀ (w : CmdWord) (i : Instr), decode w = .ok i → encode i = w ∧ i.wellFormed = true

/-- 30_encoding.md R96: the decoder is the printed one, on every 32-bit word. -/
def Obligations.DecoderIsThePrintedOne : Prop :=
  ∀ w : CmdWord, (decode w).toOption.map numbers = refDecode w

/-- 30_encoding.md R97: the legal words are exactly these 207, and so many of each operation. -/
def Obligations.LegalWordsAreCounted : Prop :=
  (∀ w : CmdWord, (∃ i, decode w = .ok i) ↔ w ∈ legalWords) ∧
  legalWords.Nodup ∧ legalWords.length = 207 ∧
  (∀ op ∈ [0x00, 0x01, 0x02, 0x10, 0x11, 0x12, 0x13, 0x20, 0x21, 0x22, 0x24, 0x27, 0x28, 0x30, 0x31],
    legalCount op = 1) ∧
  legalCount 0x23 = 12 ∧ legalCount 0x25 = 10 ∧ legalCount 0x26 = 2 ∧ legalCount 0x29 = 84 ∧ legalCount 0x2A = 84

/-- The words printed in 30_encoding.md R98 and a few illegal ones of R95. -/
def Obligations.PrintedWordsDecode : Prop :=
  decode 0x00005123 = .ok (.mswap 1 5) ∧ decode 0x00004025 = .ok (.prot 0 4) ∧ decode 0x00000126 = .ok (.perm 1) ∧
  decode 0x00530029 = .ok (.rkey 83) ∧ decode 0x0000002A = .ok (.round 0) ∧ decode 0x00000031 = .ok .hash ∧
  decode 0x00000003 = .error .reservedOpcode ∧ decode 0x80000000 = .error .reservedBits ∧
  decode 0x00006023 = .error .fieldRange ∧ decode 0x00540029 = .error .fieldRange

/-! ### The PRNG commands -/

/-- 40_prng.md R110 through PRNG_SEED: the key zero-extended, multiplicand 1, addend 0; nothing else changes. -/
def Obligations.PrngSeedTakesTheKey : Prop :=
  ∀ s : State, exec .prngSeed s =
    .next (finished s { s.eng with prng := { cur := BitVec.ofNat 64 s.eng.key.toNat, mul := 1, add := 0 } })

/-- 40_prng.md R106 through PRNG_NEXT32: the update order of the three registers, all modulo 2^64, and the draw, which is
the high half of CUR. -/
def Obligations.PrngNext32AdvancesInOrder : Prop :=
  ∀ s : State, ∃ add mul cur : Word,
    add.toNat = (s.eng.prng.add.toNat + s.eng.prng.mul.toNat * s.params.prng.baseAdd.toNat) % 2 ^ 64 ∧
    mul.toNat = s.eng.prng.mul.toNat * s.params.prng.baseMul.toNat % 2 ^ 64 ∧
    cur.toNat = (s.eng.prng.cur.toNat * mul.toNat + add.toNat) % 2 ^ 64 ∧
    exec .prngNext32 s =
      .next (finished s { s.eng with
        prng := { cur := cur, mul := mul, add := add }, prngOut := BitVec.ofNat 64 (cur.toNat / 2 ^ 32) })

/-- 40_prng.md R107 through PRNG_NEXT64: it is two PRNG_NEXT32, their draws put together with the first one high. -/
def Obligations.PrngNext64IsTwoDraws : Prop :=
  ∀ s : State, ∃ (s1 s2 : State) (out : Word), exec .prngNext32 s = .next s1 ∧ exec .prngNext32 s1 = .next s2 ∧
    out.toNat = s1.eng.prngOut.toNat * 2 ^ 32 + s2.eng.prngOut.toNat ∧
    s1.eng.prngOut.toNat < 2 ^ 32 ∧ s2.eng.prngOut.toNat < 2 ^ 32 ∧
    exec .prngNext64 s = .next { s2 with eng := { s2.eng with prngOut := out } }

/-- PRNG_BOUNDED (40_prng.md R108, R116): one draw, scaled to [0, ARG) by the exact product; a bound of 0 gives 0 and
draws all the same. -/
def Obligations.PrngBoundedScalesOneDraw : Prop :=
  ∀ s : State, ∃ s1 t : State, exec .prngNext32 s = .next s1 ∧ exec .prngBounded s = .next t ∧
    t = { s1 with eng := { s1.eng with prngOut := t.eng.prngOut } } ∧
    t.eng.prngOut.toNat = s1.eng.prngOut.toNat * s.eng.arg.toNat / 2 ^ 32 ∧
    (1 ≤ s.eng.arg.toNat → t.eng.prngOut.toNat < s.eng.arg.toNat) ∧
    (s.eng.arg = 0 → t.eng.prngOut = 0)

/-- The jump law (40_prng.md R112): after PRNG_SEED and k PRNG_NEXT32 the multiplicand is the k-th power of
PRNG_BASE_MUL and CUR is the plain LCG's value number k(k+1)/2, whose high half is the last draw. -/
def Obligations.PrngJumpsThroughThePlainLcg : Prop :=
  ∀ (s : State) (k : Nat), ∃ t : State,
    runSeq (.prngSeed :: List.replicate k .prngNext32) s = .next t ∧
    t.eng.prng.mul.toNat = s.params.prng.baseMul.toNat ^ k % 2 ^ 64 ∧
    t.eng.prng.cur = plainLcg s.params.prng s.eng.key (k * (k + 1) / 2) ∧
    (0 < k → t.eng.prngOut.toNat = (plainLcg s.params.prng s.eng.key (k * (k + 1) / 2)).toNat / 2 ^ 32)

/-- 40_prng.md R109: a shuffle is the printed loop, it takes size - 1 draws, and its result is a permutation of
[0, size) whatever the draws are. -/
def Obligations.ShuffleIsTheLoopAndAPermutation : Prop :=
  ∀ (P : PrngParams) (size : Nat) (g : Prng), size < 2 ^ 32 →
    (∀ x (_ : x < size), (shuffle P size g).1[x] = (shuffleLoop P g (size - 1)).1 x) ∧
    (shuffle P size g).2 = draws P (size - 1) g ∧
    (shuffle P size g).1.toList.Perm (List.range size)

/-! ### The schedule -/

/-- 41_schedule.md R132: BUILD completes with a store, a PRNG and an SKEY that depend on KEY and the PRNG's parameters alone,
and changes nothing else. -/
def Obligations.BuildIsAFunctionOfTheKey : Prop :=
  ∀ (P : PrngParams) (key : BitVec 32), ∃ (sch : Schedule) (g : Prng), ∀ s : State,
    s.params.prng = P → s.eng.key = key →
    exec .build s = .next (finished s { s.eng with store := some sch, prng := g, skey := key })

/-- 41_schedule.md R122 to R127: every entry of the store that BUILD writes comes from its place in the sequence of draws from
`seed(KEY)`, and the 13066th draw is the last, whatever the parameters of the PRNG are. -/
def Obligations.BuildDrawsInOrder : Prop :=
  ∀ s : State, ∃ (sch : Schedule) (g : Prng), BuiltFrom s.params.prng s.eng.key sch g ∧
    exec .build s = .next (finished s { s.eng with store := some sch, prng := g, skey := s.eng.key })

/-- 41_schedule.md R125, R128: the rotation set of the store that BUILD writes, from the shuffled candidates B. The scan stops
at the first index from 5 on whose candidate makes the sum odd, at most 36. -/
def Obligations.RotationSetScanStops : Prop :=
  ∀ (s : State) (B : Vector Nat 63) (sum : Nat),
    B = (shuffle s.params.prng 63 (draws s.params.prng 12920 (Prng.seed s.eng.key))).1 →
    sum = (B[0] + 1) + (B[1] + 1) + (B[2] + 1) + (B[3] + 1) + (B[4] + 1) →
    ∃ (t : State) (sch : Schedule), exec .build s = .next t ∧ t.eng.store = some sch ∧
      (∀ j (_ : j < 5), (sch.rot[j]).toNat = B[j] + 1) ∧ sum ≤ 305 ∧
      (∃ q, ∃ _ : q < 63, 5 ≤ q ∧ q ≤ 36 ∧ (sch.rot[5]).toNat = B[q] + 1 ∧ (B[q] + 1 + sum) % 2 = 1 ∧
        ∀ p (_ : p < 63), 5 ≤ p → p < q → (B[p] + 1 + sum) % 2 = 0) ∧
      ∀ j (_ : j < 5), sch.rot[5] ≠ sch.rot[j]

/-- 10_state.md R45, 41_schedule.md R131: every store that BUILD writes has the schedule invariants, and CHKSCHED after BUILD
completes with no error, whatever the key and the parameters of the PRNG are. -/
def Obligations.EveryBuiltScheduleIsSound : Prop :=
  ∀ s : State, ∃ (t : State) (sch : Schedule), exec .build s = .next t ∧ t.eng.store = some sch ∧
    ScheduleInvariants sch ∧ exec .chksched t = .next (finished t t.eng)

/-- CHKSCHED (41_schedule.md R130): with a store it completes; it records INVARIANT with info 2 exactly where the
invariants fail, and changes nothing else. -/
def Obligations.ChkschedTestsTheInvariants : Prop :=
  ∀ (s : State) (sch : Schedule), s.eng.store = some sch →
    (ScheduleInvariants sch → exec .chksched s = .next (finished s s.eng)) ∧
    (¬ ScheduleInvariants sch → exec .chksched s = .next (finished s (s.eng.raise .invariant 0x00000002)))

/-! ### The state transforms -/

/-- 42_transform.md R136: UNPACK loads each word from its eight bytes, the lowest one least significant. -/
def Obligations.UnpackLoadsLittleEndianWords : Prop :=
  ∀ s : State, ∃ w : Words, exec .unpack s = .next (finished s { s.eng with w := w }) ∧
    ∀ i (_ : i < 10), (w[i]).toNat = ∑ j ∈ Finset.range 8, (s.eng.bufByte (8 * i + j)).toNat * 2 ^ (8 * j)

/-- 42_transform.md R137: PACK stores byte j of word i at BUF[8i + j], keeps every other byte and the canonical form, and
is the inverse of UNPACK both ways. -/
def Obligations.PackIsTheInverseOfUnpack : Prop :=
  ∀ s : State, Memory.wf s.eng.buf = true → ∃ m : Memory,
    exec .pack s = .next (finished s { s.eng with buf := m }) ∧ Memory.wf m = true ∧
    (∀ i (_ : i < 10) j, j < 8 →
      Memory.read m (Config.bufBase + (8 * i + j)) = BitVec.ofNat 8 ((s.eng.w[i]).toNat / 2 ^ (8 * j))) ∧
    (∀ a, a < Config.bufBase ∨ Config.bufBase + 80 ≤ a → Memory.read m a = Memory.read s.eng.buf a) ∧
    (∃ t, runSeq [.unpack, .pack] s = .next t ∧ t.eng.buf = s.eng.buf) ∧
    (∃ t, runSeq [.pack, .unpack] s = .next t ∧ t.eng.w = s.eng.w)

/-- 42_transform.md R138: PREMIX XORs the folded accumulator of the old words into every word. -/
def Obligations.PremixFoldsTheWords : Prop :=
  ∀ (s : State) (acc : Word),
    acc = s.eng.w[0] ^^^ s.eng.w[1] ^^^ s.eng.w[2] ^^^ s.eng.w[3] ^^^ s.eng.w[4] ^^^
      s.eng.w[5] ^^^ s.eng.w[6] ^^^ s.eng.w[7] ^^^ s.eng.w[8] ^^^ s.eng.w[9] →
    exec .premix s =
      .next (finished s { s.eng with w := s.eng.w.map fun x => x ^^^ (acc ^^^ BitVec.ofNat 64 (acc.toNat / 2 ^ 32)) })

/-- 42_transform.md R139 through MSWAP: exactly the bit positions set in the pair's mask are exchanged between the two
words of the pair, and a second MSWAP of the same subround restores the words. -/
def Obligations.MaskedSwapExchangesTheMaskedBits : Prop :=
  ∀ (s : State) (sch : Schedule) (d : BitVec 1) (sub : BitVec 3) (hs : sub.toNat < 6), s.eng.store = some sch →
    ∃ w : Words, exec (.mswap d sub) s = .next (finished s { s.eng with w := w }) ∧
      (∀ k (_ : k < 5) b, b < 64 →
        (w[2 * k]).getLsbD b =
          (if (sch.pbox[d.toNat].mask[sub.toNat][k]).getLsbD b then s.eng.w[2 * k + 1] else s.eng.w[2 * k]).getLsbD b ∧
        (w[2 * k + 1]).getLsbD b =
          (if (sch.pbox[d.toNat].mask[sub.toNat][k]).getLsbD b then s.eng.w[2 * k] else s.eng.w[2 * k + 1]).getLsbD b) ∧
      runSeq [.mswap d sub, .mswap d sub] s = .next (finished s s.eng)

/-- 42_transform.md R140: WSHUF moves word i to place 3i mod 10; read at its target, word j is the old word 7j mod 10;
four of them restore the words. -/
def Obligations.WordShuffleMovesWordThreeI : Prop :=
  ∀ s : State, ∃ w : Words, exec .wshuf s = .next (finished s { s.eng with w := w }) ∧
    (∀ i (_ : i < 10), w[3 * i % 10]'(Nat.mod_lt _ (by decide)) = s.eng.w[i]) ∧
    (∀ j (_ : j < 10), w[j] = s.eng.w[7 * j % 10]'(Nat.mod_lt _ (by decide))) ∧
    runSeq [.wshuf, .wshuf, .wshuf, .wshuf] s = .next (finished s s.eng)

/-- 42_transform.md R141 through PROT: bit b of each even word moves to bit (b + amount) mod 64; odd words stay. -/
def Obligations.PboxRotateTurnsEvenWords : Prop :=
  ∀ (s : State) (sch : Schedule) (d : BitVec 1) (sub : BitVec 3) (hs : sub.toNat < 5), s.eng.store = some sch →
    ∃ w : Words, exec (.prot d sub) s = .next (finished s { s.eng with w := w }) ∧
      ∀ k (_ : k < 5), w[2 * k + 1] = s.eng.w[2 * k + 1] ∧
        ∀ b, b < 64 →
          (w[2 * k]).getLsbD ((b + (sch.pbox[d.toNat].rot[sub.toNat][k]).toNat) % 64) = (s.eng.w[2 * k]).getLsbD b

/-- 42_transform.md R142: PERM d completes as the sixteen commands MSWAP d,0; WSHUF; PROT d,0; ...; MSWAP d,5 do. -/
def Obligations.PermIsItsSixteenSteps : Prop :=
  ∀ (s : State) (sch : Schedule) (d : BitVec 1), s.eng.store = some sch →
    ∃ w : Words, exec (.perm d) s = .next (finished s { s.eng with w := w }) ∧
      runSeq (permCommands d) s = exec (.perm d) s

/-- PERM moves bits and neither creates nor destroys one (42_transform.md R152). -/
def Obligations.PermKeepsTheNumberOfOnes : Prop :=
  ∀ (s : State) (sch : Schedule) (d : BitVec 1), s.eng.store = some sch →
    ∃ t : State, exec (.perm d) s = .next t ∧ popcount t.eng.w = popcount s.eng.w

/-- 42_transform.md R143 through SUBST: each of the 80 fields goes through its own table and no other, in place; with
tables that are bijections, SUBST is a bijection of the state words. That those are ten 64-bit words, 640 bits, where R143
speaks of an 800-bit state, is the model's choice (log entry 19). -/
def Obligations.SubstReplacesEachField : Prop :=
  ∀ sch : Schedule,
    (∀ s : State, s.eng.store = some sch →
      ∃ w : Words, exec .subst s = .next (finished s { s.eng with w := w }) ∧
        ∀ i (_ : i < 10) j (_ : j < 4),
          (w[i]).extractLsb' (16 * j) 6 =
            (sch.sbox1[4 * i + j])[((s.eng.w[i]).extractLsb' (16 * j) 6).toNat]'(BitVec.isLt _) ∧
          (w[i]).extractLsb' (16 * j + 6) 10 =
            (sch.sbox2[i])[((s.eng.w[i]).extractLsb' (16 * j + 6) 10).toNat]'(BitVec.isLt _)) ∧
    ((∀ t (_ : t < 40), Function.Bijective fun x : Fin 64 => sch.sbox1[t][x.val]) →
     (∀ t (_ : t < 10), Function.Bijective fun x : Fin 1024 => sch.sbox2[t][x.val]) →
      Function.Bijective (applySubstitution sch))

/-- 42_transform.md R144 through LMIX: the next word XOR the six left rotations of the word itself, all old values. -/
def Obligations.LinearMixXorsSixRotations : Prop :=
  ∀ (s : State) (sch : Schedule), s.eng.store = some sch →
    ∃ w : Words, exec .lmix s = .next (finished s { s.eng with w := w }) ∧
      ∀ i (_ : i < 10), w[i] = s.eng.w[(i + 1) % 10]'(Nat.mod_lt _ (by decide)) ^^^
        (s.eng.w[i].rotateLeft sch.rot[0].toNat ^^^ s.eng.w[i].rotateLeft sch.rot[1].toNat ^^^
         s.eng.w[i].rotateLeft sch.rot[2].toNat ^^^ s.eng.w[i].rotateLeft sch.rot[3].toNat ^^^
         s.eng.w[i].rotateLeft sch.rot[4].toNat ^^^ s.eng.w[i].rotateLeft sch.rot[5].toNat)

/-- 42_transform.md R145 through RKEY: bit i of the round key is XORed into bit 0 of word i; no other bit changes. -/
def Obligations.RoundKeyMeetsBitZero : Prop :=
  ∀ (s : State) (sch : Schedule) (r : BitVec 7) (hr : r.toNat < 84), s.eng.store = some sch →
    ∃ w : Words, exec (.rkey r) s = .next (finished s { s.eng with w := w }) ∧
      ∀ i (_ : i < 10), (w[i]).getLsbD 0 = ((s.eng.w[i]).getLsbD 0 ^^ (sch.rkey[r.toNat]).getLsbD i) ∧
        ∀ b, 1 ≤ b → b < 64 → (w[i]).getLsbD b = (s.eng.w[i]).getLsbD b

/-! ### The driver -/

/-- NOP completes and changes nothing else (43_driver.md R163). -/
def Obligations.NopOnlyCompletes : Prop :=
  ∀ s : State, exec .nop s = .next { s with eng := { s.eng with pend := none, done := true } }

/-- 43_driver.md R161: ROUND r completes as PERM 0; SUBST; PERM 1; LMIX; RKEY r do. -/
def Obligations.RoundIsItsFiveSteps : Prop :=
  ∀ (s : State) (sch : Schedule) (r : BitVec 7), r.toNat < 84 → s.eng.store = some sch →
    ∃ w : Words, exec (.round r) s = .next (finished s { s.eng with w := w }) ∧
      runSeq [.perm 0, .subst, .perm 1, .lmix, .rkey r] s = exec (.round r) s

/-- 43_driver.md R162: ENCRYPT completes as UNPACK; PREMIX; ROUND 0; ...; ROUND 83; PACK do; it writes the state words and
BUF[0..79], and leaves the state words equal to UNPACK of the new BUF. -/
def Obligations.EncryptIsUnpackPremixRoundsPack : Prop :=
  ∀ (s : State) (sch : Schedule), s.eng.store = some sch → Memory.wf s.eng.buf = true →
    ∃ (w : Words) (m : Memory), exec .encrypt s = .next (finished s { s.eng with w := w, buf := m }) ∧
      runSeq encryptCommands s = exec .encrypt s ∧
      runSeq [.encrypt, .unpack] s = exec .encrypt s ∧
      ∀ a, a < Config.bufBase ∨ Config.bufBase + 80 ≤ a → Memory.read m a = Memory.read s.eng.buf a

/-- 43_driver.md R166: what the padding writes, and that it is injective: two padded inputs are equal only if their
lengths and their bytes are. -/
def Obligations.PaddingMarksTheEndOfTheInput : Prop :=
  (∀ (m : Memory) (n : Nat), Memory.wf m = true → n ≤ 80 →
    ∀ k, k < 100 → Memory.read (padInput n m) (Config.bufBase + k) =
      if k < n then Memory.read m (Config.bufBase + k) else if k = n then 0x01 else 0x00) ∧
  ∀ (m m' : Memory) (n n' : Nat), Memory.wf m = true → Memory.wf m' = true → n ≤ 80 → n' ≤ 80 →
    (∀ k, k ≤ 80 → Memory.read (padInput n m) (Config.bufBase + k) = Memory.read (padInput n' m') (Config.bufBase + k)) →
    n = n' ∧ ∀ k, k < n → Memory.read m (Config.bufBase + k) = Memory.read m' (Config.bufBase + k)

/-- HASH with LEN <= 80 (43_driver.md R167): ENCRYPT on any buffer that holds the padded input, then FINAL on the whole
buffer, whatever total function FINAL is (00_scope.md R13); the words are the final cipher state, nothing outside BUF and the
words changes, and the digest is the first 32 bytes of FINAL's output (R168). -/
def Obligations.HashPadsEncryptsAndFinalizes : Prop :=
  ∀ (s : State) (sch : Schedule) (p : Memory), s.eng.store = some sch → s.eng.len.toNat ≤ 80 →
    Memory.wf s.eng.buf = true → Memory.wf p = true →
    (∀ k, k < 100 → Memory.read p (Config.bufBase + k) =
      if k < s.eng.len.toNat then Memory.read s.eng.buf (Config.bufBase + k)
      else if k = s.eng.len.toNat then 0x01 else 0x00) →
    ∃ (u t : State) (m : Memory),
      exec .encrypt { s with eng := { s.eng with buf := p } } = .next u ∧
      exec .hash s = .next t ∧ t = finished s { s.eng with w := u.eng.w, buf := m } ∧
      (∀ k (_ : k < 100), Memory.read m (Config.bufBase + k) = (s.params.final.apply (bufBlock u.eng.buf))[k]) ∧
      (∀ k (_ : k < 32), t.eng.digest[k] = (s.params.final.apply (bufBlock u.eng.buf))[k]) ∧
      ∀ a, a < Config.bufBase ∨ Config.bufBase + 100 ≤ a → Memory.read m a = Memory.read s.eng.buf a

/-- 43_driver.md R170: ENCRYPT depends on BUF[0..79] and the store alone, HASH on LEN, BUF[0..LEN-1], the store and FINAL
alone: the PRNG registers, KEY, SKEY and the old state words have no part in their results. -/
def Obligations.EncryptAndHashReadNothingElse : Prop :=
  ∀ (s s' : State) (sch : Schedule), s.eng.store = some sch → s'.eng.store = some sch →
    Memory.wf s.eng.buf = true → Memory.wf s'.eng.buf = true →
    ((∀ k, k < 80 → s.eng.bufByte k = s'.eng.bufByte k) →
      ∃ t t', exec .encrypt s = .next t ∧ exec .encrypt s' = .next t' ∧ t.eng.w = t'.eng.w ∧
        ∀ k, k < 80 → t.eng.bufByte k = t'.eng.bufByte k) ∧
    (s.params.final = s'.params.final → s.eng.len = s'.eng.len → s.eng.len.toNat ≤ 80 →
      (∀ k, k < s.eng.len.toNat → s.eng.bufByte k = s'.eng.bufByte k) →
      ∃ t t', exec .hash s = .next t ∧ exec .hash s' = .next t' ∧ t.eng.w = t'.eng.w ∧ t.eng.digest = t'.eng.digest ∧
        ∀ k, k < 100 → t.eng.bufByte k = t'.eng.bufByte k)

/-! ### Frames -/

/-- What no command changes: the host, the parameters, the operand registers KEY, LEN, ARG and SCHED_ADDR, LASTCMD and the
interrupt enables (70_reset_and_hazards.md R216, 10_state.md R24, R26), nor the model's list of turns (log entry 1). A command
that acceptance lets through completes: BUSY falls and DONE rises (20_memory.md R79), and only CHKSCHED records an error. -/
def Obligations.FrameOfEveryCommand : Prop :=
  ∀ (i : Instr) (s t : State), exec i s = .next t →
    t.host = s.host ∧ t.turns = s.turns ∧ t.params = s.params ∧
    t.eng.key = s.eng.key ∧ t.eng.len = s.eng.len ∧ t.eng.arg = s.eng.arg ∧
    t.eng.schedAddr = s.eng.schedAddr ∧ t.eng.lastcmd = s.eng.lastcmd ∧ t.eng.ieDone = s.eng.ieDone ∧
    t.eng.ieErr = s.eng.ieErr ∧
    (commandError i s.eng = none →
      t.eng.pend = none ∧ t.eng.done = true ∧ (i ≠ .chksched → t.eng.err = s.eng.err))

/-- The frame of the storing commands: PACK and ENCRYPT store BUF[0..79], HASH stores BUF[0..99]; every other byte reads
as before, and the PRNG, PRNG_OUT, SKEY and the store stay; PACK keeps the words too. -/
def Obligations.FrameOfStoringCommands : Prop :=
  ∀ (i : Instr) (s t : State), i = .pack ∨ i = .encrypt ∨ i = .hash → exec i s = .next t →
    (∀ a, a < Config.bufBase ∨ Config.bufBase + (if i = .hash then Config.bufBytes else Config.blockBytes) ≤ a →
      Memory.read t.eng.buf a = Memory.read s.eng.buf a) ∧
    t.eng.prng = s.eng.prng ∧ t.eng.prngOut = s.eng.prngOut ∧ t.eng.skey = s.eng.skey ∧ t.eng.store = s.eng.store ∧
    (i = .pack → t.eng.w = s.eng.w)

/-- The frame of NOP, CHKSCHED, BUILD and the PRNG commands: every byte of BUF and the state words stay; only BUILD writes the store and SKEY
(10_state.md R35, R38), only BUILD and the PRNG commands the PRNG registers (R32), only the three draws PRNG_OUT (R31). -/
def Obligations.FrameOfBuildAndPrngCommands : Prop :=
  ∀ (i : Instr) (s t : State),
    i ∈ [.nop, .chksched, .build, .prngSeed, .prngNext32, .prngNext64, .prngBounded] → exec i s = .next t →
    t.eng.w = s.eng.w ∧ (∀ a, Memory.read t.eng.buf a = Memory.read s.eng.buf a) ∧
    (i ≠ .build → t.eng.store = s.eng.store ∧ t.eng.skey = s.eng.skey) ∧
    (i = .nop ∨ i = .chksched → t.eng.prng = s.eng.prng) ∧
    (i ≠ .prngNext32 → i ≠ .prngNext64 → i ≠ .prngBounded → t.eng.prngOut = s.eng.prngOut)

/-- The frame of the commands that write the state words and nothing else of the datapath: UNPACK, PREMIX, MSWAP, WSHUF,
PROT, PERM, SUBST, LMIX, RKEY and ROUND (42_transform.md R146 to R155, 43_driver.md R164). -/
def Obligations.FrameOfWordCommands : Prop :=
  ∀ (i : Instr) (s t : State),
    (i = .unpack ∨ i = .premix ∨ (∃ d sub, i = .mswap d sub) ∨ i = .wshuf ∨ (∃ d sub, i = .prot d sub) ∨
      (∃ d, i = .perm d) ∨ i = .subst ∨ i = .lmix ∨ (∃ r, i = .rkey r) ∨ ∃ r, i = .round r) →
    exec i s = .next t →
    t.eng.prng = s.eng.prng ∧ t.eng.prngOut = s.eng.prngOut ∧ t.eng.skey = s.eng.skey ∧ t.eng.store = s.eng.store ∧
    t.eng.buf = s.eng.buf

/-- A command that acceptance would not let through is turned away by the engine with its error and no other effect:
the model's choice for words that no CMD write puts in PEND (log entries 2 and 16). -/
def Obligations.RejectedCommandsAreTurnedAway : Prop :=
  ∀ (i : Instr) (s : State) (x : ErrCode), commandError i s.eng = some x →
    exec i s = .next { s with eng := { s.eng.raise x (encode i) with pend := none } }

/-! ### Errors and acceptance -/

/-- 60_exceptions.md R180: the first error is recorded with its code and information, a later one only sets OVF, and
nothing else changes; seen through STATUS, ERR and irq. -/
def Obligations.RaiseRecordsTheFirstError : Prop :=
  ∀ (e : Engine) (x : ErrCode) (info : BitVec 32),
    (e.err = none → e.raise x info = { e with err := some { code := x, ovf := false, info := info } } ∧
      ((memRead 0x038 .w8 (e.raise x info)).1).toNat = x.toByte.toNat + info.toNat * 2 ^ 32) ∧
    (∀ r, e.err = some r → e.raise x info = { e with err := some { r with ovf := true } } ∧
      ((memRead 0x038 .w8 (e.raise x info)).1).toNat = r.code.toByte.toNat + 2 ^ 8 + r.info.toNat * 2 ^ 32) ∧
    ((memRead 0x010 .w8 (e.raise x info)).1).getLsbD 2 = true ∧
    (e.raise x info).irq = (e.done && e.ieDone || e.ieErr)

/-- 60_exceptions.md R176: a write of v to CMD presents v[31:0]; the errors in their order, and what acceptance does. -/
def Obligations.CmdWriteAcceptsOrRejects : Prop :=
  ∀ (e : Engine) (v : Word) (w : CmdWord), w = BitVec.ofNat 32 v.toNat →
    memWrite 0x018 .w8 v e =
      if e.pend.isSome then e.raise .cmdBusy w
      else match refDecode w with
        | none => e.raise .illegalCmd w
        | some (op, _, _, _) =>
          if op ∈ schedOps ∧ e.store = none then e.raise .noSchedule w
          else if op = 0x31 ∧ 80 < e.len.toNat then e.raise .precondition w
          else { e with lastcmd := w, pend := some w, done := false }

/-- 60_exceptions.md R184: an access that is illegal by itself raises ACCESS with its access info whether or not a command
is pending; a read returns 0 and a write changes nothing else. -/
def Obligations.IllegalAccessRaisesAccess : Prop :=
  ∀ (off : BitVec 9) (n : Width) (v : Word) (e : Engine),
    (IllegalPlace off.toNat n.bytes → memRead off n e = (0, e.raise .access (infoWord off.toNat n.bytes 0))) ∧
    (IllegalPlace off.toNat n.bytes ∨ off.toNat ∈ readOnlyOffsets →
      memWrite off n v e = e.raise .access (infoWord off.toNat n.bytes 1))

/-- 60_exceptions.md R185: while a command is pending, a legal access to an engine-owned register or to BUF, and a legal
write to an operand register, raise ACCESS_BUSY; a read returns 0 and a write changes nothing else. -/
def Obligations.BusyAccessRaisesAccessBusy : Prop :=
  ∀ (off : BitVec 9) (n : Width) (v : Word) (e : Engine), e.pend.isSome = true → ¬ IllegalPlace off.toNat n.bytes →
    (off.toNat ∈ engineOwnedOffsets ∨ 0x100 ≤ off.toNat →
      memRead off n e = (0, e.raise .accessBusy (infoWord off.toNat n.bytes 0))) ∧
    (off.toNat ∈ engineOwnedOffsets ∨ 0x100 ≤ off.toNat ∨ off.toNat ∈ operandOffsets →
      off.toNat ∉ readOnlyOffsets →
      memWrite off n v e = e.raise .accessBusy (infoWord off.toNat n.bytes 1))

/-- While a command is pending, a host access changes nothing but the error record, STATUS.DONE and the interrupt enables:
PEND, LASTCMD, the operands and the datapath are frozen (10_state.md R47, 20_memory.md R70); unless it is the write of CTRL
with SRST set, which is the whole reset (70_reset_and_hazards.md R208). -/
def Obligations.PendingCommandIsFrozen : Prop :=
  ∀ (a : Access) (e : Engine), e.pend.isSome = true →
    (∃ v : Word, a = .write 0x008 .w8 v ∧ v.getLsbD 31 = true ∧ (access a e).2 = Engine.reset) ∨
    ∃ (err : Option ErrRecord) (done ieDone ieErr : Bool),
      (access a e).2 = { e with err := err, done := done, ieDone := ieDone, ieErr := ieErr }

/-! ### The register window -/

/-- What a read of each register returns, reserved bits 0, with no effect (10_state.md R23 to R36, R51; 20_memory.md R68,
R70): control and operand registers always, engine-owned ones while no command is pending. -/
def Obligations.RegisterReadsReturnTheState : Prop :=
  ∀ e : Engine,
    memRead 0x000 .w8 e = (0x50130A0606060A54, e) ∧
    memRead 0x008 .w8 e = (BitVec.ofNat 64 (num e.ieDone + 2 * num e.ieErr), e) ∧
    memRead 0x010 .w8 e =
      (BitVec.ofNat 64 (num e.pend.isSome + 2 * num e.done + 4 * num e.err.isSome + 8 * num e.store.isSome), e) ∧
    memRead 0x018 .w8 e = (BitVec.ofNat 64 e.lastcmd.toNat, e) ∧
    memRead 0x020 .w8 e = (BitVec.ofNat 64 e.key.toNat, e) ∧
    memRead 0x028 .w8 e = (BitVec.ofNat 64 e.len.toNat, e) ∧
    memRead 0x030 .w8 e = (BitVec.ofNat 64 e.arg.toNat, e) ∧
    (e.err = none → memRead 0x038 .w8 e = (0, e)) ∧
    (∀ r, e.err = some r → memRead 0x038 .w8 e =
      (BitVec.ofNat 64 (r.code.toByte.toNat + 2 ^ 8 * num r.ovf + 2 ^ 32 * r.info.toNat), e)) ∧
    memRead 0x060 .w8 e = (BitVec.ofNat 64 e.schedAddr.toNat, e) ∧
    (e.pend = none →
      memRead 0x040 .w8 e = (e.prngOut, e) ∧ memRead 0x048 .w8 e = (e.prng.cur, e) ∧
      memRead 0x050 .w8 e = (e.prng.mul, e) ∧ memRead 0x058 .w8 e = (e.prng.add, e) ∧
      memRead 0x070 .w8 e = (BitVec.ofNat 64 e.skey.toNat, e) ∧
      ∀ i (_ : i < 10), memRead (BitVec.ofNat 9 (0x080 + 8 * i)) .w8 e = (e.w[i], e))

/-- What a write to each operand register, state word and CTRL (with SRST 0) stores while no command is pending, reserved
bits ignored (10_state.md R24, R27 to R29, R33, R36, R51). -/
def Obligations.RegisterWritesStoreTheirFields : Prop :=
  ∀ (e : Engine) (v : Word), e.pend = none →
    memWrite 0x020 .w8 v e = { e with key := BitVec.ofNat 32 v.toNat } ∧
    memWrite 0x028 .w8 v e = { e with len := BitVec.ofNat 32 v.toNat } ∧
    memWrite 0x030 .w8 v e = { e with arg := BitVec.ofNat 32 v.toNat } ∧
    memWrite 0x060 .w8 v e = { e with schedAddr := BitVec.ofNat 16 v.toNat } ∧
    (∀ i (_ : i < 10), memWrite (BitVec.ofNat 9 (0x080 + 8 * i)) .w8 v e = { e with w := e.w.set i v }) ∧
    (v.getLsbD 31 = false → memWrite 0x008 .w8 v e = { e with ieDone := v.getLsbD 0, ieErr := v.getLsbD 1 })

/-- 20_memory.md R74, R75 and 60_exceptions.md R186: a read of SCHED_DATA while no command is pending returns the entry
SCHED_ADDR names and changes nothing; with no schedule, or where SCHED_ADDR names no entry, it returns 0 and raises.
That all 64 bits of a PMASK entry are returned, as R74 and R75 say and against the "16 used" of 10_state.md R22, is the
model's choice (log entry 20). -/
def Obligations.SchedDataReadsTheIndexSpace : Prop :=
  ∀ e : Engine, e.pend = none →
    (e.store = none → memRead 0x068 .w8 e = (0, e.raise .noSchedule (infoWord 0x068 8 0))) ∧
    ∀ sch, e.store = some sch →
      (∀ v, EntryAt sch e.schedAddr.toNat v → memRead 0x068 .w8 e = (v, e)) ∧
      ((∀ v, ¬ EntryAt sch e.schedAddr.toNat v) →
        memRead 0x068 .w8 e = (0, e.raise .schedRange (infoWord 0x068 8 0)))

/-- 20_memory.md R64, R66 in BUF: while no command is pending, an access of n bytes at an aligned offset that ends inside
BUF transfers the little-endian value of BUF[offset - 0x100 ..], and any other access that starts in BUF raises ACCESS. -/
def Obligations.BufAccessIsLittleEndianAndNeverSplit : Prop :=
  ∀ (off : BitVec 9) (n : Width) (v : Word) (e : Engine), e.pend = none → Memory.wf e.buf = true →
    0x100 ≤ off.toNat → off.toNat ≤ 0x163 →
    (off.toNat % n.bytes = 0 → off.toNat + n.bytes - 1 ≤ 0x163 →
      (memRead off n e).2 = e ∧
      ((memRead off n e).1).toNat =
        ∑ b ∈ Finset.range n.bytes, (e.bufByte (off.toNat - 0x100 + b)).toNat * 2 ^ (8 * b) ∧
      ∃ m : Memory, memWrite off n v e = { e with buf := m } ∧ Memory.wf m = true ∧
        (∀ b, b < n.bytes → Memory.read m (off.toNat + b) = BitVec.ofNat 8 (v.toNat / 2 ^ (8 * b))) ∧
        ∀ a, a < off.toNat ∨ off.toNat + n.bytes ≤ a → Memory.read m a = Memory.read e.buf a) ∧
    (off.toNat % n.bytes ≠ 0 ∨ 0x163 < off.toNat + n.bytes - 1 →
      memRead off n e = (0, e.raise .access (infoWord off.toNat n.bytes 0)) ∧
      memWrite off n v e = e.raise .access (infoWord off.toNat n.bytes 1))

/-- 60_exceptions.md R193: a write to STATUS clears ERR and its whole record where bit 2 is set and DONE where bit 1 is,
and changes nothing else; each drops its source of irq. -/
def Obligations.StatusWriteClearsWhatItNames : Prop :=
  ∀ (e : Engine) (v : Word),
    memWrite 0x010 .w8 v e =
      { e with err := if v.getLsbD 2 then none else e.err, done := e.done && !v.getLsbD 1 } ∧
    (v.getLsbD 2 = true → memRead 0x038 .w8 (memWrite 0x010 .w8 v e) = (0, memWrite 0x010 .w8 v e) ∧
      (memWrite 0x010 .w8 v e).irq = (e.done && !v.getLsbD 1 && e.ieDone)) ∧
    (v.getLsbD 1 = true → (memWrite 0x010 .w8 v e).irq = (e.err.isSome && !v.getLsbD 2 && e.ieErr))

/-- 10_state.md R48: irq from the bits of STATUS and CTRL as a host reads them; its reset value is 0. -/
def Obligations.IrqFollowsStatusAndCtrl : Prop :=
  State.reset.eng.irq = false ∧ ∀ e : Engine, e.irq =
    (((memRead 0x010 .w8 e).1).getLsbD 1 && ((memRead 0x008 .w8 e).1).getLsbD 0 ||
     ((memRead 0x010 .w8 e).1).getLsbD 2 && ((memRead 0x008 .w8 e).1).getLsbD 1)

/-! ### Reset -/

/-- 70_reset_and_hazards.md R207: what reset leaves, as the host reads it, and PEND and irq. -/
def Obligations.ResetValuesAreThePrintedOnes : Prop :=
  ∀ e : Engine, e = State.reset.eng →
    (memRead 0x000 .w8 e).1 = 0x50130A0606060A54 ∧
    (∀ off ∈ [0x008, 0x010, 0x018, 0x020, 0x028, 0x030, 0x038, 0x040, 0x048, 0x058, 0x060, 0x070],
      memRead off .w8 e = (0, e)) ∧
    memRead 0x050 .w8 e = (1, e) ∧
    (∀ i, i < 10 → memRead (BitVec.ofNat 9 (0x080 + 8 * i)) .w8 e = (0, e)) ∧
    (∀ k, k < 100 → memRead (BitVec.ofNat 9 (0x100 + k)) .w1 e = (0, e)) ∧
    e.pend = none ∧ e.irq = false

/-- 70_reset_and_hazards.md R208: a write to CTRL with bit 31 set is the whole reset in every state of the engine, busy or
not; CTRL then reads 0. With bit 31 clear it stores the two enables and nothing else. -/
def Obligations.SoftResetIsTheWholeReset : Prop :=
  ∀ (e : Engine) (v : Word),
    (v.getLsbD 31 = true → memWrite 0x008 .w8 v e = State.reset.eng ∧
      (memRead 0x008 .w8 (memWrite 0x008 .w8 v e)).1 = 0) ∧
    (v.getLsbD 31 = false → memWrite 0x008 .w8 v e = { e with ieDone := v.getLsbD 0, ieErr := v.getLsbD 1 })

/-- `rst` (70_reset_and_hazards.md R206, R207) and CTRL.SRST (R208), each on an idle and on a busy engine: the engine is the
reset one, and the host goes on with its program. A pending command is abandoned (R209): it has no effect, DONE is 0, and a
later turn of the engine changes nothing. That resets are turns, that rst leaves the host alone and that an idle engine's turn
is a step are the model's own (log entries 1, 11 and 13). -/
def Obligations.ResetAbandonsThePendingCommand : Prop :=
  ∀ (s t : State) (ts : List Turn) (v : Word),
    ((s.turns = .rst :: ts ∧ t = { s with eng := State.reset.eng, turns := ts }) ∨
     (s.turns = .host :: ts ∧ s.host.program[s.host.pos]? = some (.wr .w8 0x008 v) ∧ v.getLsbD 31 = true ∧
      t = { s with eng := State.reset.eng, turns := ts, host := { s.host with pos := s.host.pos + 1 } })) →
    step s = .next t ∧ t.eng.done = false ∧ t.eng.pend = none ∧
    ∀ us, ts = .engine :: us → step t = .next { t with turns := us }

/-! ### The machine's steps -/

/-- The engine's turn runs the command it decodes from PEND (20_memory.md R79); so does the turn that the model takes by
default while the engine is busy and no turn is set (the model's choice, log entry 1). -/
def Obligations.EngineTurnRunsThePendingCommand : Prop :=
  ∀ (s : State) (w : CmdWord) (i : Instr), s.eng.pend = some w → decode w = .ok i →
    (∀ ts, s.turns = .engine :: ts → step s = exec i { s with turns := ts }) ∧
    (s.turns = [] → step s = exec i s)

/-- The host's turn performs the next statement of the host program (30_encoding.md R99): an access takes effect in that
step, a read sets its variable and no other, a branch goes to its label (the first of its name, log entry 9) or on, a halted
or finished program waits (log entry 18); turns are the model's own (log entry 1). -/
def Obligations.HostTurnRunsTheNextStatement : Prop :=
  ∀ (s s' : State) (ts : List Turn), s.turns = .host :: ts → s' = { s with turns := ts } →
    Cells.wf s.host.vars = true →
    (∀ n off v, s.host.program[s.host.pos]? = some (.wr n off v) →
      step s = .next { s' with eng := memWrite off n v s.eng, host := { s.host with pos := s.host.pos + 1 } }) ∧
    (∀ n x off, s.host.program[s.host.pos]? = some (.rd n x off) →
      ∃ vars, step s = .next { s' with
          eng := (memRead off n s.eng).2, host := { s.host with pos := s.host.pos + 1, vars := vars } } ∧
        Cells.read vars x = (memRead off n s.eng).1 ∧ Cells.wf vars = true ∧
        ∀ y, y ≠ x → Cells.read vars y = Cells.read s.host.vars y) ∧
    (∀ x mask l, s.host.program[s.host.pos]? = some (.bnz x mask l) →
      (Cells.read s.host.vars x &&& mask = 0 →
        step s = .next { s' with host := { s.host with pos := s.host.pos + 1 } }) ∧
      ∀ p, Cells.read s.host.vars x &&& mask ≠ 0 → s.host.program[p]? = some (.label l) →
        (∀ q, q < p → s.host.program[q]? ≠ some (.label l)) →
        step s = .next { s' with host := { s.host with pos := p } }) ∧
    (∀ l, s.host.program[s.host.pos]? = some (.label l) →
      step s = .next { s' with host := { s.host with pos := s.host.pos + 1 } }) ∧
    (s.host.program[s.host.pos]? = some .halt ∨ s.host.program[s.host.pos]? = none → step s = .next s')

/-- A command that the host writes to CMD on an idle engine and acceptance lets through is run by the engine's next turn
(60_exceptions.md R176, 20_memory.md R78, R79; the order of the turns is the model's own, log entry 1). -/
def Obligations.CommandRunsAfterItsCmdWrite : Prop :=
  ∀ (s : State) (i : Instr) (ts : List Turn), i.wellFormed = true → s.eng.pend = none →
    commandError i s.eng = none → s.turns = .host :: .engine :: ts →
    s.host.program[s.host.pos]? = some (.wr .w8 0x018 (BitVec.ofNat 64 (encode i).toNat)) →
    ∃ t, Host.Core.run core 2 s = .next t ∧
      exec i { s with
        turns := ts, host := { s.host with pos := s.host.pos + 1 }
        eng := { s.eng with lastcmd := encode i, pend := some (encode i), done := false } } = .next t

/-- A pending command does not stay pending (00_scope.md R14, 20_memory.md R79): at most one step after the turns that
are set have been taken, it has completed, with DONE set, or a reset has abandoned it and left the reset engine. The bound
rests on the default turn, the model's choice of log entry 1. -/
def Obligations.PendingCommandIsEventuallyCompleted : Prop :=
  ∀ s : State, s.Inv → s.eng.pend.isSome = true → labelsOk s.host.program = true →
    ∃ k t, k ≤ s.turns.length + 1 ∧ Host.Core.run core k s = .next t ∧ t.eng.pend = none ∧
      (t.eng.done = true ∨ t.eng = Engine.reset)

/-- Every step keeps the invariants: a pending command is the last accepted one, legal, and let through by the operands it
was accepted with; BUF keeps its canonical form; the store satisfies the schedule invariants; INVARIANT is never recorded. No
step changes the machine's parameters (00_scope.md R12, R13). -/
def Obligations.StepKeepsTheInvariants : Prop :=
  ∀ s t : State, step s = .next t → (s.Inv → t.Inv) ∧ t.params = s.params

/-- The invariants hold right after reset (the host's reset values, no program and no variables, are the model's choice, log
entry 9). -/
def Obligations.ResetHasTheInvariants : Prop := State.reset.Inv

/-- No step is ever refused, whatever the program; a step faults only at a branch of the host's program to a label that the
program does not have; and a host program whose branches all have a target never stops the machine: no command and no access
does (60_exceptions.md R192). That a missing label stops it is the model's choice (log entry 9). -/
def Obligations.NoCommandOrAccessStopsTheMachine : Prop :=
  (∀ (s : State) (r : Refusal), step s ≠ .refused r) ∧
  (∀ (s : State) (f : Fault), step s = .fault f →
    ∃ x mask l, s.host.program[s.host.pos]? = some (.bnz x mask l) ∧ f = .noSuchLabel l ∧
      ∀ p : Nat, s.host.program[p]? ≠ some (.label l)) ∧
  ∀ s : State, labelsOk s.host.program = true → SafeRun s

/-- 10_state.md R46, and R38 for the contents: STATUS.SV is 0 after a reset and 1 after the completion of a BUILD; the
store, and so STATUS.SV, changes in no other step. -/
def Obligations.OnlyBuildAndResetTouchTheStore : Prop :=
  State.reset.eng.sv = false ∧ (∀ s : State, ∃ t, exec .build s = .next t ∧ t.eng.sv = true) ∧
  ∀ s t : State, step s = .next t → t.eng.store ≠ s.eng.store →
    t.eng = Engine.reset ∨
    (t.eng.sv = true ∧ ∃ w, s.eng.pend = some w ∧ decode w = .ok .build ∧ t.eng.pend = none ∧ t.eng.done = true ∧
      t.eng.skey = s.eng.key)
end

