-- ==== Sys2Proof/Laws/Bus.lean ====
section
/-! SUPPORT. Everything a host access can do (spec/20_memory.md R62 to R75), said once for reads and once for writes. -/

namespace Sys2Proof.Machine

/-- With no error recorded, raising one records it (60_exceptions.md R180). -/
theorem Engine.raise_of_none {e : Engine} (h : e.err = none) (c : ErrCode) (info : BitVec 32) :
    e.raise c info = { e with err := some { code := c, ovf := false, info := info } } := by
  simp only [Engine.raise, h]

/-- With an error recorded, raising another only sets OVF (60_exceptions.md R194). -/
theorem Engine.raise_of_some {e : Engine} {r : ErrRecord} (h : e.err = some r) (c : ErrCode) (info : BitVec 32) :
    e.raise c info = { e with err := some { r with ovf := true } } := by
  simp only [Engine.raise, h]

/-- A read of SCHED_DATA raises one error or changes nothing (20_memory.md R75). -/
theorem readSchedule_engine (info : BitVec 32) (e : Engine) :
    (readSchedule info e).2 = e ∨ (readSchedule info e).2 = e.raise .noSchedule info ∨
      (readSchedule info e).2 = e.raise .schedRange info := by
  unfold readSchedule
  split
  · exact .inr (.inl rfl)
  · split
    · exact .inr (.inr rfl)
    · exact .inl rfl

/-- A legal register read changes the engine only where SCHED_DATA raises an error (20_memory.md R68). -/
theorem readReg_engine (r : Reg) (info : BitVec 32) (e : Engine) :
    (readReg r info e).2 = e ∨ (readReg r info e).2 = e.raise .noSchedule info ∨
      (readReg r info e).2 = e.raise .schedRange info := by
  cases r <;> first | exact .inl rfl | exact readSchedule_engine info e

/-- CTRL is reached at its own offset with width 8 only (20_memory.md R63). -/
theorem accessTarget_ctrl {off : BitVec 9} {n : Width} (h : accessTarget off n = some (.reg .ctrl)) :
    off = 0x008 ∧ n = .w8 := by
  revert off
  cases n <;> decide

/-- A read of a register that the busy gating lets through (20_memory.md R68, R70). -/
theorem memRead_reg {off : BitVec 9} {n : Width} {r : Reg} {e : Engine} (h : accessTarget off n = some (.reg r))
    (hb : e.busy = false ∨ r.cls ≠ .engineOwned) : memRead off n e = readReg r (accessInfo off n false) e := by
  have hg : (e.busy && (Target.reg r).readGated) = false := by
    rcases hb with hb | hb <;> simp [Target.readGated, hb]
  simp only [memRead, h, hg]
  rfl

/-- A read of BUF while no command is pending (20_memory.md R64). -/
theorem memRead_buf {off : BitVec 9} {n : Width} {e : Engine} (h : accessTarget off n = some .buf) (hb : e.busy = false) :
    memRead off n e = (Memory.loadLE e.buf off.toNat n.bytes, e) := by
  simp [memRead, h, hb]

/-- An illegal read (60_exceptions.md R184). -/
theorem memRead_illegal {off : BitVec 9} {n : Width} (e : Engine) (h : accessTarget off n = none) :
    memRead off n e = (0, e.raise .access (accessInfo off n false)) := by
  simp only [memRead, h]

/-- A read the busy gating refuses (60_exceptions.md R185). -/
theorem memRead_gated {off : BitVec 9} {n : Width} {t : Target} {e : Engine} (h : accessTarget off n = some t)
    (hb : e.busy = true) (hg : t.readGated = true) :
    memRead off n e = (0, e.raise .accessBusy (accessInfo off n false)) := by
  simp [memRead, h, hb, hg]

/-- A write to a register that is legal and that the busy gating lets through (20_memory.md R69, R70). -/
theorem memWrite_reg {off : BitVec 9} {n : Width} {r : Reg} {e : Engine} (v : Word) (h : accessTarget off n = some (.reg r))
    (hr : r.readOnly = false) (hb : e.busy = false ∨ r.cls = .control) : memWrite off n v e = writeReg r v e := by
  have hg : (e.busy && (Target.reg r).writeGated) = false := by
    rcases hb with hb | hb <;> simp [Target.writeGated, hb]
  simp only [memWrite, h, Target.readOnly, hr, hg]
  rfl

/-- A write to BUF while no command is pending (20_memory.md R64). -/
theorem memWrite_buf {off : BitVec 9} {n : Width} {e : Engine} (v : Word) (h : accessTarget off n = some .buf)
    (hb : e.busy = false) :
    memWrite off n v e = { e with buf := Memory.storeLE e.buf off.toNat n.bytes v } := by
  simp [memWrite, h, hb, Target.readOnly]

/-- An illegal write (60_exceptions.md R184 (a) to (c)). -/
theorem memWrite_illegal {off : BitVec 9} {n : Width} (v : Word) (e : Engine) (h : accessTarget off n = none) :
    memWrite off n v e = e.raise .access (accessInfo off n true) := by
  simp only [memWrite, h]

/-- A write to a read-only register (60_exceptions.md R184 (d)). -/
theorem memWrite_readOnly {off : BitVec 9} {n : Width} {r : Reg} (v : Word) (e : Engine)
    (h : accessTarget off n = some (.reg r)) (hr : r.readOnly = true) :
    memWrite off n v e = e.raise .access (accessInfo off n true) := by
  simp [memWrite, h, Target.readOnly, hr]

/-- A write the busy gating refuses (60_exceptions.md R185). -/
theorem memWrite_gated {off : BitVec 9} {n : Width} {t : Target} {e : Engine} (v : Word) (h : accessTarget off n = some t)
    (hr : t.readOnly = false) (hb : e.busy = true) (hg : t.writeGated = true) :
    memWrite off n v e = e.raise .accessBusy (accessInfo off n true) := by
  simp [memWrite, h, hr, hb, hg]

/-- Everything a host read can do to the engine: nothing, or one error that is not INVARIANT. -/
theorem memRead_engine (off : BitVec 9) (n : Width) (e : Engine) :
    (memRead off n e).2 = e ∨ ∃ x, x ≠ .invariant ∧ (memRead off n e).2 = e.raise x (accessInfo off n false) := by
  unfold memRead
  split
  · exact .inr ⟨.access, by decide, rfl⟩
  · split
    · exact .inr ⟨.accessBusy, by decide, rfl⟩
    · split
      · rcases readReg_engine _ (accessInfo off n false) e with h | h | h
        · exact .inl h
        · exact .inr ⟨.noSchedule, by decide, h⟩
        · exact .inr ⟨.schedRange, by decide, h⟩
      · exact .inl rfl

/-- Everything a host write can do to the engine: one error that is not INVARIANT; a write to a register that is not
read-only, of class control while a command is pending; or a store into an idle engine's BUF. -/
theorem memWrite_cases (off : BitVec 9) (n : Width) (v : Word) (e : Engine) :
    (∃ x, x ≠ .invariant ∧ memWrite off n v e = e.raise x (accessInfo off n true)) ∨
    (∃ r, r.readOnly = false ∧ (e.busy = true → r.cls = .control) ∧ accessTarget off n = some (.reg r) ∧
      memWrite off n v e = writeReg r v e) ∨
    (e.busy = false ∧ accessTarget off n = some .buf ∧
      memWrite off n v e = { e with buf := Memory.storeLE e.buf off.toNat n.bytes v }) := by
  unfold memWrite
  split
  · exact .inl ⟨.access, by decide, rfl⟩
  · rename_i t ht
    split
    · exact .inl ⟨.access, by decide, rfl⟩
    · rename_i hro
      split
      · exact .inl ⟨.accessBusy, by decide, rfl⟩
      · rename_i hg
        cases t with
        | reg r =>
          refine .inr (.inl ⟨r, by simpa [Target.readOnly] using hro, fun hb => ?_, ht, rfl⟩)
          simpa [Target.writeGated, hb] using hg
        | buf =>
          refine .inr (.inr ⟨?_, ht, rfl⟩)
          simpa [Target.writeGated] using hg

/-- A legal access to BUF lies inside it (20_memory.md R64). -/
theorem accessTarget_buf {off : BitVec 9} {n : Width} (h : accessTarget off n = some .buf) :
    0x100 ≤ off.toNat ∧ off.toNat + n.bytes ≤ 0x164 ∧ off.toNat % n.bytes = 0 := by
  simp only [accessTarget] at h
  split at h
  · split at h
    · cases hl : regMap.lookup off.toNat <;> simp [hl] at h
    · simp at h
  · split at h
    · omega
    · simp at h

/-- What presenting a command word does (60_exceptions.md R176). -/
theorem present_cases (e : Engine) (w : CmdWord) :
    (∃ x, x ≠ .invariant ∧ e.present w = e.raise x w) ∨
    (e.busy = false ∧ ∃ i, decode w = .ok i ∧ commandError i e = none ∧ e.present w = e.accept w) := by
  unfold Engine.present
  split
  · exact .inl ⟨.cmdBusy, by decide, rfl⟩
  · rename_i hb
    split
    · exact .inl ⟨.illegalCmd, by decide, rfl⟩
    · rename_i i hi
      split
      · rename_i x hx
        refine .inl ⟨x, ?_, rfl⟩
        unfold commandError at hx
        split at hx
        · cases hx; decide
        · split at hx
          · cases hx; decide
          · split at hx
            · cases hx; decide
            · cases hx
      · rename_i hx
        exact .inr ⟨by simpa using hb, i, hi, hx, rfl⟩

end Sys2Proof.Machine
end

