-- ==== Sys2Proof/Laws/State.lean ====
section
/-! SUPPORT. What each named update of the engine does to each field, one lemma per field, so that no later proof
unfolds a record update. -/

namespace Sys2Proof.Machine

variable (e : Engine)

/-! ### Engine.accept -/

@[simp] theorem Engine.accept_ieDone (cw : CmdWord) : (e.accept cw).ieDone = e.ieDone := rfl
@[simp] theorem Engine.accept_ieErr (cw : CmdWord) : (e.accept cw).ieErr = e.ieErr := rfl
@[simp] theorem Engine.accept_done (cw : CmdWord) : (e.accept cw).done = false := rfl
@[simp] theorem Engine.accept_err (cw : CmdWord) : (e.accept cw).err = e.err := rfl
@[simp] theorem Engine.accept_lastcmd (cw : CmdWord) : (e.accept cw).lastcmd = cw := rfl
@[simp] theorem Engine.accept_pend (cw : CmdWord) : (e.accept cw).pend = some cw := rfl
@[simp] theorem Engine.accept_key (cw : CmdWord) : (e.accept cw).key = e.key := rfl
@[simp] theorem Engine.accept_len (cw : CmdWord) : (e.accept cw).len = e.len := rfl
@[simp] theorem Engine.accept_arg (cw : CmdWord) : (e.accept cw).arg = e.arg := rfl
@[simp] theorem Engine.accept_prngOut (cw : CmdWord) : (e.accept cw).prngOut = e.prngOut := rfl
@[simp] theorem Engine.accept_prng (cw : CmdWord) : (e.accept cw).prng = e.prng := rfl
@[simp] theorem Engine.accept_schedAddr (cw : CmdWord) : (e.accept cw).schedAddr = e.schedAddr := rfl
@[simp] theorem Engine.accept_skey (cw : CmdWord) : (e.accept cw).skey = e.skey := rfl
@[simp] theorem Engine.accept_store (cw : CmdWord) : (e.accept cw).store = e.store := rfl
@[simp] theorem Engine.accept_w (cw : CmdWord) : (e.accept cw).w = e.w := rfl
@[simp] theorem Engine.accept_buf (cw : CmdWord) : (e.accept cw).buf = e.buf := rfl

/-! ### Engine.complete -/

@[simp] theorem Engine.complete_ieDone : (e.complete).ieDone = e.ieDone := rfl
@[simp] theorem Engine.complete_ieErr : (e.complete).ieErr = e.ieErr := rfl
@[simp] theorem Engine.complete_done : (e.complete).done = true := rfl
@[simp] theorem Engine.complete_err : (e.complete).err = e.err := rfl
@[simp] theorem Engine.complete_lastcmd : (e.complete).lastcmd = e.lastcmd := rfl
@[simp] theorem Engine.complete_pend : (e.complete).pend = none := rfl
@[simp] theorem Engine.complete_key : (e.complete).key = e.key := rfl
@[simp] theorem Engine.complete_len : (e.complete).len = e.len := rfl
@[simp] theorem Engine.complete_arg : (e.complete).arg = e.arg := rfl
@[simp] theorem Engine.complete_prngOut : (e.complete).prngOut = e.prngOut := rfl
@[simp] theorem Engine.complete_prng : (e.complete).prng = e.prng := rfl
@[simp] theorem Engine.complete_schedAddr : (e.complete).schedAddr = e.schedAddr := rfl
@[simp] theorem Engine.complete_skey : (e.complete).skey = e.skey := rfl
@[simp] theorem Engine.complete_store : (e.complete).store = e.store := rfl
@[simp] theorem Engine.complete_w : (e.complete).w = e.w := rfl
@[simp] theorem Engine.complete_buf : (e.complete).buf = e.buf := rfl

/-! ### Engine.clearDone -/

@[simp] theorem Engine.clearDone_ieDone : (e.clearDone).ieDone = e.ieDone := rfl
@[simp] theorem Engine.clearDone_ieErr : (e.clearDone).ieErr = e.ieErr := rfl
@[simp] theorem Engine.clearDone_done : (e.clearDone).done = false := rfl
@[simp] theorem Engine.clearDone_err : (e.clearDone).err = e.err := rfl
@[simp] theorem Engine.clearDone_lastcmd : (e.clearDone).lastcmd = e.lastcmd := rfl
@[simp] theorem Engine.clearDone_pend : (e.clearDone).pend = e.pend := rfl
@[simp] theorem Engine.clearDone_key : (e.clearDone).key = e.key := rfl
@[simp] theorem Engine.clearDone_len : (e.clearDone).len = e.len := rfl
@[simp] theorem Engine.clearDone_arg : (e.clearDone).arg = e.arg := rfl
@[simp] theorem Engine.clearDone_prngOut : (e.clearDone).prngOut = e.prngOut := rfl
@[simp] theorem Engine.clearDone_prng : (e.clearDone).prng = e.prng := rfl
@[simp] theorem Engine.clearDone_schedAddr : (e.clearDone).schedAddr = e.schedAddr := rfl
@[simp] theorem Engine.clearDone_skey : (e.clearDone).skey = e.skey := rfl
@[simp] theorem Engine.clearDone_store : (e.clearDone).store = e.store := rfl
@[simp] theorem Engine.clearDone_w : (e.clearDone).w = e.w := rfl
@[simp] theorem Engine.clearDone_buf : (e.clearDone).buf = e.buf := rfl

/-! ### Engine.clearErr -/

@[simp] theorem Engine.clearErr_ieDone : (e.clearErr).ieDone = e.ieDone := rfl
@[simp] theorem Engine.clearErr_ieErr : (e.clearErr).ieErr = e.ieErr := rfl
@[simp] theorem Engine.clearErr_done : (e.clearErr).done = e.done := rfl
@[simp] theorem Engine.clearErr_err : (e.clearErr).err = none := rfl
@[simp] theorem Engine.clearErr_lastcmd : (e.clearErr).lastcmd = e.lastcmd := rfl
@[simp] theorem Engine.clearErr_pend : (e.clearErr).pend = e.pend := rfl
@[simp] theorem Engine.clearErr_key : (e.clearErr).key = e.key := rfl
@[simp] theorem Engine.clearErr_len : (e.clearErr).len = e.len := rfl
@[simp] theorem Engine.clearErr_arg : (e.clearErr).arg = e.arg := rfl
@[simp] theorem Engine.clearErr_prngOut : (e.clearErr).prngOut = e.prngOut := rfl
@[simp] theorem Engine.clearErr_prng : (e.clearErr).prng = e.prng := rfl
@[simp] theorem Engine.clearErr_schedAddr : (e.clearErr).schedAddr = e.schedAddr := rfl
@[simp] theorem Engine.clearErr_skey : (e.clearErr).skey = e.skey := rfl
@[simp] theorem Engine.clearErr_store : (e.clearErr).store = e.store := rfl
@[simp] theorem Engine.clearErr_w : (e.clearErr).w = e.w := rfl
@[simp] theorem Engine.clearErr_buf : (e.clearErr).buf = e.buf := rfl

/-! ### Engine.mapWords -/

@[simp] theorem Engine.mapWords_ieDone (f : Words → Words) : (e.mapWords f).ieDone = e.ieDone := rfl
@[simp] theorem Engine.mapWords_ieErr (f : Words → Words) : (e.mapWords f).ieErr = e.ieErr := rfl
@[simp] theorem Engine.mapWords_done (f : Words → Words) : (e.mapWords f).done = e.done := rfl
@[simp] theorem Engine.mapWords_err (f : Words → Words) : (e.mapWords f).err = e.err := rfl
@[simp] theorem Engine.mapWords_lastcmd (f : Words → Words) : (e.mapWords f).lastcmd = e.lastcmd := rfl
@[simp] theorem Engine.mapWords_pend (f : Words → Words) : (e.mapWords f).pend = e.pend := rfl
@[simp] theorem Engine.mapWords_key (f : Words → Words) : (e.mapWords f).key = e.key := rfl
@[simp] theorem Engine.mapWords_len (f : Words → Words) : (e.mapWords f).len = e.len := rfl
@[simp] theorem Engine.mapWords_arg (f : Words → Words) : (e.mapWords f).arg = e.arg := rfl
@[simp] theorem Engine.mapWords_prngOut (f : Words → Words) : (e.mapWords f).prngOut = e.prngOut := rfl
@[simp] theorem Engine.mapWords_prng (f : Words → Words) : (e.mapWords f).prng = e.prng := rfl
@[simp] theorem Engine.mapWords_schedAddr (f : Words → Words) : (e.mapWords f).schedAddr = e.schedAddr := rfl
@[simp] theorem Engine.mapWords_skey (f : Words → Words) : (e.mapWords f).skey = e.skey := rfl
@[simp] theorem Engine.mapWords_store (f : Words → Words) : (e.mapWords f).store = e.store := rfl
@[simp] theorem Engine.mapWords_w (f : Words → Words) : (e.mapWords f).w = f e.w := rfl
@[simp] theorem Engine.mapWords_buf (f : Words → Words) : (e.mapWords f).buf = e.buf := rfl

/-! ### Engine.seedPrng -/

@[simp] theorem Engine.seedPrng_ieDone : (e.seedPrng).ieDone = e.ieDone := rfl
@[simp] theorem Engine.seedPrng_ieErr : (e.seedPrng).ieErr = e.ieErr := rfl
@[simp] theorem Engine.seedPrng_done : (e.seedPrng).done = e.done := rfl
@[simp] theorem Engine.seedPrng_err : (e.seedPrng).err = e.err := rfl
@[simp] theorem Engine.seedPrng_lastcmd : (e.seedPrng).lastcmd = e.lastcmd := rfl
@[simp] theorem Engine.seedPrng_pend : (e.seedPrng).pend = e.pend := rfl
@[simp] theorem Engine.seedPrng_key : (e.seedPrng).key = e.key := rfl
@[simp] theorem Engine.seedPrng_len : (e.seedPrng).len = e.len := rfl
@[simp] theorem Engine.seedPrng_arg : (e.seedPrng).arg = e.arg := rfl
@[simp] theorem Engine.seedPrng_prngOut : (e.seedPrng).prngOut = e.prngOut := rfl
@[simp] theorem Engine.seedPrng_prng : (e.seedPrng).prng = Prng.seed e.key := rfl
@[simp] theorem Engine.seedPrng_schedAddr : (e.seedPrng).schedAddr = e.schedAddr := rfl
@[simp] theorem Engine.seedPrng_skey : (e.seedPrng).skey = e.skey := rfl
@[simp] theorem Engine.seedPrng_store : (e.seedPrng).store = e.store := rfl
@[simp] theorem Engine.seedPrng_w : (e.seedPrng).w = e.w := rfl
@[simp] theorem Engine.seedPrng_buf : (e.seedPrng).buf = e.buf := rfl

/-! ### Engine.drawNext32 -/

@[simp] theorem Engine.drawNext32_ieDone (P : PrngParams) : (e.drawNext32 P).ieDone = e.ieDone := rfl
@[simp] theorem Engine.drawNext32_ieErr (P : PrngParams) : (e.drawNext32 P).ieErr = e.ieErr := rfl
@[simp] theorem Engine.drawNext32_done (P : PrngParams) : (e.drawNext32 P).done = e.done := rfl
@[simp] theorem Engine.drawNext32_err (P : PrngParams) : (e.drawNext32 P).err = e.err := rfl
@[simp] theorem Engine.drawNext32_lastcmd (P : PrngParams) : (e.drawNext32 P).lastcmd = e.lastcmd := rfl
@[simp] theorem Engine.drawNext32_pend (P : PrngParams) : (e.drawNext32 P).pend = e.pend := rfl
@[simp] theorem Engine.drawNext32_key (P : PrngParams) : (e.drawNext32 P).key = e.key := rfl
@[simp] theorem Engine.drawNext32_len (P : PrngParams) : (e.drawNext32 P).len = e.len := rfl
@[simp] theorem Engine.drawNext32_arg (P : PrngParams) : (e.drawNext32 P).arg = e.arg := rfl
@[simp] theorem Engine.drawNext32_prngOut (P : PrngParams) : (e.drawNext32 P).prngOut = (e.prng.next32 P).1.setWidth 64 := rfl
@[simp] theorem Engine.drawNext32_prng (P : PrngParams) : (e.drawNext32 P).prng = (e.prng.next32 P).2 := rfl
@[simp] theorem Engine.drawNext32_schedAddr (P : PrngParams) : (e.drawNext32 P).schedAddr = e.schedAddr := rfl
@[simp] theorem Engine.drawNext32_skey (P : PrngParams) : (e.drawNext32 P).skey = e.skey := rfl
@[simp] theorem Engine.drawNext32_store (P : PrngParams) : (e.drawNext32 P).store = e.store := rfl
@[simp] theorem Engine.drawNext32_w (P : PrngParams) : (e.drawNext32 P).w = e.w := rfl
@[simp] theorem Engine.drawNext32_buf (P : PrngParams) : (e.drawNext32 P).buf = e.buf := rfl

/-! ### Engine.drawNext64 -/

@[simp] theorem Engine.drawNext64_ieDone (P : PrngParams) : (e.drawNext64 P).ieDone = e.ieDone := rfl
@[simp] theorem Engine.drawNext64_ieErr (P : PrngParams) : (e.drawNext64 P).ieErr = e.ieErr := rfl
@[simp] theorem Engine.drawNext64_done (P : PrngParams) : (e.drawNext64 P).done = e.done := rfl
@[simp] theorem Engine.drawNext64_err (P : PrngParams) : (e.drawNext64 P).err = e.err := rfl
@[simp] theorem Engine.drawNext64_lastcmd (P : PrngParams) : (e.drawNext64 P).lastcmd = e.lastcmd := rfl
@[simp] theorem Engine.drawNext64_pend (P : PrngParams) : (e.drawNext64 P).pend = e.pend := rfl
@[simp] theorem Engine.drawNext64_key (P : PrngParams) : (e.drawNext64 P).key = e.key := rfl
@[simp] theorem Engine.drawNext64_len (P : PrngParams) : (e.drawNext64 P).len = e.len := rfl
@[simp] theorem Engine.drawNext64_arg (P : PrngParams) : (e.drawNext64 P).arg = e.arg := rfl
@[simp] theorem Engine.drawNext64_prngOut (P : PrngParams) : (e.drawNext64 P).prngOut = (e.prng.next64 P).1 := rfl
@[simp] theorem Engine.drawNext64_prng (P : PrngParams) : (e.drawNext64 P).prng = (e.prng.next64 P).2 := rfl
@[simp] theorem Engine.drawNext64_schedAddr (P : PrngParams) : (e.drawNext64 P).schedAddr = e.schedAddr := rfl
@[simp] theorem Engine.drawNext64_skey (P : PrngParams) : (e.drawNext64 P).skey = e.skey := rfl
@[simp] theorem Engine.drawNext64_store (P : PrngParams) : (e.drawNext64 P).store = e.store := rfl
@[simp] theorem Engine.drawNext64_w (P : PrngParams) : (e.drawNext64 P).w = e.w := rfl
@[simp] theorem Engine.drawNext64_buf (P : PrngParams) : (e.drawNext64 P).buf = e.buf := rfl

/-! ### Engine.drawBounded -/

@[simp] theorem Engine.drawBounded_ieDone (P : PrngParams) : (e.drawBounded P).ieDone = e.ieDone := rfl
@[simp] theorem Engine.drawBounded_ieErr (P : PrngParams) : (e.drawBounded P).ieErr = e.ieErr := rfl
@[simp] theorem Engine.drawBounded_done (P : PrngParams) : (e.drawBounded P).done = e.done := rfl
@[simp] theorem Engine.drawBounded_err (P : PrngParams) : (e.drawBounded P).err = e.err := rfl
@[simp] theorem Engine.drawBounded_lastcmd (P : PrngParams) : (e.drawBounded P).lastcmd = e.lastcmd := rfl
@[simp] theorem Engine.drawBounded_pend (P : PrngParams) : (e.drawBounded P).pend = e.pend := rfl
@[simp] theorem Engine.drawBounded_key (P : PrngParams) : (e.drawBounded P).key = e.key := rfl
@[simp] theorem Engine.drawBounded_len (P : PrngParams) : (e.drawBounded P).len = e.len := rfl
@[simp] theorem Engine.drawBounded_arg (P : PrngParams) : (e.drawBounded P).arg = e.arg := rfl
@[simp] theorem Engine.drawBounded_prngOut (P : PrngParams) : (e.drawBounded P).prngOut = (e.prng.bounded P e.arg).1.setWidth 64 := rfl
@[simp] theorem Engine.drawBounded_prng (P : PrngParams) : (e.drawBounded P).prng = (e.prng.bounded P e.arg).2 := rfl
@[simp] theorem Engine.drawBounded_schedAddr (P : PrngParams) : (e.drawBounded P).schedAddr = e.schedAddr := rfl
@[simp] theorem Engine.drawBounded_skey (P : PrngParams) : (e.drawBounded P).skey = e.skey := rfl
@[simp] theorem Engine.drawBounded_store (P : PrngParams) : (e.drawBounded P).store = e.store := rfl
@[simp] theorem Engine.drawBounded_w (P : PrngParams) : (e.drawBounded P).w = e.w := rfl
@[simp] theorem Engine.drawBounded_buf (P : PrngParams) : (e.drawBounded P).buf = e.buf := rfl

/-! ### Engine.build -/

@[simp] theorem Engine.build_ieDone (P : PrngParams) : (e.build P).ieDone = e.ieDone := rfl
@[simp] theorem Engine.build_ieErr (P : PrngParams) : (e.build P).ieErr = e.ieErr := rfl
@[simp] theorem Engine.build_done (P : PrngParams) : (e.build P).done = e.done := rfl
@[simp] theorem Engine.build_err (P : PrngParams) : (e.build P).err = e.err := rfl
@[simp] theorem Engine.build_lastcmd (P : PrngParams) : (e.build P).lastcmd = e.lastcmd := rfl
@[simp] theorem Engine.build_pend (P : PrngParams) : (e.build P).pend = e.pend := rfl
@[simp] theorem Engine.build_key (P : PrngParams) : (e.build P).key = e.key := rfl
@[simp] theorem Engine.build_len (P : PrngParams) : (e.build P).len = e.len := rfl
@[simp] theorem Engine.build_arg (P : PrngParams) : (e.build P).arg = e.arg := rfl
@[simp] theorem Engine.build_prngOut (P : PrngParams) : (e.build P).prngOut = e.prngOut := rfl
@[simp] theorem Engine.build_prng (P : PrngParams) : (e.build P).prng = (buildSchedule P e.key).2 := rfl
@[simp] theorem Engine.build_schedAddr (P : PrngParams) : (e.build P).schedAddr = e.schedAddr := rfl
@[simp] theorem Engine.build_skey (P : PrngParams) : (e.build P).skey = e.key := rfl
@[simp] theorem Engine.build_store (P : PrngParams) : (e.build P).store = some (buildSchedule P e.key).1 := rfl
@[simp] theorem Engine.build_w (P : PrngParams) : (e.build P).w = e.w := rfl
@[simp] theorem Engine.build_buf (P : PrngParams) : (e.build P).buf = e.buf := rfl

/-! ### Engine.unpack -/

@[simp] theorem Engine.unpack_ieDone : (e.unpack).ieDone = e.ieDone := rfl
@[simp] theorem Engine.unpack_ieErr : (e.unpack).ieErr = e.ieErr := rfl
@[simp] theorem Engine.unpack_done : (e.unpack).done = e.done := rfl
@[simp] theorem Engine.unpack_err : (e.unpack).err = e.err := rfl
@[simp] theorem Engine.unpack_lastcmd : (e.unpack).lastcmd = e.lastcmd := rfl
@[simp] theorem Engine.unpack_pend : (e.unpack).pend = e.pend := rfl
@[simp] theorem Engine.unpack_key : (e.unpack).key = e.key := rfl
@[simp] theorem Engine.unpack_len : (e.unpack).len = e.len := rfl
@[simp] theorem Engine.unpack_arg : (e.unpack).arg = e.arg := rfl
@[simp] theorem Engine.unpack_prngOut : (e.unpack).prngOut = e.prngOut := rfl
@[simp] theorem Engine.unpack_prng : (e.unpack).prng = e.prng := rfl
@[simp] theorem Engine.unpack_schedAddr : (e.unpack).schedAddr = e.schedAddr := rfl
@[simp] theorem Engine.unpack_skey : (e.unpack).skey = e.skey := rfl
@[simp] theorem Engine.unpack_store : (e.unpack).store = e.store := rfl
@[simp] theorem Engine.unpack_w : (e.unpack).w = unpackWords e.buf := rfl
@[simp] theorem Engine.unpack_buf : (e.unpack).buf = e.buf := rfl

/-! ### Engine.pack -/

@[simp] theorem Engine.pack_ieDone : (e.pack).ieDone = e.ieDone := rfl
@[simp] theorem Engine.pack_ieErr : (e.pack).ieErr = e.ieErr := rfl
@[simp] theorem Engine.pack_done : (e.pack).done = e.done := rfl
@[simp] theorem Engine.pack_err : (e.pack).err = e.err := rfl
@[simp] theorem Engine.pack_lastcmd : (e.pack).lastcmd = e.lastcmd := rfl
@[simp] theorem Engine.pack_pend : (e.pack).pend = e.pend := rfl
@[simp] theorem Engine.pack_key : (e.pack).key = e.key := rfl
@[simp] theorem Engine.pack_len : (e.pack).len = e.len := rfl
@[simp] theorem Engine.pack_arg : (e.pack).arg = e.arg := rfl
@[simp] theorem Engine.pack_prngOut : (e.pack).prngOut = e.prngOut := rfl
@[simp] theorem Engine.pack_prng : (e.pack).prng = e.prng := rfl
@[simp] theorem Engine.pack_schedAddr : (e.pack).schedAddr = e.schedAddr := rfl
@[simp] theorem Engine.pack_skey : (e.pack).skey = e.skey := rfl
@[simp] theorem Engine.pack_store : (e.pack).store = e.store := rfl
@[simp] theorem Engine.pack_w : (e.pack).w = e.w := rfl
@[simp] theorem Engine.pack_buf : (e.pack).buf = packWords e.buf e.w := rfl

/-! ### Engine.encrypt -/

@[simp] theorem Engine.encrypt_ieDone (sch : Schedule) : (e.encrypt sch).ieDone = e.ieDone := rfl
@[simp] theorem Engine.encrypt_ieErr (sch : Schedule) : (e.encrypt sch).ieErr = e.ieErr := rfl
@[simp] theorem Engine.encrypt_done (sch : Schedule) : (e.encrypt sch).done = e.done := rfl
@[simp] theorem Engine.encrypt_err (sch : Schedule) : (e.encrypt sch).err = e.err := rfl
@[simp] theorem Engine.encrypt_lastcmd (sch : Schedule) : (e.encrypt sch).lastcmd = e.lastcmd := rfl
@[simp] theorem Engine.encrypt_pend (sch : Schedule) : (e.encrypt sch).pend = e.pend := rfl
@[simp] theorem Engine.encrypt_key (sch : Schedule) : (e.encrypt sch).key = e.key := rfl
@[simp] theorem Engine.encrypt_len (sch : Schedule) : (e.encrypt sch).len = e.len := rfl
@[simp] theorem Engine.encrypt_arg (sch : Schedule) : (e.encrypt sch).arg = e.arg := rfl
@[simp] theorem Engine.encrypt_prngOut (sch : Schedule) : (e.encrypt sch).prngOut = e.prngOut := rfl
@[simp] theorem Engine.encrypt_prng (sch : Schedule) : (e.encrypt sch).prng = e.prng := rfl
@[simp] theorem Engine.encrypt_schedAddr (sch : Schedule) : (e.encrypt sch).schedAddr = e.schedAddr := rfl
@[simp] theorem Engine.encrypt_skey (sch : Schedule) : (e.encrypt sch).skey = e.skey := rfl
@[simp] theorem Engine.encrypt_store (sch : Schedule) : (e.encrypt sch).store = e.store := rfl
@[simp] theorem Engine.encrypt_w (sch : Schedule) : (e.encrypt sch).w = cipherWords sch e.buf := by
  simp only [Engine.encrypt]
@[simp] theorem Engine.encrypt_buf (sch : Schedule) : (e.encrypt sch).buf = packWords e.buf (cipherWords sch e.buf) := by
  simp only [Engine.encrypt]

/-! ### Engine.hash -/

@[simp] theorem Engine.hash_ieDone (final : Block → Block) (sch : Schedule) : (e.hash final sch).ieDone = e.ieDone := rfl
@[simp] theorem Engine.hash_ieErr (final : Block → Block) (sch : Schedule) : (e.hash final sch).ieErr = e.ieErr := rfl
@[simp] theorem Engine.hash_done (final : Block → Block) (sch : Schedule) : (e.hash final sch).done = e.done := rfl
@[simp] theorem Engine.hash_err (final : Block → Block) (sch : Schedule) : (e.hash final sch).err = e.err := rfl
@[simp] theorem Engine.hash_lastcmd (final : Block → Block) (sch : Schedule) : (e.hash final sch).lastcmd = e.lastcmd := rfl
@[simp] theorem Engine.hash_pend (final : Block → Block) (sch : Schedule) : (e.hash final sch).pend = e.pend := rfl
@[simp] theorem Engine.hash_key (final : Block → Block) (sch : Schedule) : (e.hash final sch).key = e.key := rfl
@[simp] theorem Engine.hash_len (final : Block → Block) (sch : Schedule) : (e.hash final sch).len = e.len := rfl
@[simp] theorem Engine.hash_arg (final : Block → Block) (sch : Schedule) : (e.hash final sch).arg = e.arg := rfl
@[simp] theorem Engine.hash_prngOut (final : Block → Block) (sch : Schedule) : (e.hash final sch).prngOut = e.prngOut := rfl
@[simp] theorem Engine.hash_prng (final : Block → Block) (sch : Schedule) : (e.hash final sch).prng = e.prng := rfl
@[simp] theorem Engine.hash_schedAddr (final : Block → Block) (sch : Schedule) : (e.hash final sch).schedAddr = e.schedAddr := rfl
@[simp] theorem Engine.hash_skey (final : Block → Block) (sch : Schedule) : (e.hash final sch).skey = e.skey := rfl
@[simp] theorem Engine.hash_store (final : Block → Block) (sch : Schedule) : (e.hash final sch).store = e.store := rfl
@[simp] theorem Engine.hash_w (final : Block → Block) (sch : Schedule) : (e.hash final sch).w = cipherWords sch (padInput e.len.toNat e.buf) := by
  simp only [Engine.hash]
@[simp] theorem Engine.hash_buf (final : Block → Block) (sch : Schedule) : (e.hash final sch).buf = finalize final (packWords (padInput e.len.toNat e.buf) (cipherWords sch (padInput e.len.toNat e.buf))) := by
  simp only [Engine.hash]

/-! ### Engine.raise and Engine.turnAway -/

/-- Taking an error changes the error record and nothing else (60_exceptions.md R180). -/
theorem Engine.raise_eq (c : ErrCode) (info : BitVec 32) :
    e.raise c info = { e with err := (e.raise c info).err } := by
  unfold Engine.raise; cases e.err <;> rfl

/-- The first error is recorded (R180). -/
theorem Engine.raise_err_none (c : ErrCode) (info : BitVec 32) (h : e.err = none) :
    (e.raise c info).err = some { code := c, ovf := false, info := info } := by
  simp [Engine.raise, h]

/-- A later error keeps the first record and sets OVF (R180, R194). -/
theorem Engine.raise_err_some (c : ErrCode) (info : BitVec 32) (r : ErrRecord) (h : e.err = some r) :
    (e.raise c info).err = some { r with ovf := true } := by
  simp [Engine.raise, h]

@[simp] theorem Engine.raise_hasErr (c : ErrCode) (info : BitVec 32) : (e.raise c info).hasErr = true := by
  unfold Engine.raise Engine.hasErr; cases e.err <;> rfl

@[simp] theorem Engine.raise_ieDone (c : ErrCode) (info : BitVec 32) : (e.raise c info).ieDone = e.ieDone := by
  rw [Engine.raise_eq]
@[simp] theorem Engine.raise_ieErr (c : ErrCode) (info : BitVec 32) : (e.raise c info).ieErr = e.ieErr := by
  rw [Engine.raise_eq]
@[simp] theorem Engine.raise_done (c : ErrCode) (info : BitVec 32) : (e.raise c info).done = e.done := by
  rw [Engine.raise_eq]
@[simp] theorem Engine.raise_lastcmd (c : ErrCode) (info : BitVec 32) : (e.raise c info).lastcmd = e.lastcmd := by
  rw [Engine.raise_eq]
@[simp] theorem Engine.raise_pend (c : ErrCode) (info : BitVec 32) : (e.raise c info).pend = e.pend := by
  rw [Engine.raise_eq]
@[simp] theorem Engine.raise_key (c : ErrCode) (info : BitVec 32) : (e.raise c info).key = e.key := by
  rw [Engine.raise_eq]
@[simp] theorem Engine.raise_len (c : ErrCode) (info : BitVec 32) : (e.raise c info).len = e.len := by
  rw [Engine.raise_eq]
@[simp] theorem Engine.raise_arg (c : ErrCode) (info : BitVec 32) : (e.raise c info).arg = e.arg := by
  rw [Engine.raise_eq]
@[simp] theorem Engine.raise_prngOut (c : ErrCode) (info : BitVec 32) : (e.raise c info).prngOut = e.prngOut := by
  rw [Engine.raise_eq]
@[simp] theorem Engine.raise_prng (c : ErrCode) (info : BitVec 32) : (e.raise c info).prng = e.prng := by
  rw [Engine.raise_eq]
@[simp] theorem Engine.raise_schedAddr (c : ErrCode) (info : BitVec 32) : (e.raise c info).schedAddr = e.schedAddr := by
  rw [Engine.raise_eq]
@[simp] theorem Engine.raise_skey (c : ErrCode) (info : BitVec 32) : (e.raise c info).skey = e.skey := by
  rw [Engine.raise_eq]
@[simp] theorem Engine.raise_store (c : ErrCode) (info : BitVec 32) : (e.raise c info).store = e.store := by
  rw [Engine.raise_eq]
@[simp] theorem Engine.raise_w (c : ErrCode) (info : BitVec 32) : (e.raise c info).w = e.w := by
  rw [Engine.raise_eq]
@[simp] theorem Engine.raise_buf (c : ErrCode) (info : BitVec 32) : (e.raise c info).buf = e.buf := by
  rw [Engine.raise_eq]

@[simp] theorem Engine.turnAway_ieDone (c : ErrCode) (cw : CmdWord) : (e.turnAway c cw).ieDone = e.ieDone := by
  simp [Engine.turnAway]
@[simp] theorem Engine.turnAway_ieErr (c : ErrCode) (cw : CmdWord) : (e.turnAway c cw).ieErr = e.ieErr := by
  simp [Engine.turnAway]
@[simp] theorem Engine.turnAway_done (c : ErrCode) (cw : CmdWord) : (e.turnAway c cw).done = e.done := by
  simp [Engine.turnAway]
@[simp] theorem Engine.turnAway_err (c : ErrCode) (cw : CmdWord) : (e.turnAway c cw).err = (e.raise c cw).err := rfl
@[simp] theorem Engine.turnAway_lastcmd (c : ErrCode) (cw : CmdWord) : (e.turnAway c cw).lastcmd = e.lastcmd := by
  simp [Engine.turnAway]
@[simp] theorem Engine.turnAway_pend (c : ErrCode) (cw : CmdWord) : (e.turnAway c cw).pend = none := rfl
@[simp] theorem Engine.turnAway_key (c : ErrCode) (cw : CmdWord) : (e.turnAway c cw).key = e.key := by
  simp [Engine.turnAway]
@[simp] theorem Engine.turnAway_len (c : ErrCode) (cw : CmdWord) : (e.turnAway c cw).len = e.len := by
  simp [Engine.turnAway]
@[simp] theorem Engine.turnAway_arg (c : ErrCode) (cw : CmdWord) : (e.turnAway c cw).arg = e.arg := by
  simp [Engine.turnAway]
@[simp] theorem Engine.turnAway_prngOut (c : ErrCode) (cw : CmdWord) : (e.turnAway c cw).prngOut = e.prngOut := by
  simp [Engine.turnAway]
@[simp] theorem Engine.turnAway_prng (c : ErrCode) (cw : CmdWord) : (e.turnAway c cw).prng = e.prng := by
  simp [Engine.turnAway]
@[simp] theorem Engine.turnAway_schedAddr (c : ErrCode) (cw : CmdWord) : (e.turnAway c cw).schedAddr = e.schedAddr := by
  simp [Engine.turnAway]
@[simp] theorem Engine.turnAway_skey (c : ErrCode) (cw : CmdWord) : (e.turnAway c cw).skey = e.skey := by
  simp [Engine.turnAway]
@[simp] theorem Engine.turnAway_store (c : ErrCode) (cw : CmdWord) : (e.turnAway c cw).store = e.store := by
  simp [Engine.turnAway]
@[simp] theorem Engine.turnAway_w (c : ErrCode) (cw : CmdWord) : (e.turnAway c cw).w = e.w := by
  simp [Engine.turnAway]
@[simp] theorem Engine.turnAway_buf (c : ErrCode) (cw : CmdWord) : (e.turnAway c cw).buf = e.buf := by
  simp [Engine.turnAway]

/-! ### Engine.check and Engine.withStore -/

@[simp] theorem Engine.check_ieDone (sch : Schedule) : (e.check sch).ieDone = e.ieDone := by
  unfold Engine.check; split <;> simp
@[simp] theorem Engine.check_ieErr (sch : Schedule) : (e.check sch).ieErr = e.ieErr := by
  unfold Engine.check; split <;> simp
@[simp] theorem Engine.check_done (sch : Schedule) : (e.check sch).done = e.done := by
  unfold Engine.check; split <;> simp
@[simp] theorem Engine.check_lastcmd (sch : Schedule) : (e.check sch).lastcmd = e.lastcmd := by
  unfold Engine.check; split <;> simp
@[simp] theorem Engine.check_pend (sch : Schedule) : (e.check sch).pend = e.pend := by
  unfold Engine.check; split <;> simp
@[simp] theorem Engine.check_key (sch : Schedule) : (e.check sch).key = e.key := by
  unfold Engine.check; split <;> simp
@[simp] theorem Engine.check_len (sch : Schedule) : (e.check sch).len = e.len := by
  unfold Engine.check; split <;> simp
@[simp] theorem Engine.check_arg (sch : Schedule) : (e.check sch).arg = e.arg := by
  unfold Engine.check; split <;> simp
@[simp] theorem Engine.check_prngOut (sch : Schedule) : (e.check sch).prngOut = e.prngOut := by
  unfold Engine.check; split <;> simp
@[simp] theorem Engine.check_prng (sch : Schedule) : (e.check sch).prng = e.prng := by
  unfold Engine.check; split <;> simp
@[simp] theorem Engine.check_schedAddr (sch : Schedule) : (e.check sch).schedAddr = e.schedAddr := by
  unfold Engine.check; split <;> simp
@[simp] theorem Engine.check_skey (sch : Schedule) : (e.check sch).skey = e.skey := by
  unfold Engine.check; split <;> simp
@[simp] theorem Engine.check_store (sch : Schedule) : (e.check sch).store = e.store := by
  unfold Engine.check; split <;> simp
@[simp] theorem Engine.check_w (sch : Schedule) : (e.check sch).w = e.w := by
  unfold Engine.check; split <;> simp
@[simp] theorem Engine.check_buf (sch : Schedule) : (e.check sch).buf = e.buf := by
  unfold Engine.check; split <;> simp

theorem Engine.check_of_ok (sch : Schedule) (h : sch.ok = true) : e.check sch = e := by
  simp [Engine.check, h]

theorem Engine.check_of_not_ok (sch : Schedule) (h : sch.ok = false) : e.check sch = e.raise .invariant 2 := by
  simp [Engine.check, h]

theorem Engine.withStore_some (f : Schedule → Engine → Engine) (sch : Schedule) (h : e.store = some sch) :
    Engine.withStore f e = f sch e := by
  simp [Engine.withStore, h]

theorem Engine.withStore_none (f : Schedule → Engine → Engine) (h : e.store = none) : Engine.withStore f e = e := by
  simp [Engine.withStore, h]

/-! ### The views of the flags -/

@[simp] theorem Engine.accept_busy (cw : CmdWord) : (e.accept cw).busy = true := rfl
@[simp] theorem Engine.complete_busy : e.complete.busy = false := rfl
@[simp] theorem Engine.turnAway_busy (c : ErrCode) (cw : CmdWord) : (e.turnAway c cw).busy = false := rfl
@[simp] theorem Engine.raise_busy (c : ErrCode) (info : BitVec 32) : (e.raise c info).busy = e.busy := by
  simp [Engine.busy]
@[simp] theorem Engine.raise_sv (c : ErrCode) (info : BitVec 32) : (e.raise c info).sv = e.sv := by
  simp [Engine.sv]
@[simp] theorem Engine.reset_busy : Engine.reset.busy = false := rfl
@[simp] theorem Engine.reset_sv : Engine.reset.sv = false := rfl
@[simp] theorem Engine.reset_hasErr : Engine.reset.hasErr = false := rfl

theorem Engine.busy_eq_true : e.busy = true ↔ ∃ w, e.pend = some w := by
  simp [Engine.busy, Option.isSome_iff_exists]

theorem Engine.busy_eq_false : e.busy = false ↔ e.pend = none := by
  simp [Engine.busy]

theorem Engine.sv_eq_true : e.sv = true ↔ ∃ sch, e.store = some sch := by
  simp [Engine.sv, Option.isSome_iff_exists]

theorem Engine.sv_eq_false : e.sv = false ↔ e.store = none := by
  simp [Engine.sv]

/-! ### The parameters and the digest -/

@[simp] theorem Finalization.apply_keccak : Finalization.keccak.apply = keccakP800 := rfl
@[simp] theorem Finalization.apply_other (k : Nat) : (Finalization.other k).apply = Config.openFinal k := rfl
@[simp] theorem State.reset_params : State.reset.params = { prng := Config.prng, final := .keccak } := rfl

@[simp] theorem Engine.digest_getElem (k : Nat) (h : k < 32) : e.digest[k] = e.bufByte k := by
  simp [Engine.digest]

end Sys2Proof.Machine
end

