-- ==== Sys2Proof/Laws/Exec.lean ====
section
/-! SUPPORT. What exec can do, said once: the frame every command runs in, each command's effect on the engine, and what
no effect changes. -/

namespace Sys2Proof.Machine

/-- When a command is let through (60_exceptions.md R176). -/
theorem commandError_eq_none {i : Instr} {e : Engine} :
    commandError i e = none ↔
      i.wellFormed = true ∧ (needsSchedule i = true → e.sv = true) ∧ (i = .hash → e.len.toNat ≤ 80) := by
  unfold commandError
  cases hw : i.wellFormed <;> cases hn : needsSchedule i <;> cases hs : e.sv <;> by_cases hh : i = .hash <;>
    simp_all [Config.maxInputBytes]

/-- A legal command that needs no schedule is let through in every state (30_encoding.md R94). -/
theorem commandError_of_plain {i : Instr} {e : Engine} (hw : i.wellFormed = true) (hn : needsSchedule i = false) :
    commandError i e = none := by
  rw [commandError_eq_none]
  exact ⟨hw, by simp [hn], fun h => by subst h; simp [needsSchedule] at hn⟩

/-- A legal command is let through while there is a schedule, HASH with LEN at most 80 (60_exceptions.md R176). -/
theorem commandError_of_store {i : Instr} {e : Engine} {sch : Schedule} (hw : i.wellFormed = true)
    (hs : e.store = some sch) (hl : i = .hash → e.len.toNat ≤ 80) : commandError i e = none := by
  rw [commandError_eq_none]
  exact ⟨hw, fun _ => by simp [Engine.sv, hs], hl⟩

/-- The errors with which a command is turned away. -/
theorem commandError_some {i : Instr} {e : Engine} {c : ErrCode} (h : commandError i e = some c) :
    c = .illegalCmd ∨ c = .noSchedule ∨ c = .precondition := by
  unfold commandError at h
  split at h
  · simp_all
  · split at h
    · simp_all
    · split at h <;> simp_all

/-- Acceptance looks at SV and LEN only, besides the command. -/
theorem commandError_congr {i : Instr} {e e' : Engine} (hs : e'.sv = e.sv) (hl : e'.len = e.len) :
    commandError i e' = commandError i e := by
  unfold commandError; rw [hs, hl]

/-- A command that is let through has its effect and completes (20_memory.md R79). -/
theorem runCommand_of_none {i : Instr} {f : Engine → Engine} {s : State} (h : commandError i s.eng = none) :
    runCommand i f s = .next { s with eng := (f s.eng).complete } := by
  simp only [runCommand, h]

/-- A command that is not let through is turned away. -/
theorem runCommand_of_some {i : Instr} {f : Engine → Engine} {s : State} {c : ErrCode}
    (h : commandError i s.eng = some c) :
    runCommand i f s = .next { s with eng := s.eng.turnAway c (encode i) } := by
  simp only [runCommand, h]

/-- The effect of each command on the engine, before it completes, in a machine with the parameters `P`. -/
def effectOf (P : Params) : Instr → Engine → Engine
  | .nop => fun e => e
  | .build => Engine.build P.prng
  | .chksched => Engine.withStore Engine.check
  | .prngSeed => Engine.seedPrng
  | .prngNext32 => Engine.drawNext32 P.prng
  | .prngNext64 => Engine.drawNext64 P.prng
  | .prngBounded => Engine.drawBounded P.prng
  | .unpack => Engine.unpack
  | .pack => Engine.pack
  | .premix => Engine.mapWords preMix
  | .mswap d sub => Engine.withStore fun sch => Engine.mapWords (maskedSwap ((sch.descriptor d).maskRow sub.toNat))
  | .wshuf => Engine.mapWords wordShuffle
  | .prot d sub => Engine.withStore fun sch => Engine.mapWords (pboxRotate ((sch.descriptor d).rotRow sub.toNat))
  | .perm d => Engine.withStore fun sch => Engine.mapWords (applyPermutation (sch.descriptor d))
  | .subst => Engine.withStore fun sch => Engine.mapWords (applySubstitution sch)
  | .lmix => Engine.withStore fun sch => Engine.mapWords (linearMix sch.rot)
  | .rkey r => Engine.withStore fun sch => Engine.mapWords (injectRoundKey (sch.roundKey r.toNat))
  | .round r => Engine.withStore fun sch => Engine.mapWords (cipherRound sch r.toNat)
  | .encrypt => Engine.withStore Engine.encrypt
  | .hash => Engine.withStore (Engine.hash P.final.apply)

/-- Every command is its effect run in the common frame. -/
theorem exec_eq (i : Instr) (s : State) : exec i s = runCommand i (effectOf s.params i) s := by
  cases i <;> rfl

/-- A command that is let through has its effect and completes. -/
theorem exec_of_none {i : Instr} {s : State} (h : commandError i s.eng = none) :
    exec i s = .next { s with eng := (effectOf s.params i s.eng).complete } := by
  rw [exec_eq, runCommand_of_none h]

/-- A command that is not let through is turned away. -/
theorem exec_of_some {i : Instr} {s : State} {c : ErrCode} (h : commandError i s.eng = some c) :
    exec i s = .next { s with eng := s.eng.turnAway c (encode i) } := by
  rw [exec_eq, runCommand_of_some h]

/-- Everything exec can answer. -/
theorem exec_cases (i : Instr) (s : State) :
    (commandError i s.eng = none ∧ exec i s = .next { s with eng := (effectOf s.params i s.eng).complete }) ∨
    (∃ c, commandError i s.eng = some c ∧ exec i s = .next { s with eng := s.eng.turnAway c (encode i) }) := by
  cases h : commandError i s.eng with
  | none => exact .inl ⟨rfl, exec_of_none h⟩
  | some c => exact .inr ⟨c, rfl, exec_of_some h⟩

/-- exec always answers a next state, and only the engine changes in it. -/
theorem exec_next (i : Instr) (s : State) : ∃ e, exec i s = .next { s with eng := e } := by
  rcases exec_cases i s with ⟨_, h⟩ | ⟨c, _, h⟩ <;> exact ⟨_, h⟩

/-- A legal command that needs no schedule always has its effect. -/
theorem exec_plain {i : Instr} {s : State} {e : Engine} (hw : i.wellFormed = true) (hn : needsSchedule i = false)
    (he : effectOf s.params i s.eng = e) : exec i s = .next { s with eng := e.complete } := by
  subst he
  exact exec_of_none (commandError_of_plain hw hn)

/-- A legal "sched" command has its effect while there is a schedule. -/
theorem exec_sched {i : Instr} {s : State} {sch : Schedule} {f : Schedule → Engine → Engine} {e : Engine}
    (hs : s.eng.store = some sch) (hw : i.wellFormed = true) (hl : i = .hash → s.eng.len.toNat ≤ 80)
    (hf : effectOf s.params i = Engine.withStore f) (he : f sch s.eng = e) : exec i s = .next { s with eng := e.complete } := by
  rw [exec_of_none (commandError_of_store hw hs hl), hf, Engine.withStore_some s.eng f sch hs, he]

/-! ### What no command's effect changes -/

/-- A field that no effect under the store's guard changes is not changed by the guarded effect. -/
theorem Engine.withStore_keeps {α : Type} (field : Engine → α) (f : Schedule → Engine → Engine)
    (h : ∀ sch e, field (f sch e) = field e) (e : Engine) : field (Engine.withStore f e) = field e := by
  unfold Engine.withStore
  split
  · exact h _ _
  · rfl

/-- What no command changes in the engine: the interrupt enables, DONE (before completing), LASTCMD and the operand
registers (70_reset_and_hazards.md R216). -/
structure Engine.Keeps (e e' : Engine) : Prop where
  ieDone : e'.ieDone = e.ieDone
  ieErr : e'.ieErr = e.ieErr
  done : e'.done = e.done
  lastcmd : e'.lastcmd = e.lastcmd
  pend : e'.pend = e.pend
  key : e'.key = e.key
  len : e'.len = e.len
  arg : e'.arg = e.arg
  schedAddr : e'.schedAddr = e.schedAddr

theorem Engine.Keeps.withStore {f : Schedule → Engine → Engine} (h : ∀ sch e, Engine.Keeps e (f sch e)) (e : Engine) :
    Engine.Keeps e (Engine.withStore f e) := by
  unfold Engine.withStore
  split
  · exact h _ _
  · exact ⟨rfl, rfl, rfl, rfl, rfl, rfl, rfl, rfl, rfl⟩

theorem Engine.Keeps.mapWords (f : Words → Words) (e : Engine) : Engine.Keeps e (Engine.mapWords f e) :=
  ⟨Engine.mapWords_ieDone e f, Engine.mapWords_ieErr e f, Engine.mapWords_done e f, Engine.mapWords_lastcmd e f, Engine.mapWords_pend e f,
   Engine.mapWords_key e f, Engine.mapWords_len e f, Engine.mapWords_arg e f, Engine.mapWords_schedAddr e f⟩

theorem Engine.Keeps.seedPrng (e : Engine) : Engine.Keeps e (Engine.seedPrng e) :=
  ⟨Engine.seedPrng_ieDone e, Engine.seedPrng_ieErr e, Engine.seedPrng_done e, Engine.seedPrng_lastcmd e, Engine.seedPrng_pend e,
   Engine.seedPrng_key e, Engine.seedPrng_len e, Engine.seedPrng_arg e, Engine.seedPrng_schedAddr e⟩

theorem Engine.Keeps.drawNext32 (P : PrngParams) (e : Engine) : Engine.Keeps e (Engine.drawNext32 P e) :=
  ⟨Engine.drawNext32_ieDone e P, Engine.drawNext32_ieErr e P, Engine.drawNext32_done e P, Engine.drawNext32_lastcmd e P, Engine.drawNext32_pend e P,
   Engine.drawNext32_key e P, Engine.drawNext32_len e P, Engine.drawNext32_arg e P, Engine.drawNext32_schedAddr e P⟩

theorem Engine.Keeps.drawNext64 (P : PrngParams) (e : Engine) : Engine.Keeps e (Engine.drawNext64 P e) :=
  ⟨Engine.drawNext64_ieDone e P, Engine.drawNext64_ieErr e P, Engine.drawNext64_done e P, Engine.drawNext64_lastcmd e P, Engine.drawNext64_pend e P,
   Engine.drawNext64_key e P, Engine.drawNext64_len e P, Engine.drawNext64_arg e P, Engine.drawNext64_schedAddr e P⟩

theorem Engine.Keeps.drawBounded (P : PrngParams) (e : Engine) : Engine.Keeps e (Engine.drawBounded P e) :=
  ⟨Engine.drawBounded_ieDone e P, Engine.drawBounded_ieErr e P, Engine.drawBounded_done e P, Engine.drawBounded_lastcmd e P, Engine.drawBounded_pend e P,
   Engine.drawBounded_key e P, Engine.drawBounded_len e P, Engine.drawBounded_arg e P, Engine.drawBounded_schedAddr e P⟩

theorem Engine.Keeps.build (P : PrngParams) (e : Engine) : Engine.Keeps e (Engine.build P e) :=
  ⟨Engine.build_ieDone e P, Engine.build_ieErr e P, Engine.build_done e P, Engine.build_lastcmd e P, Engine.build_pend e P,
   Engine.build_key e P, Engine.build_len e P, Engine.build_arg e P, Engine.build_schedAddr e P⟩

theorem Engine.Keeps.unpack (e : Engine) : Engine.Keeps e (Engine.unpack e) :=
  ⟨Engine.unpack_ieDone e, Engine.unpack_ieErr e, Engine.unpack_done e, Engine.unpack_lastcmd e, Engine.unpack_pend e,
   Engine.unpack_key e, Engine.unpack_len e, Engine.unpack_arg e, Engine.unpack_schedAddr e⟩

theorem Engine.Keeps.pack (e : Engine) : Engine.Keeps e (Engine.pack e) :=
  ⟨Engine.pack_ieDone e, Engine.pack_ieErr e, Engine.pack_done e, Engine.pack_lastcmd e, Engine.pack_pend e,
   Engine.pack_key e, Engine.pack_len e, Engine.pack_arg e, Engine.pack_schedAddr e⟩

theorem Engine.Keeps.encrypt (sch : Schedule) (e : Engine) : Engine.Keeps e (Engine.encrypt sch e) :=
  ⟨Engine.encrypt_ieDone e sch, Engine.encrypt_ieErr e sch, Engine.encrypt_done e sch, Engine.encrypt_lastcmd e sch, Engine.encrypt_pend e sch,
   Engine.encrypt_key e sch, Engine.encrypt_len e sch, Engine.encrypt_arg e sch, Engine.encrypt_schedAddr e sch⟩

theorem Engine.Keeps.hash (final : Block → Block) (sch : Schedule) (e : Engine) : Engine.Keeps e (Engine.hash final sch e) :=
  ⟨Engine.hash_ieDone e final sch, Engine.hash_ieErr e final sch, Engine.hash_done e final sch, Engine.hash_lastcmd e final sch, Engine.hash_pend e final sch,
   Engine.hash_key e final sch, Engine.hash_len e final sch, Engine.hash_arg e final sch, Engine.hash_schedAddr e final sch⟩

theorem Engine.Keeps.check (sch : Schedule) (e : Engine) : Engine.Keeps e (Engine.check sch e) :=
  ⟨Engine.check_ieDone e sch, Engine.check_ieErr e sch, Engine.check_done e sch, Engine.check_lastcmd e sch, Engine.check_pend e sch,
   Engine.check_key e sch, Engine.check_len e sch, Engine.check_arg e sch, Engine.check_schedAddr e sch⟩

/-- No command's effect changes them. -/
theorem effectOf_keeps (P : Params) (i : Instr) (e : Engine) : Engine.Keeps e (effectOf P i e) := by
  cases i with
  | nop => exact ⟨rfl, rfl, rfl, rfl, rfl, rfl, rfl, rfl, rfl⟩
  | build => exact Engine.Keeps.build _ e
  | chksched => exact Engine.Keeps.withStore Engine.Keeps.check e
  | prngSeed => exact Engine.Keeps.seedPrng e
  | prngNext32 => exact Engine.Keeps.drawNext32 _ e
  | prngNext64 => exact Engine.Keeps.drawNext64 _ e
  | prngBounded => exact Engine.Keeps.drawBounded _ e
  | unpack => exact Engine.Keeps.unpack e
  | pack => exact Engine.Keeps.pack e
  | premix => exact Engine.Keeps.mapWords _ e
  | wshuf => exact Engine.Keeps.mapWords _ e
  | mswap d s => exact Engine.Keeps.withStore (fun _ => Engine.Keeps.mapWords _) e
  | prot d s => exact Engine.Keeps.withStore (fun _ => Engine.Keeps.mapWords _) e
  | perm d => exact Engine.Keeps.withStore (fun _ => Engine.Keeps.mapWords _) e
  | subst => exact Engine.Keeps.withStore (fun _ => Engine.Keeps.mapWords _) e
  | lmix => exact Engine.Keeps.withStore (fun _ => Engine.Keeps.mapWords _) e
  | rkey r => exact Engine.Keeps.withStore (fun _ => Engine.Keeps.mapWords _) e
  | round r => exact Engine.Keeps.withStore (fun _ => Engine.Keeps.mapWords _) e
  | encrypt => exact Engine.Keeps.withStore Engine.Keeps.encrypt e
  | hash => exact Engine.Keeps.withStore (Engine.Keeps.hash _) e

variable (P : Params) (i : Instr) (e : Engine)

@[simp] theorem effectOf_ieDone : (effectOf P i e).ieDone = e.ieDone := (effectOf_keeps P i e).ieDone
@[simp] theorem effectOf_ieErr : (effectOf P i e).ieErr = e.ieErr := (effectOf_keeps P i e).ieErr
@[simp] theorem effectOf_done : (effectOf P i e).done = e.done := (effectOf_keeps P i e).done
@[simp] theorem effectOf_lastcmd : (effectOf P i e).lastcmd = e.lastcmd := (effectOf_keeps P i e).lastcmd
@[simp] theorem effectOf_key : (effectOf P i e).key = e.key := (effectOf_keeps P i e).key
@[simp] theorem effectOf_len : (effectOf P i e).len = e.len := (effectOf_keeps P i e).len
@[simp] theorem effectOf_arg : (effectOf P i e).arg = e.arg := (effectOf_keeps P i e).arg
@[simp] theorem effectOf_schedAddr : (effectOf P i e).schedAddr = e.schedAddr := (effectOf_keeps P i e).schedAddr

/-- The error record is written by CHKSCHED alone (41_schedule.md R130). -/
theorem effectOf_err (h : i ≠ .chksched) : (effectOf P i e).err = e.err := by
  cases i with
  | nop => exact rfl
  | build => exact Engine.build_err e _
  | chksched => exact absurd h (by simp)
  | prngSeed => exact Engine.seedPrng_err e
  | prngNext32 => exact Engine.drawNext32_err e _
  | prngNext64 => exact Engine.drawNext64_err e _
  | prngBounded => exact Engine.drawBounded_err e _
  | unpack => exact Engine.unpack_err e
  | pack => exact Engine.pack_err e
  | premix => exact Engine.mapWords_err e _
  | wshuf => exact Engine.mapWords_err e _
  | mswap d s => exact Engine.withStore_keeps (·.err) _ (fun _ e => Engine.mapWords_err e _) e
  | prot d s => exact Engine.withStore_keeps (·.err) _ (fun _ e => Engine.mapWords_err e _) e
  | perm d => exact Engine.withStore_keeps (·.err) _ (fun _ e => Engine.mapWords_err e _) e
  | subst => exact Engine.withStore_keeps (·.err) _ (fun _ e => Engine.mapWords_err e _) e
  | lmix => exact Engine.withStore_keeps (·.err) _ (fun _ e => Engine.mapWords_err e _) e
  | rkey r => exact Engine.withStore_keeps (·.err) _ (fun _ e => Engine.mapWords_err e _) e
  | round r => exact Engine.withStore_keeps (·.err) _ (fun _ e => Engine.mapWords_err e _) e
  | encrypt => exact Engine.withStore_keeps (·.err) _ (fun sch e => Engine.encrypt_err e sch) e
  | hash => exact Engine.withStore_keeps (·.err) _ (fun sch e => Engine.hash_err e _ sch) e

/-- The store is written by BUILD alone (10_state.md R38). -/
theorem effectOf_store (h : i ≠ .build) : (effectOf P i e).store = e.store := by
  cases i with
  | nop => exact rfl
  | build => exact absurd h (by simp)
  | chksched => exact Engine.withStore_keeps (·.store) _ (fun sch e => Engine.check_store e sch) e
  | prngSeed => exact Engine.seedPrng_store e
  | prngNext32 => exact Engine.drawNext32_store e _
  | prngNext64 => exact Engine.drawNext64_store e _
  | prngBounded => exact Engine.drawBounded_store e _
  | unpack => exact Engine.unpack_store e
  | pack => exact Engine.pack_store e
  | premix => exact Engine.mapWords_store e _
  | wshuf => exact Engine.mapWords_store e _
  | mswap d s => exact Engine.withStore_keeps (·.store) _ (fun _ e => Engine.mapWords_store e _) e
  | prot d s => exact Engine.withStore_keeps (·.store) _ (fun _ e => Engine.mapWords_store e _) e
  | perm d => exact Engine.withStore_keeps (·.store) _ (fun _ e => Engine.mapWords_store e _) e
  | subst => exact Engine.withStore_keeps (·.store) _ (fun _ e => Engine.mapWords_store e _) e
  | lmix => exact Engine.withStore_keeps (·.store) _ (fun _ e => Engine.mapWords_store e _) e
  | rkey r => exact Engine.withStore_keeps (·.store) _ (fun _ e => Engine.mapWords_store e _) e
  | round r => exact Engine.withStore_keeps (·.store) _ (fun _ e => Engine.mapWords_store e _) e
  | encrypt => exact Engine.withStore_keeps (·.store) _ (fun sch e => Engine.encrypt_store e sch) e
  | hash => exact Engine.withStore_keeps (·.store) _ (fun sch e => Engine.hash_store e _ sch) e

/-- SKEY is written by BUILD alone (10_state.md R35). -/
theorem effectOf_skey (h : i ≠ .build) : (effectOf P i e).skey = e.skey := by
  cases i with
  | nop => exact rfl
  | build => exact absurd h (by simp)
  | chksched => exact Engine.withStore_keeps (·.skey) _ (fun sch e => Engine.check_skey e sch) e
  | prngSeed => exact Engine.seedPrng_skey e
  | prngNext32 => exact Engine.drawNext32_skey e _
  | prngNext64 => exact Engine.drawNext64_skey e _
  | prngBounded => exact Engine.drawBounded_skey e _
  | unpack => exact Engine.unpack_skey e
  | pack => exact Engine.pack_skey e
  | premix => exact Engine.mapWords_skey e _
  | wshuf => exact Engine.mapWords_skey e _
  | mswap d s => exact Engine.withStore_keeps (·.skey) _ (fun _ e => Engine.mapWords_skey e _) e
  | prot d s => exact Engine.withStore_keeps (·.skey) _ (fun _ e => Engine.mapWords_skey e _) e
  | perm d => exact Engine.withStore_keeps (·.skey) _ (fun _ e => Engine.mapWords_skey e _) e
  | subst => exact Engine.withStore_keeps (·.skey) _ (fun _ e => Engine.mapWords_skey e _) e
  | lmix => exact Engine.withStore_keeps (·.skey) _ (fun _ e => Engine.mapWords_skey e _) e
  | rkey r => exact Engine.withStore_keeps (·.skey) _ (fun _ e => Engine.mapWords_skey e _) e
  | round r => exact Engine.withStore_keeps (·.skey) _ (fun _ e => Engine.mapWords_skey e _) e
  | encrypt => exact Engine.withStore_keeps (·.skey) _ (fun sch e => Engine.encrypt_skey e sch) e
  | hash => exact Engine.withStore_keeps (·.skey) _ (fun sch e => Engine.hash_skey e _ sch) e

/-- The commands that write the PRNG registers (10_state.md R32). -/
def writesPrng : Instr → Bool
  | .build | .prngSeed | .prngNext32 | .prngNext64 | .prngBounded => true
  | .nop | .chksched | .unpack | .pack | .premix | .mswap _ _ | .wshuf | .prot _ _ | .perm _ => false
  | .subst | .lmix | .rkey _ | .round _ | .encrypt | .hash => false

/-- The commands that write PRNG_OUT (10_state.md R31). -/
def writesPrngOut : Instr → Bool
  | .prngNext32 | .prngNext64 | .prngBounded => true
  | .nop | .build | .chksched | .prngSeed | .unpack | .pack | .premix | .mswap _ _ | .wshuf | .prot _ _ => false
  | .perm _ | .subst | .lmix | .rkey _ | .round _ | .encrypt | .hash => false

/-- The commands that write the state words (10_state.md R36). -/
def writesWords : Instr → Bool
  | .unpack | .premix | .mswap _ _ | .wshuf | .prot _ _ | .perm _ | .subst | .lmix | .rkey _ | .round _ => true
  | .encrypt | .hash => true
  | .nop | .build | .chksched | .prngSeed | .prngNext32 | .prngNext64 | .prngBounded | .pack => false

/-- The commands that write BUF (10_state.md R37). -/
def writesBuf : Instr → Bool
  | .pack | .encrypt | .hash => true
  | .nop | .build | .chksched | .prngSeed | .prngNext32 | .prngNext64 | .prngBounded | .unpack | .premix => false
  | .mswap _ _ | .wshuf | .prot _ _ | .perm _ | .subst | .lmix | .rkey _ | .round _ => false

theorem effectOf_prng (h : writesPrng i = false) : (effectOf P i e).prng = e.prng := by
  cases i with
  | nop => exact rfl
  | build => exact absurd h (by simp [writesPrng])
  | chksched => exact Engine.withStore_keeps (·.prng) _ (fun sch e => Engine.check_prng e sch) e
  | prngSeed => exact absurd h (by simp [writesPrng])
  | prngNext32 => exact absurd h (by simp [writesPrng])
  | prngNext64 => exact absurd h (by simp [writesPrng])
  | prngBounded => exact absurd h (by simp [writesPrng])
  | unpack => exact Engine.unpack_prng e
  | pack => exact Engine.pack_prng e
  | premix => exact Engine.mapWords_prng e _
  | wshuf => exact Engine.mapWords_prng e _
  | mswap d s => exact Engine.withStore_keeps (·.prng) _ (fun _ e => Engine.mapWords_prng e _) e
  | prot d s => exact Engine.withStore_keeps (·.prng) _ (fun _ e => Engine.mapWords_prng e _) e
  | perm d => exact Engine.withStore_keeps (·.prng) _ (fun _ e => Engine.mapWords_prng e _) e
  | subst => exact Engine.withStore_keeps (·.prng) _ (fun _ e => Engine.mapWords_prng e _) e
  | lmix => exact Engine.withStore_keeps (·.prng) _ (fun _ e => Engine.mapWords_prng e _) e
  | rkey r => exact Engine.withStore_keeps (·.prng) _ (fun _ e => Engine.mapWords_prng e _) e
  | round r => exact Engine.withStore_keeps (·.prng) _ (fun _ e => Engine.mapWords_prng e _) e
  | encrypt => exact Engine.withStore_keeps (·.prng) _ (fun sch e => Engine.encrypt_prng e sch) e
  | hash => exact Engine.withStore_keeps (·.prng) _ (fun sch e => Engine.hash_prng e _ sch) e

theorem effectOf_prngOut (h : writesPrngOut i = false) : (effectOf P i e).prngOut = e.prngOut := by
  cases i with
  | nop => exact rfl
  | build => exact Engine.build_prngOut e _
  | chksched => exact Engine.withStore_keeps (·.prngOut) _ (fun sch e => Engine.check_prngOut e sch) e
  | prngSeed => exact Engine.seedPrng_prngOut e
  | prngNext32 => exact absurd h (by simp [writesPrngOut])
  | prngNext64 => exact absurd h (by simp [writesPrngOut])
  | prngBounded => exact absurd h (by simp [writesPrngOut])
  | unpack => exact Engine.unpack_prngOut e
  | pack => exact Engine.pack_prngOut e
  | premix => exact Engine.mapWords_prngOut e _
  | wshuf => exact Engine.mapWords_prngOut e _
  | mswap d s => exact Engine.withStore_keeps (·.prngOut) _ (fun _ e => Engine.mapWords_prngOut e _) e
  | prot d s => exact Engine.withStore_keeps (·.prngOut) _ (fun _ e => Engine.mapWords_prngOut e _) e
  | perm d => exact Engine.withStore_keeps (·.prngOut) _ (fun _ e => Engine.mapWords_prngOut e _) e
  | subst => exact Engine.withStore_keeps (·.prngOut) _ (fun _ e => Engine.mapWords_prngOut e _) e
  | lmix => exact Engine.withStore_keeps (·.prngOut) _ (fun _ e => Engine.mapWords_prngOut e _) e
  | rkey r => exact Engine.withStore_keeps (·.prngOut) _ (fun _ e => Engine.mapWords_prngOut e _) e
  | round r => exact Engine.withStore_keeps (·.prngOut) _ (fun _ e => Engine.mapWords_prngOut e _) e
  | encrypt => exact Engine.withStore_keeps (·.prngOut) _ (fun sch e => Engine.encrypt_prngOut e sch) e
  | hash => exact Engine.withStore_keeps (·.prngOut) _ (fun sch e => Engine.hash_prngOut e _ sch) e

theorem effectOf_w (h : writesWords i = false) : (effectOf P i e).w = e.w := by
  cases i with
  | nop => exact rfl
  | build => exact Engine.build_w e _
  | chksched => exact Engine.withStore_keeps (·.w) _ (fun sch e => Engine.check_w e sch) e
  | prngSeed => exact Engine.seedPrng_w e
  | prngNext32 => exact Engine.drawNext32_w e _
  | prngNext64 => exact Engine.drawNext64_w e _
  | prngBounded => exact Engine.drawBounded_w e _
  | unpack => exact absurd h (by simp [writesWords])
  | pack => exact Engine.pack_w e
  | premix => exact absurd h (by simp [writesWords])
  | wshuf => exact absurd h (by simp [writesWords])
  | mswap d s => exact absurd h (by simp [writesWords])
  | prot d s => exact absurd h (by simp [writesWords])
  | perm d => exact absurd h (by simp [writesWords])
  | subst => exact absurd h (by simp [writesWords])
  | lmix => exact absurd h (by simp [writesWords])
  | rkey r => exact absurd h (by simp [writesWords])
  | round r => exact absurd h (by simp [writesWords])
  | encrypt => exact absurd h (by simp [writesWords])
  | hash => exact absurd h (by simp [writesWords])

theorem effectOf_buf (h : writesBuf i = false) : (effectOf P i e).buf = e.buf := by
  cases i with
  | nop => exact rfl
  | build => exact Engine.build_buf e _
  | chksched => exact Engine.withStore_keeps (·.buf) _ (fun sch e => Engine.check_buf e sch) e
  | prngSeed => exact Engine.seedPrng_buf e
  | prngNext32 => exact Engine.drawNext32_buf e _
  | prngNext64 => exact Engine.drawNext64_buf e _
  | prngBounded => exact Engine.drawBounded_buf e _
  | unpack => exact Engine.unpack_buf e
  | pack => exact absurd h (by simp [writesBuf])
  | premix => exact Engine.mapWords_buf e _
  | wshuf => exact Engine.mapWords_buf e _
  | mswap d s => exact Engine.withStore_keeps (·.buf) _ (fun _ e => Engine.mapWords_buf e _) e
  | prot d s => exact Engine.withStore_keeps (·.buf) _ (fun _ e => Engine.mapWords_buf e _) e
  | perm d => exact Engine.withStore_keeps (·.buf) _ (fun _ e => Engine.mapWords_buf e _) e
  | subst => exact Engine.withStore_keeps (·.buf) _ (fun _ e => Engine.mapWords_buf e _) e
  | lmix => exact Engine.withStore_keeps (·.buf) _ (fun _ e => Engine.mapWords_buf e _) e
  | rkey r => exact Engine.withStore_keeps (·.buf) _ (fun _ e => Engine.mapWords_buf e _) e
  | round r => exact Engine.withStore_keeps (·.buf) _ (fun _ e => Engine.mapWords_buf e _) e
  | encrypt => exact absurd h (by simp [writesBuf])
  | hash => exact absurd h (by simp [writesBuf])

end Sys2Proof.Machine
end

