-- ==== Sys2Proof/Laws/Memory.lean ====
section
/-! SUPPORT. Memory: read after write, the canonical form, and what the wider stores and loads do byte by byte. -/

namespace Sys2Proof.Machine

/-! ### Cells -/

/-- A listed key of a canonical list lies above the keys before it. -/
theorem Cells.wf_cons {w : Nat} {a : Nat} {v : BitVec w} {m : Cells w} :
    Cells.wf ((a, v) :: m) = true ↔ v ≠ 0 ∧ (∀ c ∈ m, a < c.1) ∧ Cells.wf m = true := by
  simp [Cells.wf, and_assoc]

/-- A key below every listed key reads 0. -/
theorem Cells.read_of_lt {w : Nat} {m : Cells w} {a : Nat} (h : ∀ c ∈ m, a < c.1) : Cells.read m a = 0 := by
  induction m with
  | nil => rfl
  | cons c m ih =>
    obtain ⟨b, x⟩ := c
    have hb : a < b := h (b, x) (by simp)
    rw [Cells.read, if_neg (by omega)]
    exact ih fun c hc => h c (by simp [hc])

/-- A write leaves every other cell alone. -/
theorem Cells.read_write_other {w : Nat} (m : Cells w) {a b : Nat} (v : BitVec w) (h : b ≠ a) :
    Cells.read (Cells.write m a v) b = Cells.read m b := by
  induction m with
  | nil => simp only [Cells.write]; split <;> simp [Cells.read, h]
  | cons c m ih =>
    obtain ⟨k, x⟩ := c
    simp only [Cells.write]
    split
    · split <;> simp [Cells.read, h]
    · split
      · subst_vars
        split <;> simp [Cells.read, h]
      · simp [Cells.read, ih]

/-- The listed keys after a write: the written one and the old ones. -/
theorem Cells.mem_write_key {w : Nat} {m : Cells w} {a : Nat} {v : BitVec w} {c : Nat × BitVec w}
    (h : c ∈ Cells.write m a v) : c.1 = a ∨ c ∈ m := by
  induction m with
  | nil => by_cases hv : v = 0 <;> simp_all [Cells.write]
  | cons d m ih =>
    obtain ⟨k, x⟩ := d
    simp only [Cells.write] at h
    split at h
    · split at h
      · exact .inr h
      · rcases List.mem_cons.1 h with rfl | h
        · exact .inl rfl
        · exact .inr h
    · split at h
      · split at h
        · exact .inr (List.mem_cons_of_mem _ h)
        · rcases List.mem_cons.1 h with rfl | h
          · exact .inl rfl
          · exact .inr (List.mem_cons_of_mem _ h)
      · rcases List.mem_cons.1 h with rfl | h
        · exact .inr (by simp)
        · exact (ih h).imp_right (List.mem_cons_of_mem _)

/-- A write keeps the canonical form. -/
theorem Cells.wf_write {w : Nat} {m : Cells w} (a : Nat) (v : BitVec w) (h : Cells.wf m = true) :
    Cells.wf (Cells.write m a v) = true := by
  induction m with
  | nil => simp only [Cells.write]; split <;> simp_all [Cells.wf]
  | cons c m ih =>
    obtain ⟨k, x⟩ := c
    obtain ⟨hx, hk, hm⟩ := Cells.wf_cons.1 h
    simp only [Cells.write]
    split
    · split
      · exact h
      · refine Cells.wf_cons.2 ⟨by assumption, ?_, h⟩
        intro c hc
        rcases List.mem_cons.1 hc with rfl | hc
        · assumption
        · have := hk c hc; omega
    · split
      · subst_vars
        split
        · exact hm
        · exact Cells.wf_cons.2 ⟨by assumption, hk, hm⟩
      · refine Cells.wf_cons.2 ⟨hx, fun c hc => ?_, ih hm⟩
        rcases Cells.mem_write_key hc with h1 | h1
        · omega
        · exact hk c h1

/-- A read after a write to the same place gives the value written. -/
theorem Cells.read_write_same {w : Nat} {m : Cells w} (a : Nat) (v : BitVec w) (h : Cells.wf m = true) :
    Cells.read (Cells.write m a v) a = v := by
  induction m with
  | nil => simp only [Cells.write]; split <;> simp_all [Cells.read]
  | cons c m ih =>
    obtain ⟨k, x⟩ := c
    obtain ⟨hx, hk, hm⟩ := Cells.wf_cons.1 h
    simp only [Cells.write]
    split
    · rename_i hlt
      split
      · rename_i hv
        rw [hv]
        refine Cells.read_of_lt fun c hc => ?_
        rcases List.mem_cons.1 hc with rfl | hc
        · exact hlt
        · have := hk c hc; omega
      · simp [Cells.read]
    · split
      · subst_vars
        split
        · rename_i hv
          rw [hv]
          exact Cells.read_of_lt hk
        · simp [Cells.read]
      · rename_i h1 h2
        rw [Cells.read, if_neg h2]
        exact ih hm

/-- A read after a write, at any place. -/
theorem Cells.read_write {w : Nat} {m : Cells w} (a b : Nat) (v : BitVec w) (h : Cells.wf m = true) :
    Cells.read (Cells.write m a v) b = if b = a then v else Cells.read m b := by
  by_cases hb : b = a
  · subst hb; simp [Cells.read_write_same b v h]
  · rw [if_neg hb, Cells.read_write_other m v hb]

/-- Canonical lists that read the same are the same list: equal contents are equal data. -/
theorem Cells.ext {w : Nat} {m m' : Cells w} (h : Cells.wf m = true) (h' : Cells.wf m' = true)
    (hr : ∀ a, Cells.read m a = Cells.read m' a) : m = m' := by
  induction m generalizing m' with
  | nil =>
    cases m' with
    | nil => rfl
    | cons c m' =>
      obtain ⟨k, x⟩ := c
      have := hr k
      simp [Cells.read] at this
      exact absurd this.symm (Cells.wf_cons.1 h').1
  | cons c m ih =>
    obtain ⟨k, x⟩ := c
    obtain ⟨hx, hk, hm⟩ := Cells.wf_cons.1 h
    cases m' with
    | nil =>
      have := hr k
      simp [Cells.read] at this
      exact absurd this hx
    | cons c' m' =>
      obtain ⟨k', x'⟩ := c'
      obtain ⟨hx', hk', hm'⟩ := Cells.wf_cons.1 h'
      have hkk : k = k' := by
        rcases Nat.lt_trichotomy k k' with hlt | heq | hgt
        · have h1 := hr k
          rw [Cells.read, if_pos rfl, Cells.read_of_lt] at h1
          · exact absurd h1 hx
          · intro c hc
            rcases List.mem_cons.1 hc with rfl | hc
            · exact hlt
            · have := hk' c hc; omega
        · exact heq
        · have h1 := hr k'
          rw [Cells.read_of_lt, Cells.read, if_pos rfl] at h1
          · exact absurd h1.symm hx'
          · intro c hc
            rcases List.mem_cons.1 hc with rfl | hc
            · exact hgt
            · have := hk c hc; omega
      subst hkk
      have hxx : x = x' := by have := hr k; simpa [Cells.read] using this
      subst hxx
      congr 1
      refine ih hm hm' fun a => ?_
      by_cases ha : a = k
      · subst ha
        rw [Cells.read_of_lt hk, Cells.read_of_lt hk']
      · have := hr a
        simpa [Cells.read, ha] using this

/-! ### Bytes of the buffer memory -/

theorem Memory.read_write {m : Memory} (a b : Nat) (v : Byte) (h : Memory.wf m = true) :
    Memory.read (Memory.write m a v) b = if b = a then v else Memory.read m b :=
  Cells.read_write a b v h

theorem Memory.read_write_other (m : Memory) {a b : Nat} (v : Byte) (h : b ≠ a) :
    Memory.read (Memory.write m a v) b = Memory.read m b :=
  Cells.read_write_other m v h

theorem Memory.wf_write {m : Memory} (a : Nat) (v : Byte) (h : Memory.wf m = true) :
    Memory.wf (Memory.write m a v) = true :=
  Cells.wf_write a v h

theorem Memory.ext {m m' : Memory} (h : Memory.wf m = true) (h' : Memory.wf m' = true)
    (hr : ∀ a, Memory.read m a = Memory.read m' a) : m = m' :=
  Cells.ext h h' hr

theorem Memory.inBuf_write {m : Memory} {a : Nat} (v : Byte) (h : Memory.InBuf m)
    (ha : Config.bufBase ≤ a ∧ a < Config.bufBase + Config.bufBytes) : Memory.InBuf (Memory.write m a v) := by
  intro c hc
  rcases Cells.mem_write_key hc with h1 | h1
  · rw [h1]; exact ha
  · exact h c h1

/-! ### writeBytes -/

theorem Memory.wf_writeBytes {m : Memory} (a : Nat) (bs : List Byte) (h : Memory.wf m = true) :
    Memory.wf (Memory.writeBytes m a bs) = true := by
  induction bs generalizing m a with
  | nil => exact h
  | cons b bs ih => exact ih (a + 1) (Memory.wf_write a b h)

/-- A string store leaves every byte outside it alone. -/
theorem Memory.read_writeBytes_other (m : Memory) (a : Nat) (bs : List Byte) {k : Nat}
    (hk : k < a ∨ a + bs.length ≤ k) : Memory.read (Memory.writeBytes m a bs) k = Memory.read m k := by
  induction bs generalizing m a with
  | nil => rfl
  | cons b bs ih =>
    simp only [List.length_cons] at hk
    rw [Memory.writeBytes, ih _ (a + 1) (by omega), Memory.read_write_other m b (by omega)]

/-- A string store puts its bytes at consecutive offsets. -/
theorem Memory.read_writeBytes_same {m : Memory} (a : Nat) (bs : List Byte) (h : Memory.wf m = true) {j : Nat}
    (hj : j < bs.length) : Memory.read (Memory.writeBytes m a bs) (a + j) = bs[j] := by
  induction bs generalizing m a j with
  | nil => simp at hj
  | cons b bs ih =>
    rw [Memory.writeBytes]
    cases j with
    | zero =>
      rw [Memory.read_writeBytes_other _ _ _ (by omega), Memory.read_write _ _ _ h]
      simp
    | succ j =>
      have := ih (a + 1) (Memory.wf_write a b h) (j := j) (by simpa using hj)
      rw [show a + (j + 1) = a + 1 + j by omega, this]
      simp

theorem Memory.inBuf_writeBytes {m : Memory} {a : Nat} {bs : List Byte} (h : Memory.InBuf m)
    (ha : Config.bufBase ≤ a) (hl : a + bs.length ≤ Config.bufBase + Config.bufBytes) :
    Memory.InBuf (Memory.writeBytes m a bs) := by
  induction bs generalizing m a with
  | nil => exact h
  | cons b bs ih =>
    simp only [List.length_cons] at hl
    exact ih (Memory.inBuf_write b h ⟨ha, by omega⟩) (by omega) (by omega)

/-! ### storeLE and loadLE -/

theorem Memory.wf_storeLE {m : Memory} (a n : Nat) (v : Word) (h : Memory.wf m = true) :
    Memory.wf (Memory.storeLE m a n v) = true := by
  induction n generalizing m a v with
  | zero => exact h
  | succ n ih => exact ih (a + 1) (v >>> 8) (Memory.wf_write a _ h)

theorem Memory.inBuf_storeLE {m : Memory} {a n : Nat} (v : Word) (h : Memory.InBuf m)
    (ha : Config.bufBase ≤ a) (hl : a + n ≤ Config.bufBase + Config.bufBytes) :
    Memory.InBuf (Memory.storeLE m a n v) := by
  induction n generalizing m a v with
  | zero => exact h
  | succ n ih => exact ih _ (Memory.inBuf_write _ h ⟨ha, by omega⟩) (by omega) (by omega)

/-- A little-endian store leaves every byte outside it alone. -/
theorem Memory.read_storeLE_other (m : Memory) (a n : Nat) (v : Word) {k : Nat} (hk : k < a ∨ a + n ≤ k) :
    Memory.read (Memory.storeLE m a n v) k = Memory.read m k := by
  induction n generalizing m a v with
  | zero => rfl
  | succ n ih =>
    rw [Memory.storeLE, ih _ (a + 1) _ (by omega), Memory.read_write_other m _ (by omega)]

/-- A little-endian store puts byte j of the value at offset a + j (20_memory.md R66). -/
theorem Memory.read_storeLE_same {m : Memory} (a n : Nat) (v : Word) (h : Memory.wf m = true) {j : Nat} (hj : j < n) :
    Memory.read (Memory.storeLE m a n v) (a + j) = v.extractLsb' (8 * j) 8 := by
  induction n generalizing m a v j with
  | zero => omega
  | succ n ih =>
    rw [Memory.storeLE]
    cases j with
    | zero =>
      rw [Memory.read_storeLE_other _ _ _ _ (by omega), Memory.read_write _ _ _ h]
      ext i hi
      simp
    | succ j =>
      rw [show a + (j + 1) = a + 1 + j by omega, ih (a + 1) (v >>> 8) (Memory.wf_write a _ h) (by omega)]
      ext i hi
      simp only [BitVec.getElem_extractLsb', BitVec.getLsbD_ushiftRight]
      congr 1
      omega

/-- Bit 8*j + i of a little-endian load is bit i of the byte at offset a + j (20_memory.md R66). -/
theorem Memory.getLsbD_loadLE (m : Memory) (a n k : Nat) (hn : n ≤ 8) :
    (Memory.loadLE m a n).getLsbD k = (decide (k < 8 * n) && (Memory.read m (a + k / 8)).getLsbD (k % 8)) := by
  induction n generalizing a k with
  | zero => simp [Memory.loadLE]
  | succ n ih =>
    simp only [Memory.loadLE, BitVec.getLsbD_or, BitVec.getLsbD_setWidth, BitVec.getLsbD_shiftLeft]
    by_cases hk : k < 8
    · simp [hk, show k < 64 by omega, show k / 8 = 0 by omega, show k % 8 = k by omega,
        show k < 8 * (n + 1) by omega]
    · have hb : (Memory.read m a).getLsbD k = false := BitVec.getLsbD_of_ge _ _ (by omega)
      rw [ih (a + 1) (k - 8) (by omega), hb,
        show a + 1 + (k - 8) / 8 = a + k / 8 by omega, show (k - 8) % 8 = k % 8 by omega]
      by_cases h1 : k < 8 * (n + 1)
      · simp [hk, h1, show k < 64 by omega, show k - 8 < 8 * n by omega]
      · simp [h1, show ¬ (k - 8 < 8 * n) by omega]

/-- Byte j of a little-endian load is the byte at offset a + j (20_memory.md R66). -/
theorem Memory.extract_loadLE (m : Memory) (a n j : Nat) (hn : n ≤ 8) (hj : j < n) :
    (Memory.loadLE m a n).extractLsb' (8 * j) 8 = Memory.read m (a + j) := by
  ext i hi
  simp only [BitVec.getElem_extractLsb', Memory.getLsbD_loadLE _ _ _ _ hn]
  rw [show (8 * j + i) / 8 = j by omega, show (8 * j + i) % 8 = i by omega]
  simp [show 8 * j + i < 8 * n by omega, BitVec.getLsbD_eq_getElem hi]

/-- A load is a function of the bytes it reads. -/
theorem Memory.loadLE_congr {m m' : Memory} {a n : Nat} (h : ∀ j < n, Memory.read m (a + j) = Memory.read m' (a + j)) :
    Memory.loadLE m a n = Memory.loadLE m' a n := by
  induction n generalizing a with
  | zero => rfl
  | succ n ih =>
    have h0 := h 0 (by omega)
    simp only [Nat.add_zero] at h0
    rw [Memory.loadLE, Memory.loadLE, h0, ih]
    intro j hj
    have := h (j + 1) (by omega)
    rwa [show a + (j + 1) = a + 1 + j by omega] at this

/-- A load after a store of the same width at the same offset gives the stored bytes back, the rest 0. -/
theorem Memory.loadLE_storeLE {m : Memory} (a n : Nat) (v : Word) (hn : n ≤ 8) (h : Memory.wf m = true) :
    Memory.loadLE (Memory.storeLE m a n v) a n = (v.setWidth (8 * n)).setWidth 64 := by
  apply BitVec.eq_of_getLsbD_eq
  intro k hk
  rw [Memory.getLsbD_loadLE _ _ _ _ hn]
  by_cases h1 : k < 8 * n
  · rw [Memory.read_storeLE_same a n v h (by omega)]
    simp [h1, hk, show k % 8 < 8 by omega, show 8 * (k / 8) + k % 8 = k by omega]
  · simp [h1]

/-! ### The packed block -/

/-- A little-endian value as a number: the sum of its bytes by place (20_memory.md R66). -/
theorem Memory.loadLE_toNat (m : Memory) (a n : Nat) (hn : n ≤ 8) :
    (Memory.loadLE m a n).toNat = ∑ j ∈ Finset.range n, (Memory.read m (a + j)).toNat * 2 ^ (8 * j) := by
  have bound : ∀ n a, ∑ j ∈ Finset.range n, (Memory.read m (a + j)).toNat * 2 ^ (8 * j) < 2 ^ (8 * n) := by
    intro n
    induction n with
    | zero => intro a; simp
    | succ n ih =>
      intro a
      rw [Finset.sum_range_succ]
      have h1 := ih a
      have h2 := (Memory.read m (a + n)).isLt
      have h3 : (Memory.read m (a + n)).toNat * 2 ^ (8 * n) ≤ 255 * 2 ^ (8 * n) := Nat.mul_le_mul_right _ (by omega)
      have h4 : 2 ^ (8 * (n + 1)) = 256 * 2 ^ (8 * n) := by rw [Nat.mul_add, pow_add]; ring
      omega
  induction n generalizing a with
  | zero => rfl
  | succ n ih =>
    have hlt : (Memory.loadLE m (a + 1) n).toNat < 2 ^ (8 * n) := by rw [ih _ (by omega)]; exact bound _ _
    have hpow : 2 ^ (8 * n) ≤ 2 ^ 56 := Nat.pow_le_pow_right (by decide) (by omega)
    have hb := (Memory.read m a).isLt
    rw [Memory.loadLE, Finset.sum_range_succ', BitVec.toNat_or, BitVec.toNat_shiftLeft, BitVec.toNat_setWidth,
      Nat.shiftLeft_eq, Nat.mod_eq_of_lt (a := _ * _) (by omega), Nat.mod_eq_of_lt (by omega), Nat.or_comm,
      show (Memory.loadLE m (a + 1) n).toNat * 256 = (Memory.loadLE m (a + 1) n).toNat <<< 8 by rw [Nat.shiftLeft_eq],
      ← Nat.shiftLeft_add_eq_or_of_lt hb, Nat.shiftLeft_eq, ih _ (by omega), Finset.sum_mul]
    congr 1
    · apply Finset.sum_congr rfl
      intro j _
      rw [show a + 1 + j = a + (j + 1) by omega, Nat.mul_add, pow_add]
      ring
    · simp

theorem wf_storeWords {m : Memory} (a : Nat) (ws : List Word) (h : Memory.wf m = true) :
    Memory.wf (storeWords m a ws) = true := by
  induction ws generalizing m a with
  | nil => exact h
  | cons x xs ih => exact ih (a + 8) (Memory.wf_storeLE a 8 x h)

theorem read_storeWords_other (m : Memory) (a : Nat) (ws : List Word) {k : Nat} (hk : k < a ∨ a + 8 * ws.length ≤ k) :
    Memory.read (storeWords m a ws) k = Memory.read m k := by
  induction ws generalizing m a with
  | nil => rfl
  | cons x xs ih =>
    simp only [List.length_cons] at hk
    rw [storeWords, ih _ (a + 8) (by omega), Memory.read_storeLE_other _ _ _ _ (by omega)]

theorem read_storeWords_same {m : Memory} (a : Nat) (ws : List Word) (h : Memory.wf m = true) {k : Nat}
    (hk : k < 8 * ws.length) :
    Memory.read (storeWords m a ws) (a + k) = (ws[k / 8]'(by omega)).extractLsb' (8 * (k % 8)) 8 := by
  induction ws generalizing m a k with
  | nil => simp at hk
  | cons x xs ih =>
    simp only [List.length_cons] at hk
    rw [storeWords]
    by_cases h8 : k < 8
    · rw [read_storeWords_other _ _ _ (by omega), Memory.read_storeLE_same a 8 x h h8]
      simp [show k / 8 = 0 by omega, show k % 8 = k by omega]
    · have := ih (a + 8) (Memory.wf_storeLE a 8 x h) (k := k - 8) (by omega)
      rw [show a + k = a + 8 + (k - 8) by omega, this]
      simp only [show k / 8 = (k - 8) / 8 + 1 by omega, List.getElem_cons_succ, show (k - 8) % 8 = k % 8 by omega]

theorem inBuf_storeWords {m : Memory} {a : Nat} {ws : List Word} (h : Memory.InBuf m) (ha : Config.bufBase ≤ a)
    (hl : a + 8 * ws.length ≤ Config.bufBase + Config.bufBytes) : Memory.InBuf (storeWords m a ws) := by
  induction ws generalizing m a with
  | nil => exact h
  | cons x xs ih =>
    simp only [List.length_cons] at hl
    exact ih (Memory.inBuf_storeLE x h ha (by omega)) (by omega) (by omega)

/-- Everything `pack()` does to the buffer (42_transform.md R137), byte by byte. -/
theorem read_packWords {m : Memory} (w : Words) (h : Memory.wf m = true) (a : Nat) :
    Memory.read (packWords m w) a =
      if hb : 0x100 ≤ a ∧ a < 0x150 then (w[(a - 0x100) / 8]'(by omega)).extractLsb' (8 * ((a - 0x100) % 8)) 8
      else Memory.read m a := by
  unfold packWords
  split
  · rename_i hb
    have := read_storeWords_same (m := m) Config.bufBase w.toList h (k := a - 0x100) (by simp; omega)
    rw [show Config.bufBase + (a - 0x100) = a by simp [Config.bufBase]; omega] at this
    rw [this]
    simp
  · rw [read_storeWords_other]
    simp [Config.bufBase]
    omega

theorem read_packWords_other (m : Memory) (w : Words) {a : Nat} (h : a < 0x100 ∨ 0x150 ≤ a) :
    Memory.read (packWords m w) a = Memory.read m a := by
  unfold packWords
  exact read_storeWords_other _ _ _ (by simp [Config.bufBase]; omega)

theorem wf_packWords {m : Memory} (w : Words) (h : Memory.wf m = true) : Memory.wf (packWords m w) = true :=
  wf_storeWords _ _ h

theorem inBuf_packWords {m : Memory} (w : Words) (h : Memory.InBuf m) : Memory.InBuf (packWords m w) :=
  inBuf_storeWords h (Nat.le_refl _) (by simp [Config.bufBase, Config.bufBytes])

/-- `unpack()` word by word (42_transform.md R136). -/
@[simp] theorem getElem_unpackWords (m : Memory) (i : Nat) (h : i < 10) :
    (unpackWords m)[i] = Memory.loadLE m (Config.bufBase + 8 * i) 8 := by
  simp [unpackWords]

/-- Byte j of the unpacked word i is BUF[8i + j] (42_transform.md R136). -/
theorem extract_unpackWords (m : Memory) (i j : Nat) (hi : i < 10) (hj : j < 8) :
    ((unpackWords m)[i]).extractLsb' (8 * j) 8 = Memory.read m (0x100 + (8 * i + j)) := by
  rw [getElem_unpackWords, Memory.extract_loadLE _ _ _ _ (by omega) hj]
  congr 1
  simp [Config.bufBase]
  omega

/-- `unpack()` reads BUF[0..79] and nothing else (42_transform.md R136). -/
theorem unpackWords_congr {m m' : Memory} (h : ∀ k < 80, Memory.read m (0x100 + k) = Memory.read m' (0x100 + k)) :
    unpackWords m = unpackWords m' := by
  apply Vector.ext
  intro i hi
  rw [getElem_unpackWords, getElem_unpackWords]
  refine Memory.loadLE_congr fun j hj => ?_
  have := h (8 * i + j) (by omega)
  rwa [show Config.bufBase + 8 * i + j = 0x100 + (8 * i + j) by simp [Config.bufBase]; omega]

/-- Two words with the same eight bytes are the same word. -/
theorem Word.ext_bytes {x y : Word} (h : ∀ j < 8, x.extractLsb' (8 * j) 8 = y.extractLsb' (8 * j) 8) : x = y := by
  apply BitVec.eq_of_getLsbD_eq
  intro k hk
  have h1 := congrArg (fun b : BitVec 8 => b.getLsbD (k % 8)) (h (k / 8) (by omega))
  simp only [BitVec.getLsbD_extractLsb', show k % 8 < 8 by omega, decide_true, Bool.true_and,
    show 8 * (k / 8) + k % 8 = k by omega] at h1
  exact h1

/-! ### Padding and finalization (43_driver.md R166, R167) -/

theorem wf_padInput {m : Memory} (n : Nat) (h : Memory.wf m = true) : Memory.wf (padInput n m) = true :=
  Memory.wf_write _ _ (Memory.wf_writeBytes _ _ h)

/-- Everything `pad(n)` does to the buffer, byte by byte (43_driver.md R166). -/
theorem read_padInput {m : Memory} {n : Nat} (hn : n < 100) (h : Memory.wf m = true) (k : Nat) :
    Memory.read (padInput n m) (0x100 + k) =
      if k = n then 1 else if n ≤ k ∧ k < 100 then 0 else Memory.read m (0x100 + k) := by
  unfold padInput
  rw [Memory.read_write _ _ _ (Memory.wf_writeBytes _ _ h)]
  simp only [Config.bufBase, Config.bufBytes, Nat.add_left_cancel_iff]
  split
  · rfl
  · split
    · rename_i hk
      have := Memory.read_writeBytes_same (m := m) (0x100 + n) (List.replicate (100 - n) 0) h (j := k - n) (by simp; omega)
      rw [show 0x100 + n + (k - n) = 0x100 + k by omega] at this
      simpa using this
    · rw [Memory.read_writeBytes_other]
      simp
      omega

theorem read_padInput_below (m : Memory) (n : Nat) {a : Nat} (h : a < 0x100 ∨ 0x164 ≤ a) (hn : n < 100) :
    Memory.read (padInput n m) a = Memory.read m a := by
  unfold padInput
  rw [Memory.read_write_other _ _ (by simp [Config.bufBase]; omega), Memory.read_writeBytes_other]
  simp [Config.bufBase, Config.bufBytes]
  omega

theorem inBuf_padInput {m : Memory} {n : Nat} (h : Memory.InBuf m) (hn : n < 100) : Memory.InBuf (padInput n m) :=
  Memory.inBuf_write _
    (Memory.inBuf_writeBytes h (Nat.le_add_right _ _) (by simp [Config.bufBase, Config.bufBytes]; omega))
    ⟨Nat.le_add_right _ _, by simp [Config.bufBase, Config.bufBytes]; omega⟩

@[simp] theorem getElem_bufBlock (m : Memory) (k : Nat) (h : k < 100) :
    (bufBlock m)[k] = Memory.read m (0x100 + k) := by
  simp [bufBlock, Config.bufBase]

theorem wf_finalize {final : Block → Block} {m : Memory} (h : Memory.wf m = true) : Memory.wf (finalize final m) = true :=
  Memory.wf_writeBytes _ _ h

/-- The buffer after finalization holds FINAL's output (43_driver.md R167). -/
theorem read_finalize {final : Block → Block} {m : Memory} (h : Memory.wf m = true) (k : Nat) (hk : k < 100) :
    Memory.read (finalize final m) (0x100 + k) = (final (bufBlock m))[k] := by
  have := Memory.read_writeBytes_same (m := m) Config.bufBase (final (bufBlock m)).toList h (j := k) (by simpa using hk)
  simpa [finalize, Config.bufBase] using this

theorem read_finalize_other (final : Block → Block) (m : Memory) {a : Nat} (h : a < 0x100 ∨ 0x164 ≤ a) :
    Memory.read (finalize final m) a = Memory.read m a := by
  unfold finalize
  exact Memory.read_writeBytes_other _ _ _ (by simp [Config.bufBase]; omega)

theorem inBuf_finalize {final : Block → Block} {m : Memory} (h : Memory.InBuf m) : Memory.InBuf (finalize final m) :=
  Memory.inBuf_writeBytes h (Nat.le_refl _) (by simp [Config.bufBase, Config.bufBytes])

end Sys2Proof.Machine
end

