-- ==== Sys2Proof/Laws/PerInstr.lean ====
section
/-! SUPPORT. Statements about every command as syntax, one lemma for each constructor: its word's reserved bits are 0 and
its OP field selects its operation (spec/30_encoding.md R87, R88, R93). -/

namespace Sys2Proof.Laws.WordFormat

open Sys2Proof

/-- The word of a command has zeros in the reserved bits [11:9], [15] and [31:23], and an OP the opcode map assigns. -/
abbrev Statement (i : Instr) : Prop :=
  encode i &&& 0xFF808E00 = 0 ∧ (Op.ofCode ((encode i).extractLsb' 0 8)).isSome = true

theorem nop : Statement (.nop) := by decide

theorem build : Statement (.build) := by decide

theorem chksched : Statement (.chksched) := by decide

theorem prngSeed : Statement (.prngSeed) := by decide

theorem prngNext32 : Statement (.prngNext32) := by decide

theorem prngNext64 : Statement (.prngNext64) := by decide

theorem prngBounded : Statement (.prngBounded) := by decide

theorem unpack : Statement (.unpack) := by decide

theorem pack : Statement (.pack) := by decide

theorem premix : Statement (.premix) := by decide

theorem mswap (d : BitVec 1) (s : BitVec 3) : Statement (.mswap d s) := by
  revert d s
  decide

theorem wshuf : Statement (.wshuf) := by decide

theorem prot (d : BitVec 1) (s : BitVec 3) : Statement (.prot d s) := by
  revert d s
  decide

theorem perm (d : BitVec 1) : Statement (.perm d) := by
  revert d
  decide

theorem subst : Statement (.subst) := by decide

theorem lmix : Statement (.lmix) := by decide

theorem rkey (r : BitVec 7) : Statement (.rkey r) := by
  revert r
  decide

theorem round (r : BitVec 7) : Statement (.round r) := by
  revert r
  decide

theorem encrypt : Statement (.encrypt) := by decide

theorem hash : Statement (.hash) := by decide

end Sys2Proof.Laws.WordFormat
end

