-- ==== Sys2Proof/Laws/Prng.lean ====
section
/-! SUPPORT. The PRNG and the draws of the schedule builder: how many draws each primitive makes, where in the sequence
each entry is drawn, and that a shuffle is a permutation. -/

namespace Sys2Proof.Machine

/-- The PRNG registers after `k` draws (40_prng.md R106). -/
def Prng.advance (P : PrngParams) : Nat → Prng → Prng
  | 0, g => g
  | k + 1, g => Prng.advance P k (g.next32 P).2

@[simp] theorem Prng.advance_zero (P : PrngParams) (g : Prng) : Prng.advance P 0 g = g := rfl

theorem Prng.advance_add (P : PrngParams) (a b : Nat) (g : Prng) :
    Prng.advance P b (Prng.advance P a g) = Prng.advance P (a + b) g := by
  induction a generalizing g with
  | zero => simp
  | succ a ih => rw [Nat.succ_add]; exact ih _

theorem Prng.advance_one (P : PrngParams) (g : Prng) : (g.next32 P).2 = Prng.advance P 1 g := rfl

theorem Prng.advance_succ (P : PrngParams) (k : Nat) (g : Prng) :
    Prng.advance P (k + 1) g = ((Prng.advance P k g).next32 P).2 := by
  rw [← Prng.advance_add P k 1]; rfl

/-- A bounded draw is one draw (40_prng.md R108). -/
@[simp] theorem Prng.bounded_snd (P : PrngParams) (n : BitVec 32) (g : Prng) :
    (g.bounded P n).2 = Prng.advance P 1 g := rfl

/-- A 64-bit draw is two draws (40_prng.md R107). -/
@[simp] theorem Prng.next64_snd (P : PrngParams) (g : Prng) : (g.next64 P).2 = Prng.advance P 2 g := rfl

/-- The three registers after a draw (40_prng.md R106). -/
theorem Prng.next32_snd (P : PrngParams) (g : Prng) :
    (g.next32 P).2 =
      { cur := g.cur * (g.mul * P.baseMul) + (g.add + g.mul * P.baseAdd)
        mul := g.mul * P.baseMul
        add := g.add + g.mul * P.baseAdd } := rfl

/-- The draw is the high half of CUR (40_prng.md R106). -/
theorem Prng.next32_fst (P : PrngParams) (g : Prng) :
    (g.next32 P).1 = (g.next32 P).2.cur.extractLsb' 32 32 := rfl

/-- Putting two halves together, as numbers. -/
theorem BitVec.append_toNat_halves (x y : BitVec 32) : (x ++ y).toNat = x.toNat * 2 ^ 32 + y.toNat := by
  rw [BitVec.toNat_append, ← Nat.shiftLeft_add_eq_or_of_lt y.isLt, Nat.shiftLeft_eq]

/-- The value of a bounded draw as a natural number: the exact product with the bound, shifted right by 32 (R108). -/
theorem Prng.bounded_toNat (P : PrngParams) (n : BitVec 32) (g : Prng) :
    (g.bounded P n).1.toNat = (g.next32 P).1.toNat * n.toNat / 2 ^ 32 := by
  have hx := (g.next32 P).1.isLt
  have hn := n.isLt
  have hm : (g.next32 P).1.toNat * n.toNat < 2 ^ 64 := by
    calc (g.next32 P).1.toNat * n.toNat ≤ (2 ^ 32 - 1) * (2 ^ 32 - 1) := Nat.mul_le_mul (by omega) (by omega)
      _ < 2 ^ 64 := by norm_num
  have hq : (g.next32 P).1.toNat * n.toNat / 2 ^ 32 < 2 ^ 32 := by omega
  simp only [Prng.bounded, BitVec.extractLsb'_toNat, BitVec.toNat_mul, BitVec.toNat_setWidth, Nat.shiftRight_eq_div_pow]
  rw [Nat.mod_eq_of_lt (a := (g.next32 P).1.toNat) (by omega), Nat.mod_eq_of_lt (a := n.toNat) (by omega),
    Nat.mod_eq_of_lt hm, Nat.mod_eq_of_lt hq]

/-- A bounded draw lies below its bound (40_prng.md R108). -/
theorem Prng.bounded_lt (P : PrngParams) (n : BitVec 32) (g : Prng) (h : 0 < n.toNat) :
    (g.bounded P n).1.toNat < n.toNat := by
  rw [Prng.bounded_toNat]
  have hx := (g.next32 P).1.isLt
  exact Nat.div_lt_of_lt_mul (Nat.mul_lt_mul_of_pos_right hx h)

/-! ### shuffle -/

theorem shuffleSteps_snd (P : PrngParams) (size : Nat) (g : Prng) (k : Nat) :
    (shuffleSteps P size g k).2 = Prng.advance P k g := by
  induction k with
  | zero => rfl
  | succ k ih => rw [shuffleSteps, Prng.bounded_snd, ih, Prng.advance_add]

/-- A shuffle makes size - 1 draws (40_prng.md R109). -/
@[simp] theorem shuffle_snd (P : PrngParams) (size : Nat) (g : Prng) :
    (shuffle P size g).2 = Prng.advance P (size - 1) g := shuffleSteps_snd P size g (size - 1)

/-- Swapping two places permutes the values, in or out of bounds. -/
theorem swapIfInBounds_perm {α : Type} {n : Nat} (v : Vector α n) (i j : Nat) :
    (v.swapIfInBounds i j).toList.Perm v.toList := by
  have h : (v.toArray.swapIfInBounds i j).toList.Perm v.toArray.toList := by
    rw [Array.swapIfInBounds_def]
    split
    · split
      · exact (Array.swap_perm _ _).toList
      · exact List.Perm.refl _
    · exact List.Perm.refl _
  exact h

/-- A swap inside the bounds, place by place. -/
theorem getElem_swapIfInBounds {α : Type} {n : Nat} (v : Vector α n) (i j : Nat) (hi : i < n) (hj : j < n) (x : Nat)
    (hx : x < n) : (v.swapIfInBounds i j)[x] = if x = i then v[j] else if x = j then v[i] else v[x] := by
  have e : v.swapIfInBounds i j = v.swap i j := by
    apply Vector.toArray_inj.mp
    simp [Vector.swapIfInBounds, Vector.swap, Array.swapIfInBounds_def, hi, hj]
  rw [e, Vector.getElem_swap]

/-- The j of an iteration of the shuffle is at most its i (40_prng.md R109). -/
theorem Prng.bounded_ofNat_lt (P : PrngParams) (n : Nat) (g : Prng) (h0 : 0 < n) (h : n < 2 ^ 32) :
    (g.bounded P (BitVec.ofNat 32 n)).1.toNat < n := by
  have e : (BitVec.ofNat 32 n).toNat = n := by rw [BitVec.toNat_ofNat, Nat.mod_eq_of_lt h]
  have := Prng.bounded_lt P (BitVec.ofNat 32 n) g (by rw [e]; exact h0)
  rwa [e] at this

theorem toList_ofFn_val (size : Nat) : (Vector.ofFn (fun i : Fin size => i.val)).toList = List.range size := by
  apply List.ext_getElem
  · simp
  · intro i h1 h2
    simp

/-- A shuffle permutes [0, size), whatever the draws (40_prng.md R109). -/
theorem shuffle_perm (P : PrngParams) (size : Nat) (g : Prng) :
    (shuffle P size g).1.toList.Perm (List.range size) := by
  unfold shuffle
  induction size - 1 with
  | zero => rw [shuffleSteps, toList_ofFn_val]
  | succ k ih => exact (swapIfInBounds_perm _ _ _).trans ih

/-- Every entry of a shuffle lies in [0, size). -/
theorem shuffle_lt (P : PrngParams) (size : Nat) (g : Prng) (x : Nat) (hx : x < size) :
    (shuffle P size g).1[x] < size := by
  have : (shuffle P size g).1[x] ∈ (shuffle P size g).1.toList := by simp
  simpa using (shuffle_perm P size g).subset this

/-! ### drawVec -/

/-- Where a run of draws leaves the PRNG, when each takes `c` draws. -/
theorem drawVec_snd {α : Type} (P : PrngParams) (c : Nat) (draw : Prng → α × Prng)
    (h : ∀ g, (draw g).2 = Prng.advance P c g) (n : Nat) (g : Prng) :
    (drawVec n draw g).2 = Prng.advance P (n * c) g := by
  induction n with
  | zero => simp [drawVec]
  | succ n ih => rw [drawVec, h, ih, Prng.advance_add, Nat.succ_mul]

/-- Entry `i` of a run of draws is drawn after `i * c` draws. -/
theorem drawVec_get {α : Type} (P : PrngParams) (c : Nat) (draw : Prng → α × Prng)
    (h : ∀ g, (draw g).2 = Prng.advance P c g) (n : Nat) (g : Prng) (i : Nat) (hi : i < n) :
    (drawVec n draw g).1[i] = (draw (Prng.advance P (i * c) g)).1 := by
  induction n with
  | zero => omega
  | succ n ih =>
    simp only [drawVec, Vector.getElem_push]
    split
    · exact ih (by assumption)
    · rw [show i = n by omega, drawVec_snd P c draw h]

@[simp] theorem drawTable_snd (P : PrngParams) (size w : Nat) (g : Prng) :
    (drawTable P size w g).2 = Prng.advance P (size - 1) g := by simp [drawTable]

@[simp] theorem drawAmount_snd (P : PrngParams) (g : Prng) : (drawAmount P g).2 = Prng.advance P 1 g := rfl

@[simp] theorem drawRoundKey_snd (P : PrngParams) (g : Prng) : (drawRoundKey P g).2 = Prng.advance P 1 g := rfl

/-- An entry of a table is the shuffle's (41_schedule.md R123). -/
theorem drawTable_toNat (P : PrngParams) {size w : Nat} (g : Prng) (hw : size ≤ 2 ^ w) (x : Nat) (hx : x < size) :
    ((drawTable P size w g).1[x]).toNat = (shuffle P size g).1[x] := by
  simp only [drawTable, Vector.getElem_ofFn, BitVec.toNat_ofNat, Fin.getElem_fin]
  exact Nat.mod_eq_of_lt (Nat.lt_of_lt_of_le (shuffle_lt P size g x hx) hw)

/-- A rotation amount is its draw plus one (41_schedule.md R124). -/
theorem drawAmount_toNat (P : PrngParams) (g : Prng) : ((drawAmount P g).1).toNat = (g.bounded P 63).1.toNat + 1 := by
  have h : (g.bounded P 63).1.toNat < 63 := Prng.bounded_lt P 63 g (by decide)
  rw [drawAmount]
  simp only [BitVec.toNat_ofNat]
  exact Nat.mod_eq_of_lt (Nat.lt_of_lt_of_le (Nat.succ_lt_succ h) (by decide))

/-- A rotation amount lies in [1, 63] (10_state.md R45 (c)). -/
theorem drawAmount_range (P : PrngParams) (g : Prng) :
    1 ≤ ((drawAmount P g).1).toNat ∧ ((drawAmount P g).1).toNat ≤ 63 := by
  have h : (g.bounded P 63).1.toNat < 63 := Prng.bounded_lt P 63 g (by decide)
  rw [drawAmount_toNat]
  exact ⟨Nat.le_add_left _ _, h⟩

/-- A round key is its draw (41_schedule.md R126). -/
theorem drawRoundKey_toNat (P : PrngParams) (g : Prng) :
    ((drawRoundKey P g).1).toNat = (g.bounded P 1024).1.toNat := by
  have h : (g.bounded P 1024).1.toNat < 1024 := Prng.bounded_lt P 1024 g (by decide)
  rw [drawRoundKey]
  simp only [BitVec.toNat_setWidth]
  exact Nat.mod_eq_of_lt (Nat.lt_of_lt_of_le h (by decide))

theorem drawMaskRow_snd (P : PrngParams) (g : Prng) :
    (drawVec 5 (Prng.next64 P) g).2 = Prng.advance P 10 g := by
  rw [drawVec_snd P 2 _ (Prng.next64_snd P)]

theorem drawMaskRows_snd (P : PrngParams) (g : Prng) :
    (drawVec 6 (drawVec 5 (Prng.next64 P)) g).2 = Prng.advance P 60 g := by
  rw [drawVec_snd P 10 _ (drawMaskRow_snd P)]

theorem drawAmountRow_snd (P : PrngParams) (g : Prng) :
    (drawVec 5 (drawAmount P) g).2 = Prng.advance P 5 g := by
  rw [drawVec_snd P 1 _ (drawAmount_snd P)]

theorem drawAmountRows_snd (P : PrngParams) (g : Prng) :
    (drawVec 5 (drawVec 5 (drawAmount P)) g).2 = Prng.advance P 25 g := by
  rw [drawVec_snd P 5 _ (drawAmountRow_snd P)]

/-- A descriptor takes 85 draws (41_schedule.md R124, R127). -/
@[simp] theorem drawPbox_snd (P : PrngParams) (g : Prng) : (drawPbox P g).2 = Prng.advance P 85 g := by
  simp only [drawPbox]
  rw [drawAmountRows_snd, drawMaskRows_snd, Prng.advance_add]

/-- Where the parts of BUILD begin in the sequence of draws from `seed(KEY)` (41_schedule.md R127). -/
theorem buildSchedule_parts (P : PrngParams) (key : BitVec 32) :
    (drawVec 40 (drawTable P 64 6) (Prng.seed key)).2 = Prng.advance P 2520 (Prng.seed key) ∧
    (drawVec 10 (drawTable P 1024 10) (Prng.advance P 2520 (Prng.seed key))).2 =
      Prng.advance P 12750 (Prng.seed key) ∧
    (drawVec 2 (drawPbox P) (Prng.advance P 12750 (Prng.seed key))).2 = Prng.advance P 12920 (Prng.seed key) ∧
    (shuffle P 63 (Prng.advance P 12920 (Prng.seed key))).2 = Prng.advance P 12982 (Prng.seed key) ∧
    (drawVec 84 (drawRoundKey P) (Prng.advance P 12982 (Prng.seed key))).2 =
      Prng.advance P 13066 (Prng.seed key) := by
  refine ⟨?_, ?_, ?_, ?_, ?_⟩
  · rw [drawVec_snd P 63 _ (drawTable_snd P 64 6)]
  · rw [drawVec_snd P 1023 _ (drawTable_snd P 1024 10), Prng.advance_add]
  · rw [drawVec_snd P 85 _ (drawPbox_snd P), Prng.advance_add]
  · rw [shuffle_snd, Prng.advance_add]
  · rw [drawVec_snd P 1 _ (drawRoundKey_snd P), Prng.advance_add]

/-- The schedule BUILD writes, each part at its place in the sequence of draws, and the PRNG it leaves. -/
theorem buildSchedule_eq (P : PrngParams) (key : BitVec 32) :
    buildSchedule P key =
      ({ sbox1 := (drawVec 40 (drawTable P 64 6) (Prng.seed key)).1
         sbox2 := (drawVec 10 (drawTable P 1024 10) (Prng.advance P 2520 (Prng.seed key))).1
         pbox := (drawVec 2 (drawPbox P) (Prng.advance P 12750 (Prng.seed key))).1
         rot := rotationSet (shuffle P 63 (Prng.advance P 12920 (Prng.seed key))).1
         rkey := (drawVec 84 (drawRoundKey P) (Prng.advance P 12982 (Prng.seed key))).1 },
       Prng.advance P 13066 (Prng.seed key)) := by
  obtain ⟨h1, h2, h3, h4, h5⟩ := buildSchedule_parts P key
  simp only [buildSchedule, h1, h2, h3, h4, h5]

/-! ### The tests of CHKSCHED -/

/-- A full table reaches every value of its width (41_schedule.md R130). -/
theorem isFullTable_iff {w n : Nat} (t : Vector (BitVec w) n) :
    isFullTable t = true ↔ ∀ y : BitVec w, ∃ x, ∃ _ : x < n, t[x] = y := by
  unfold isFullTable
  simp only [List.all_eq_true, List.mem_range, List.contains_iff_mem]
  constructor
  · intro h y
    have hy := h y.toNat y.isLt
    simp only [BitVec.ofNat_toNat, BitVec.setWidth_eq] at hy
    obtain ⟨x, hx, e⟩ := List.mem_iff_getElem.mp hy
    exact ⟨x, by simpa using hx, by simpa using e⟩
  · intro h y _
    obtain ⟨x, hx, e⟩ := h (BitVec.ofNat w y)
    rw [← e]
    simp

/-- A legal rotation amount lies in [1, 63] (10_state.md R45). -/
theorem isAmount_iff (r : BitVec 6) : isAmount r = true ↔ 1 ≤ r.toNat ∧ r.toNat ≤ 63 := by
  revert r; decide

/-! ### The entries of a built schedule, each at its place in the sequence of draws -/

theorem buildSchedule_snd (P : PrngParams) (key : BitVec 32) :
    (buildSchedule P key).2 = Prng.advance P 13066 (Prng.seed key) := by
  rw [buildSchedule_eq]

theorem buildSchedule_rot (P : PrngParams) (key : BitVec 32) :
    (buildSchedule P key).1.rot = rotationSet (shuffle P 63 (Prng.advance P 12920 (Prng.seed key))).1 := by
  rw [buildSchedule_eq]

theorem buildSchedule_sbox1 (P : PrngParams) (key : BitVec 32) (t : Nat) (h : t < 40) :
    (buildSchedule P key).1.sbox1[t] = (drawTable P 64 6 (Prng.advance P (t * 63) (Prng.seed key))).1 := by
  have e : (buildSchedule P key).1.sbox1 = (drawVec 40 (drawTable P 64 6) (Prng.seed key)).1 := by rw [buildSchedule_eq]
  simp only [e]
  exact drawVec_get P 63 _ (drawTable_snd P 64 6) _ _ _ h

theorem buildSchedule_sbox2 (P : PrngParams) (key : BitVec 32) (t : Nat) (h : t < 10) :
    (buildSchedule P key).1.sbox2[t] = (drawTable P 1024 10 (Prng.advance P (2520 + t * 1023) (Prng.seed key))).1 := by
  have e : (buildSchedule P key).1.sbox2 = (drawVec 10 (drawTable P 1024 10) (Prng.advance P 2520 (Prng.seed key))).1 := by
    rw [buildSchedule_eq]
  simp only [e]
  rw [← Prng.advance_add]
  exact drawVec_get P 1023 _ (drawTable_snd P 1024 10) _ _ _ h

theorem buildSchedule_pbox (P : PrngParams) (key : BitVec 32) (d : Nat) (h : d < 2) :
    (buildSchedule P key).1.pbox[d] = (drawPbox P (Prng.advance P (12750 + d * 85) (Prng.seed key))).1 := by
  have e : (buildSchedule P key).1.pbox = (drawVec 2 (drawPbox P) (Prng.advance P 12750 (Prng.seed key))).1 := by
    rw [buildSchedule_eq]
  simp only [e]
  rw [← Prng.advance_add]
  exact drawVec_get P 85 _ (drawPbox_snd P) _ _ _ h

theorem buildSchedule_rkey (P : PrngParams) (key : BitVec 32) (r : Nat) (h : r < 84) :
    (buildSchedule P key).1.rkey[r] = (drawRoundKey P (Prng.advance P (12982 + r) (Prng.seed key))).1 := by
  have e : (buildSchedule P key).1.rkey = (drawVec 84 (drawRoundKey P) (Prng.advance P 12982 (Prng.seed key))).1 := by
    rw [buildSchedule_eq]
  simp only [e]
  rw [← Prng.advance_add, drawVec_get P 1 _ (drawRoundKey_snd P) _ _ _ h, Nat.mul_one]

/-- A mask of a drawn descriptor (41_schedule.md R124). -/
theorem drawPbox_mask (P : PrngParams) (g : Prng) (s k : Nat) (hs : s < 6) (hk : k < 5) :
    (drawPbox P g).1.mask[s][k] = ((Prng.advance P (s * 10 + k * 2) g).next64 P).1 := by
  have row : (drawPbox P g).1.mask[s] = (drawVec 5 (Prng.next64 P) (Prng.advance P (s * 10) g)).1 :=
    drawVec_get P 10 _ (drawMaskRow_snd P) _ _ _ hs
  simp only [row]
  rw [drawVec_get P 2 _ (Prng.next64_snd P) _ _ _ hk, Prng.advance_add]

/-- An amount of a drawn descriptor (41_schedule.md R124). -/
theorem drawPbox_rot (P : PrngParams) (g : Prng) (s k : Nat) (hs : s < 5) (hk : k < 5) :
    (drawPbox P g).1.rot[s][k] = (drawAmount P (Prng.advance P (60 + (s * 5 + k)) g)).1 := by
  have row : (drawPbox P g).1.rot[s] = (drawVec 5 (drawAmount P) (Prng.advance P (60 + s * 5) g)).1 := by
    rw [← Prng.advance_add, ← drawMaskRows_snd]
    exact drawVec_get P 5 _ (drawAmountRow_snd P) _ _ _ hs
  simp only [row]
  rw [drawVec_get P 1 _ (drawAmount_snd P) _ _ _ hk, Prng.advance_add, Nat.mul_one, Nat.add_assoc]

end Sys2Proof.Machine
end

