-- ==== Sys2Proof/Laws/Step.lean ====
section
/-! SUPPORT. What a step can do, said once: which agent moves and what each agent's move answers. -/

namespace Sys2Proof.Machine

theorem step_nil {s : State} (h : s.turns = []) : step s = takeTurn (defaultTurn s) s := by
  simp only [step, h]

theorem step_cons {s : State} {t : Turn} {ts : List Turn} (h : s.turns = t :: ts) :
    step s = takeTurn t { s with turns := ts } := by
  simp only [step, h]

theorem engineStep_idle {s : State} (h : s.eng.pend = none) : engineStep s = .next s := by
  simp only [engineStep, h]

/-- The engine runs the command it decodes from PEND (20_memory.md R79). -/
theorem engineStep_pending {s : State} {w : CmdWord} {i : Instr} (h : s.eng.pend = some w) (hd : decode w = .ok i) :
    engineStep s = exec i s := by
  simp only [engineStep, h, hd]

/-- Everything the engine's move can answer: a next state in which only the engine changed. -/
theorem engineStep_next (s : State) : ∃ e, engineStep s = .next { s with eng := e } := by
  unfold engineStep
  split
  · exact ⟨s.eng, rfl⟩
  · split
    · exact exec_next _ s
    · exact ⟨_, rfl⟩

/-- A label that is not found stands nowhere in the program. -/
theorem labelPos_eq_none {l : Nat} {ss : List HostStmt} {n : Nat} (h : labelPos l n ss = none) (p : Nat) :
    ss[p]? ≠ some (.label l) := by
  induction ss generalizing n p with
  | nil => simp
  | cons a ss ih =>
    have rest : labelPos l (n + 1) ss = none := by
      cases a with
      | label k =>
        simp only [labelPos] at h
        split at h
        · cases h
        · exact h
      | wr | rd | bnz | halt => exact h
    cases p with
    | zero =>
      intro e
      simp only [List.getElem?_cons_zero, Option.some.injEq] at e
      subst e
      simp [labelPos] at h
    | succ p => simpa using ih rest p

/-- A label is found at its first place. -/
theorem labelPos_eq_first {l : Nat} {ss : List HostStmt} (n : Nat) {p : Nat} (h : ss[p]? = some (.label l))
    (hf : ∀ q, q < p → ss[q]? ≠ some (.label l)) : labelPos l n ss = some (n + p) := by
  induction ss generalizing n p with
  | nil => simp at h
  | cons a ss ih =>
    cases p with
    | zero =>
      simp only [List.getElem?_cons_zero, Option.some.injEq] at h
      simp [h, labelPos]
    | succ p =>
      have rest := ih (n + 1) (p := p) (by simpa using h) fun q hq => by simpa using hf (q + 1) (by omega)
      have first := hf 0 (by omega)
      rw [show n + (p + 1) = n + 1 + p by omega]
      cases a with
      | label k =>
        simp only [List.getElem?_cons_zero, ne_eq, Option.some.injEq, HostStmt.label.injEq] at first
        simp [labelPos, first, rest]
      | wr | rd | bnz | halt => simpa [labelPos] using rest

/-- Everything the host's move can answer; it faults only at a taken branch whose label the program does not have. -/
theorem hostStep_cases (s : State) :
    (∃ h, hostStep s = .next { s with host := h }) ∨
    (∃ a h, hostStep s = .next { s with eng := (access a s.eng).2, host := h }) ∨
    (∃ x mask l, s.host.program[s.host.pos]? = some (.bnz x mask l) ∧ labelPos l 0 s.host.program = none ∧
      hostStep s = .fault (.noSuchLabel l)) := by
  unfold hostStep
  split
  · exact .inl ⟨s.host, rfl⟩
  · exact .inl ⟨s.host, rfl⟩
  · exact .inl ⟨_, rfl⟩
  · exact .inr (.inl ⟨_, _, rfl⟩)
  · exact .inr (.inl ⟨_, _, rfl⟩)
  · rename_i x mask l hst
    split
    · exact .inl ⟨_, rfl⟩
    · split
      · exact .inl ⟨_, rfl⟩
      · rename_i hl
        exact .inr (.inr ⟨x, mask, l, hst, hl, rfl⟩)

/-- Everything an agent's move can answer: a next state in which only the engine and the host changed, or the host's fault. -/
theorem takeTurn_cases (t : Turn) (s : State) :
    (∃ e h, takeTurn t s = .next { s with eng := e, host := h }) ∨ ∃ l, takeTurn t s = .fault (.noSuchLabel l) := by
  cases t with
  | host =>
    rcases hostStep_cases s with ⟨h, e⟩ | ⟨a, h, e⟩ | ⟨_, _, l, _, _, e⟩
    · exact .inl ⟨_, h, e⟩
    · exact .inl ⟨_, h, e⟩
    · exact .inr ⟨l, e⟩
  | engine => obtain ⟨e, h⟩ := engineStep_next s; exact .inl ⟨e, s.host, h⟩
  | rst => exact .inl ⟨Engine.reset, s.host, rfl⟩

/-- Everything a step can answer: a next state with the same parameters, or the host's fault. -/
theorem step_cases (s : State) :
    (∃ t, step s = .next t ∧ t.params = s.params) ∨ ∃ l, step s = .fault (.noSuchLabel l) := by
  unfold step
  split
  · rcases takeTurn_cases (defaultTurn s) s with ⟨e, h, k⟩ | k
    · exact .inl ⟨_, k, rfl⟩
    · exact .inr k
  · rename_i a ts _
    rcases takeTurn_cases a { s with turns := ts } with ⟨e, h, k⟩ | k
    · exact .inl ⟨_, k, rfl⟩
    · exact .inr k

/-- A run of `k + 1` steps, step by step. -/
theorem core_run_succ (M : Host.Core) (k : Nat) (s : M.State) :
    M.run (k + 1) s =
      match M.step s with
      | .next t => M.run k t
      | .fault r => .fault r
      | .refused r => .refused r := rfl

/-- A run takes its first step and goes on. -/
theorem run_succ {k : Nat} {s t : State} (h : step s = .next t) :
    Host.Core.run Sys2Proof.core (k + 1) s = Host.Core.run Sys2Proof.core k t := by
  have first : Sys2Proof.core.step s = .next t := h
  exact (core_run_succ Sys2Proof.core k s).trans (by rw [first])

/-- No step is refused. -/
theorem step_not_refused (s : State) (r : Refusal) : step s ≠ .refused r := by
  rcases step_cases s with ⟨t, h, _⟩ | ⟨l, h⟩ <;> simp [h]

end Sys2Proof.Machine
end

