-- ==== Sys2Proof/Laws/Transform.lean ====
section
/-! SUPPORT. The transform primitives word by word and bit by bit (spec/42_transform.md), so that no later proof unfolds one. -/

namespace Sys2Proof.Machine

/-- `rotl64` is the left rotation (00_scope.md R16). -/
theorem rotl64_eq_rotateLeft (x : Word) (r : Nat) : rotl64 x r = x.rotateLeft (r % 64) := by
  unfold rotl64
  split
  · rename_i h
    rw [h]
    have : x >>> 64 = 0 := by
      apply BitVec.eq_of_getLsbD_eq
      intro b hb
      simp [BitVec.getLsbD_of_ge]
    simp [BitVec.rotateLeft, BitVec.rotateLeftAux, this]
  · simp [BitVec.rotateLeft, BitVec.rotateLeftAux]

/-- Bit b of x lands in bit (b + r) mod 64 of its rotation. -/
theorem getLsbD_rotl64 (x : Word) (r b : Nat) (hb : b < 64) :
    (rotl64 x r).getLsbD ((b + r) % 64) = x.getLsbD b := by
  have hr : r % 64 < 64 := Nat.mod_lt _ (by decide)
  rw [rotl64_eq_rotateLeft, BitVec.getLsbD_rotateLeft, Nat.mod_mod]
  by_cases h : b + r % 64 < 64
  · have e : (b + r) % 64 = b + r % 64 := by omega
    rw [e, decide_eq_false (by omega)]
    simp [h]
  · have e : (b + r) % 64 = b + r % 64 - 64 := by omega
    rw [e, decide_eq_true (by omega), cond_true]
    congr 1
    omega

@[simp] theorem getElem_preMix (w : Words) (i : Nat) (h : i < 10) : (preMix w)[i] = w[i] ^^^ mixAcc w := by
  simp [preMix]

@[simp] theorem getElem_wordShuffle (w : Words) (j : Nat) (h : j < 10) :
    (wordShuffle w)[j] = w[(7 * j) % 10]'(by omega) := by
  simp [wordShuffle]

/-- The even word of a swapped pair (42_transform.md R139). -/
theorem getElem_maskedSwap_even (m : Vector Word 5) (w : Words) (k : Nat) (h : k < 5) :
    (maskedSwap m w)[2 * k] = w[2 * k] ^^^ (m[k] &&& (w[2 * k] ^^^ w[2 * k + 1])) := by
  simp [maskedSwap, pairOf, evenOf, oddOf]

/-- The odd word of a swapped pair (42_transform.md R139). -/
theorem getElem_maskedSwap_odd (m : Vector Word 5) (w : Words) (k : Nat) (h : k < 5) :
    (maskedSwap m w)[2 * k + 1] = w[2 * k + 1] ^^^ (m[k] &&& (w[2 * k] ^^^ w[2 * k + 1])) := by
  have : (2 * k + 1) / 2 = k := by omega
  simp [maskedSwap, pairOf, evenOf, oddOf, this]

/-- Two lists of words are equal when they are pair by pair. -/
theorem Words.ext_pairs {w w' : Words} (h : ∀ k (_ : k < 5), w[2 * k] = w'[2 * k] ∧ w[2 * k + 1] = w'[2 * k + 1]) :
    w = w' := by
  apply Vector.ext
  intro i hi
  obtain ⟨h1, h2⟩ := h (i / 2) (by omega)
  rcases Nat.mod_two_eq_zero_or_one i with e | e
  · simpa [show 2 * (i / 2) = i by omega] using h1
  · simpa [show 2 * (i / 2) + 1 = i by omega] using h2

/-- A bit of the even word after a masked swap (42_transform.md R139). -/
theorem getLsbD_maskedSwap_even (m : Vector Word 5) (w : Words) (k b : Nat) (h : k < 5) :
    ((maskedSwap m w)[2 * k]).getLsbD b = (if (m[k]).getLsbD b then w[2 * k + 1] else w[2 * k]).getLsbD b := by
  rw [getElem_maskedSwap_even _ _ _ h]
  cases hb : (m[k]).getLsbD b <;> simp [hb]

/-- A bit of the odd word after a masked swap (42_transform.md R139). -/
theorem getLsbD_maskedSwap_odd (m : Vector Word 5) (w : Words) (k b : Nat) (h : k < 5) :
    ((maskedSwap m w)[2 * k + 1]).getLsbD b = (if (m[k]).getLsbD b then w[2 * k] else w[2 * k + 1]).getLsbD b := by
  rw [getElem_maskedSwap_odd _ _ _ h]
  cases hb : (m[k]).getLsbD b
  · simp [hb]
  · simp [hb]
    cases (w[2 * k]).getLsbD b <;> cases (w[2 * k + 1]).getLsbD b <;> rfl

/-- The even words rotate (42_transform.md R141). -/
theorem getElem_pboxRotate_even (rr : Vector (BitVec 6) 5) (w : Words) (k : Nat) (h : k < 5) :
    (pboxRotate rr w)[2 * k] = rotl64 w[2 * k] rr[k].toNat := by
  simp [pboxRotate, pairOf]

/-- The odd words stay (42_transform.md R141). -/
theorem getElem_pboxRotate_odd (rr : Vector (BitVec 6) 5) (w : Words) (k : Nat) (h : k < 5) :
    (pboxRotate rr w)[2 * k + 1] = w[2 * k + 1] := by
  have : (2 * k + 1) % 2 = 1 := by omega
  simp [pboxRotate, this]

@[simp] theorem getElem_applySubstitution (sch : Schedule) (w : Words) (i : Nat) (h : i < 10) :
    (applySubstitution sch w)[i] =
      substGroup sch ⟨i, h⟩ w[i] 0 ||| substGroup sch ⟨i, h⟩ w[i] 1 ||| substGroup sch ⟨i, h⟩ w[i] 2 |||
        substGroup sch ⟨i, h⟩ w[i] 3 := by
  simp [applySubstitution]

@[simp] theorem getElem_linearMix (rot : Vector (BitVec 6) 6) (w : Words) (i : Nat) (h : i < 10) :
    (linearMix rot w)[i] =
      rot.toList.foldl (fun n r => n ^^^ rotl64 w[i] r.toNat) (w[(i + 1) % 10]'(by omega)) := by
  simp [linearMix]

/-- The mask D, S and k select (42_transform.md R149). -/
theorem getElem_maskRow (sch : Schedule) (d : BitVec 1) (s k : Nat) (hs : s < 6) (hk : k < 5) :
    ((sch.descriptor d).maskRow s)[k] = (sch.pbox[d.toNat]'(d.isLt)).mask[s][k] := by
  simp [Pbox.maskRow, Schedule.descriptor, Vector.getD, hs]

/-- The amount D, S and k select (42_transform.md R151). -/
theorem getElem_rotRow (sch : Schedule) (d : BitVec 1) (s k : Nat) (hs : s < 5) (hk : k < 5) :
    ((sch.descriptor d).rotRow s)[k] = (sch.pbox[d.toNat]'(d.isLt)).rot[s][k] := by
  simp [Pbox.rotRow, Schedule.descriptor, Vector.getD, hs]

/-- The round key R selects (42_transform.md R155). -/
theorem roundKey_eq (sch : Schedule) (r : Nat) (hr : r < 84) : sch.roundKey r = sch.rkey[r] := by
  simp [Schedule.roundKey, Vector.getD, hr]

@[simp] theorem getElem_injectRoundKey (key : BitVec 10) (w : Words) (i : Nat) (h : i < 10) :
    (injectRoundKey key w)[i] = w[i] ^^^ (key.extractLsb' i 1).setWidth 64 := by
  simp [injectRoundKey]

/-- Two words are equal when their eight fields are (42_transform.md R143). -/
theorem Word.ext_fields {x y : Word}
    (h : ∀ j < 4, x.extractLsb' (16 * j) 6 = y.extractLsb' (16 * j) 6 ∧
      x.extractLsb' (16 * j + 6) 10 = y.extractLsb' (16 * j + 6) 10) : x = y := by
  apply BitVec.eq_of_getLsbD_eq
  intro b hb
  obtain ⟨hs, hl⟩ := h (b / 16) (by omega)
  by_cases h6 : b % 16 < 6
  · have h1 := congrArg (fun v : BitVec 6 => v.getLsbD (b % 16)) hs
    simp only [BitVec.getLsbD_extractLsb', h6, decide_true, Bool.true_and] at h1
    rwa [show 16 * (b / 16) + b % 16 = b by omega] at h1
  · have h1 := congrArg (fun v : BitVec 10 => v.getLsbD (b % 16 - 6)) hl
    simp only [BitVec.getLsbD_extractLsb', show b % 16 - 6 < 10 by omega, decide_true, Bool.true_and] at h1
    rwa [show 16 * (b / 16) + 6 + (b % 16 - 6) = b by omega] at h1

/-- The bits of one substituted group: six of the small table's value, then ten of the large table's. -/
theorem getLsbD_substGroup (sch : Schedule) (i : Fin 10) (x : Word) (j : Fin 4) (b : Nat) (hb : b < 64) :
    (substGroup sch i x j).getLsbD b =
      if 16 * j.val ≤ b ∧ b < 16 * j.val + 6 then (sch.small i j (x.extractLsb' (16 * j.val) 6)).getLsbD (b - 16 * j.val)
      else if 16 * j.val + 6 ≤ b ∧ b < 16 * j.val + 16 then
        (sch.large i (x.extractLsb' (16 * j.val + 6) 10)).getLsbD (b - (16 * j.val + 6))
      else false := by
  unfold substGroup
  rw [BitVec.getLsbD_or, BitVec.getLsbD_shiftLeft, BitVec.getLsbD_shiftLeft, BitVec.getLsbD_setWidth, BitVec.getLsbD_setWidth]
  have hs : ∀ k, 6 ≤ k → (sch.small i j (x.extractLsb' (16 * j.val) 6)).getLsbD k = false := fun k hk =>
    BitVec.getLsbD_of_ge _ _ hk
  have hl : ∀ k, 10 ≤ k → (sch.large i (x.extractLsb' (16 * j.val + 6) 10)).getLsbD k = false := fun k hk =>
    BitVec.getLsbD_of_ge _ _ hk
  by_cases h1 : b < 16 * j.val
  · rw [if_neg (by omega), if_neg (by omega)]; simp [h1, show b < 16 * j.val + 6 by omega]
  · by_cases h2 : b < 16 * j.val + 6
    · rw [if_pos (by omega)]; simp [h1, h2, hb, show b - 16 * j.val < 64 by omega]
    · rw [if_neg (by omega), hs _ (by omega)]
      by_cases h3 : b < 16 * j.val + 16
      · rw [if_pos (by omega)]; simp [h2, hb, show b - (16 * j.val + 6) < 64 by omega]
      · rw [if_neg (by omega), hl _ (by omega)]; simp

/-- Bit b of a substituted word comes from group b / 16 alone. -/
theorem getLsbD_applySubstitution (sch : Schedule) (w : Words) (i : Fin 10) (j : Fin 4) (b : Nat)
    (hb : 16 * j.val ≤ b ∧ b < 16 * j.val + 16) :
    ((applySubstitution sch w)[i]).getLsbD b = (substGroup sch i w[i] j).getLsbD b := by
  have other : ∀ k : Fin 4, k ≠ j → (substGroup sch i w[i] k).getLsbD b = false := by
    intro k hk
    have : k.val ≠ j.val := fun h => hk (Fin.ext h)
    rw [getLsbD_substGroup _ _ _ _ _ (by omega), if_neg (by omega), if_neg (by omega)]
  simp only [Fin.getElem_fin] at other ⊢
  rw [getElem_applySubstitution]
  simp only [BitVec.getLsbD_or]
  match j, other with
  | 0, other => simp [other 1 (by decide), other 2 (by decide), other 3 (by decide)]
  | 1, other => simp [other 0 (by decide), other 2 (by decide), other 3 (by decide)]
  | 2, other => simp [other 0 (by decide), other 1 (by decide), other 3 (by decide)]
  | 3, other => simp [other 0 (by decide), other 1 (by decide), other 2 (by decide)]

/-- The six-bit fields of a substituted word (42_transform.md R143). -/
theorem small_field_substitution (sch : Schedule) (w : Words) (i : Fin 10) (j : Fin 4) :
    ((applySubstitution sch w)[i]).extractLsb' (16 * j.val) 6 = sch.small i j (w[i].extractLsb' (16 * j.val) 6) := by
  apply BitVec.eq_of_getLsbD_eq
  intro b hb
  rw [BitVec.getLsbD_extractLsb', getLsbD_applySubstitution _ _ _ j _ (by omega), getLsbD_substGroup _ _ _ _ _ (by omega),
    if_pos (by omega)]
  simp [hb]

/-- The ten-bit fields of a substituted word (42_transform.md R143). -/
theorem large_field_substitution (sch : Schedule) (w : Words) (i : Fin 10) (j : Fin 4) :
    ((applySubstitution sch w)[i]).extractLsb' (16 * j.val + 6) 10 =
      sch.large i (w[i].extractLsb' (16 * j.val + 6) 10) := by
  apply BitVec.eq_of_getLsbD_eq
  intro b hb
  rw [BitVec.getLsbD_extractLsb', getLsbD_applySubstitution _ _ _ j _ (by omega), getLsbD_substGroup _ _ _ _ _ (by omega),
    if_neg (by omega), if_pos (by omega)]
  simp [hb]

end Sys2Proof.Machine
end

