-- ==== Sys2Proof/Tests/Slice0.lean ====
section
/-! SUPPORT. Tests: the smoke test of WellFormed, decoding of words written out from spec/30_encoding.md, small vectors of
spec/95_test_vectors.md, and for each obligation with hypotheses a concrete case that meets them. -/

namespace Sys2Proof.Tests

open Sys2Proof.Machine Sys2Proof.Claims

/-! ### Small states -/

/-- A small schedule whose tables are XORs with a constant. Its first mask row, its last mask row, its first and last rows
of amounts, its rotations and its keys 0 and 83 are the K1 values of V-SCHED-1, V-SCHED-3 and V-SCHED-4. -/
def demoSchedule : Schedule where
  sbox1 := Vector.ofFn fun t => Vector.ofFn fun x => BitVec.ofNat 6 x.val ^^^ BitVec.ofNat 6 (t.val + 7)
  sbox2 := Vector.ofFn fun t => Vector.ofFn fun x => BitVec.ofNat 10 x.val ^^^ BitVec.ofNat 10 (t.val + 214)
  pbox := #v[
    { mask := Vector.ofFn fun _ =>
        #v[0x7F42E3017D2F963E, 0xBA7BCF17A37F08C7, 0x52D24855F11650AD, 0x911D94BB2F7E194B, 0x82EC773D568DA914]
      rot := Vector.ofFn fun _ => #v[1, 26, 20, 31, 16] },
    { mask := Vector.ofFn fun _ =>
        #v[0xA67BF6080C55075E, 0x0CEAA66B00674A9B, 0xB972E569B2E7AE95, 0xC76192E5592775DA, 0x1C038E8878052114]
      rot := Vector.ofFn fun _ => #v[46, 7, 46, 43, 20] }]
  rot := #v[45, 47, 55, 5, 63, 56]
  rkey := Vector.ofFn fun r => if r.val = 0 then 667 else 220

/-- A schedule whose tables are the identity and whose masks are 0: every step but the rotations, the mixing and the last
round key keeps the zero state. -/
def plainSchedule : Schedule where
  sbox1 := Vector.replicate 40 (Vector.ofFn fun x => BitVec.ofNat 6 x.val)
  sbox2 := Vector.replicate 10 (Vector.ofFn fun x => BitVec.ofNat 10 x.val)
  pbox := Vector.replicate 2
    { mask := Vector.replicate 6 (Vector.replicate 5 0), rot := Vector.replicate 5 (Vector.replicate 5 1) }
  rot := #v[1, 2, 3, 4, 5, 6]
  rkey := Vector.ofFn fun r => if r.val = 83 then 0x201 else 0

/-- No schedule at all: its first table is constant. -/
def badSchedule : Schedule :=
  { plainSchedule with sbox1 := Vector.replicate 40 (Vector.replicate 64 0) }

/-- The machine after reset with a few engine fields set. -/
def withEng (e : Engine) : State := { State.reset with eng := e }

/-- An idle engine with the demo schedule, KEY = 1, ARG = 1000, LEN = 80 and the words (0, 1, ..., 9). -/
def demoEng : Engine :=
  { Engine.reset with
    store := some demoSchedule, key := 1, arg := 1000, len := 80
    w := #v[0, 1, 2, 3, 4, 5, 6, 7, 8, 9] }

def demo : State := withEng demoEng

/-- An idle engine with the plain schedule, all words and bytes 0. -/
def plainEng : Engine := { Engine.reset with store := some plainSchedule, len := 80 }

def plain : State := withEng plainEng

/-- The engine after a step that answers a next state. -/
def engAfter : Host.Outcome State Fault Refusal → Engine
  | .next t => t.eng
  | .fault _ => Engine.reset
  | .refused _ => Engine.reset

/-- The engine after the next step has run the word `w`. -/
def ran (w : Nat) (e : Engine) : Engine := engAfter (step ((withEng e).withFetchWord 32 w))

/-- A busy engine: the word `w` is pending. -/
def pending (w : CmdWord) (e : Engine) : Engine := { e with pend := some w, lastcmd := w, done := false }

/-! ### WellFormed: each check refuses an ill-formed term (30_encoding.md R90, R91) -/

theorem test_wf_mswap : (Instr.mswap 0 6).wellFormed = false ∧ (Instr.mswap 1 5).wellFormed = true := by decide
theorem test_wf_prot : (Instr.prot 0 5).wellFormed = false ∧ (Instr.prot 1 4).wellFormed = true := by decide
theorem test_wf_rkey : (Instr.rkey 84).wellFormed = false ∧ (Instr.rkey 83).wellFormed = true := by decide
theorem test_wf_round : (Instr.round 127).wellFormed = false ∧ (Instr.round 83).wellFormed = true := by decide

/-! ### Decoding: words written out from the format of R87 and the opcode map of R94 (bits R[22:16], S[14:12], D[8], OP) -/

theorem test_decode_control : decode 0b00000000000000000000000000000000#32 = .ok .nop ∧
    decode 0b00000000000000000000000000000001#32 = .ok .build ∧
    decode 0b00000000000000000000000000000010#32 = .ok .chksched := by decide

theorem test_decode_prng : decode 0b00000000000000000000000000010000#32 = .ok .prngSeed ∧
    decode 0b00000000000000000000000000010001#32 = .ok .prngNext32 ∧
    decode 0b00000000000000000000000000010010#32 = .ok .prngNext64 ∧
    decode 0b00000000000000000000000000010011#32 = .ok .prngBounded := by decide

theorem test_decode_words : decode 0b00000000000000000000000000100000#32 = .ok .unpack ∧
    decode 0b00000000000000000000000000100001#32 = .ok .pack ∧
    decode 0b00000000000000000000000000100010#32 = .ok .premix ∧
    decode 0b00000000000000000000000000100100#32 = .ok .wshuf ∧
    decode 0b00000000000000000000000000100111#32 = .ok .subst ∧
    decode 0b00000000000000000000000000101000#32 = .ok .lmix := by decide

theorem test_decode_subround : decode 0b00000000000000000101000100100011#32 = .ok (.mswap 1 5) ∧
    decode 0b00000000000000000011000000100101#32 = .ok (.prot 0 3) ∧
    decode 0b00000000000000000000000100100110#32 = .ok (.perm 1) := by decide

theorem test_decode_round : decode 0b00000000010100110000000000101001#32 = .ok (.rkey 83) ∧
    decode 0b00000000001010010000000000101010#32 = .ok (.round 41) := by decide

theorem test_decode_driver : decode 0b00000000000000000000000000110000#32 = .ok .encrypt ∧
    decode 0b00000000000000000000000000110001#32 = .ok .hash := by decide

/-- The illegal rows of V-DEC. -/
theorem test_decode_illegal :
    [0x00000003, 0x0000000F, 0x00000014, 0x0000002B, 0x00000032, 0x000000FF, 0x0000005A].all
      (fun w => decode w == .error .reservedOpcode) ∧
    [0x00000100, 0x80000000, 0x00001026, 0x00000226, 0x00810029, 0x00010027, 0x00001024, 0x00000131].all
      (fun w => decode w == .error .reservedBits) ∧
    [0x00006023, 0x00007123, 0x00005025, 0x00540029, 0x007F002A].all
      (fun w => decode w == .error .fieldRange) := by decide

theorem test_decode_bytes : decodeBytes [0x23, 0x51, 0, 0, 0xFF] = .ok (.mswap 1 5, [0xFF]) ∧
    decodeBytes [0x23, 0x51, 0] = .error .truncated := by decide

theorem test_decodeTableWord : decodeTableWord 32 0x5123 = some (.mswap 1 5) ∧ decodeTableWord 32 0x530029 = some (.rkey 83) ∧
    decodeTableWord 32 0x03 = none := by decide

/-- The assembler's example of R98. -/
theorem test_text : (Instr.mswap 1 5).text = "MSWAP 1, 5" ∧ Instr.build.text = "BUILD" := by decide

/-! ### One step of each command (95_test_vectors.md) -/

/-- V-DRV-6: NOP changes nothing but LASTCMD and DONE. -/
theorem test_nop : ran 0x00 Engine.reset = { Engine.reset with done := true } := by decide

set_option maxRecDepth 20000 in
/-- V-SCHED-2: the first shuffle of BUILD with KEY 1 begins 7, 54, 28, 60. -/
theorem test_build_first_table :
    ((drawTable Config.prng 64 6 (Prng.seed 1)).1.toList.take 4) = [7, 54, 28, 60] := by decide

/-- R130, R179: a store that is no schedule gives ERR 0x0000000200000002. -/
theorem test_chksched_bad : (ran 0x02 { Engine.reset with store := some badSchedule }).errWord = 0x0000000200000002 := by
  decide

/-- X-14. -/
theorem test_prngSeed : (ran 0x10 { Engine.reset with key := 0xFFFFFFFF }).prng = { cur := 0xFFFFFFFF, mul := 1, add := 0 } := by
  decide

/-- V-PRNG-5. -/
theorem test_prngNext32 :
    (ran 0x11 { Engine.reset with prng := { cur := 0xFFFFFFFF, mul := 1, add := 0 } }).prngOut = 0x0849067E ∧
    (ran 0x11 { Engine.reset with prng := { cur := 0xFFFFFFFF, mul := 1, add := 0 } }).prng.cur = 0x0849067EAAD20222 := by
  decide

/-- R106, R12 by hand: with PRNG_BASE_MUL = 3 and PRNG_BASE_ADD = 5, from (1, 1, 0), ADD = 5, MUL = 3 and CUR = 1 * 3 + 5. -/
theorem test_prng_parameters :
    (engAfter (exec .prngNext32 { withEng { Engine.reset with prng := { cur := 1, mul := 1, add := 0 } } with
      params := { prng := { baseMul := 3, baseAdd := 5 }, final := .other 0 } })).prng = { cur := 8, mul := 3, add := 5 } := by
  decide

/-- V-PRNG-3. -/
theorem test_prngNext64 :
    (ran 0x12 { Engine.reset with prng := { cur := 1, mul := 1, add := 0 } }).prngOut = 0x6C576FACA5FAE199 ∧
    (ran 0x12 { Engine.reset with prng := { cur := 1, mul := 1, add := 0 } }).prng =
      { cur := 0xA5FAE1992097AA0E, mul := 0x685F98A2018FADE9, add := 0x1A08EE1184BA6D32 } := by
  decide

/-- V-PRNG-4, the first bound. -/
theorem test_prngBounded : (ran 0x13 { Engine.reset with arg := 1000, prng := Prng.seed 1 }).prngOut = 423 := by decide

/-- V-PRNG-6. -/
theorem test_shuffle : (shuffle Config.prng 8 (Prng.seed 1)).1.toList = [7, 5, 3, 0, 1, 2, 6, 4] ∧
    (shuffle Config.prng 8 (Prng.seed 1)).2.cur = 0x0E0F3D411BA0FB9D ∧
    (shuffle Config.prng 1 (Prng.seed 1)).2.cur = 1 := by
  decide

/-- V-XF-1. -/
theorem test_unpack :
    (ran 0x20 { Engine.reset with buf := [(0x108, 8), (0x109, 9), (0x10F, 0x80), (0x150, 1)] }).w =
      #v[0, 0x8000000000000908, 0, 0, 0, 0, 0, 0, 0, 0] := by decide

/-- V-XF-2. -/
theorem test_pack :
    (ran 0x21 { Engine.reset with w := #v[0x0706, 0, 0, 0, 0, 0, 0, 0, 0, 0xFF00000000000088], buf := [(0x110, 3), (0x150, 5)] }).buf =
      [(0x100, 6), (0x101, 7), (0x148, 0x88), (0x14F, 0xFF), (0x150, 5)] := by decide

/-- V-XF-3, the second row. -/
theorem test_premix :
    (ran 0x22 { Engine.reset with w := #v[0xFFFFFFFF00000000, 0, 0, 0, 0, 0, 0, 0, 0, 0] }).w.toList =
      0x00000000FFFFFFFF :: List.replicate 9 0xFFFFFFFFFFFFFFFF := by decide

/-- V-XF-4: MSWAP 0, 0 on (ONES, 0, ONES, 0, ...). -/
theorem test_mswap :
    (ran 0x23 { demoEng with w := Vector.ofFn fun i => if i.val % 2 = 0 then 0xFFFFFFFFFFFFFFFF else 0 }).w =
      #v[0x80BD1CFE82D069C1, 0x7F42E3017D2F963E, 0x458430E85C80F738, 0xBA7BCF17A37F08C7, 0xAD2DB7AA0EE9AF52,
         0x52D24855F11650AD, 0x6EE26B44D081E6B4, 0x911D94BB2F7E194B, 0x7D1388C2A97256EB, 0x82EC773D568DA914] := by
  decide

/-- V-XF-5. -/
theorem test_wshuf : (ran 0x24 demoEng).w = #v[0, 7, 4, 1, 8, 5, 2, 9, 6, 3] := by decide

/-- V-XF-6: PROT 0, 0 with all words 1. -/
theorem test_prot : (ran 0x25 { demoEng with w := Vector.replicate 10 1 }).w =
    #v[2, 1, 0x4000000, 1, 0x100000, 1, 0x80000000, 1, 0x10000, 1] := by decide

/-- V-XF-6: PROT 1, 4 with all words 0x8000000000000000. -/
theorem test_prot_wrap : (ran 0x4125 { demoEng with w := Vector.replicate 10 0x8000000000000000 }).w.toList.take 3 =
    [0x0000200000000000, 0x8000000000000000, 0x0000000000000040] := by decide

/-- V-XF-7: ONES is a fixed point of PERM. -/
theorem test_perm : (ran 0x126 { demoEng with w := Vector.replicate 10 0xFFFFFFFFFFFFFFFF }).w =
    Vector.replicate 10 0xFFFFFFFFFFFFFFFF := by decide

set_option maxRecDepth 20000 in
/-- R143 by hand, with SBOX1[t][0] = t + 7 and SBOX2[i][0] = i + 214 (even as XOR): group j of word 0 is 214 << 6 | (7 + j),
and group 0 of word 9 is 223 << 6 | 43. -/
theorem test_subst : (ran 0x27 { demoEng with w := Vector.replicate 10 0 }).w[0] = 0x358A358935883587 ∧
    ((ran 0x27 { demoEng with w := Vector.replicate 10 0 }).w[9]).setWidth 16 = 0x37EB := by decide

/-- V-XF-9. -/
theorem test_lmix : (ran 0x28 { demoEng with w := #v[0, 0, 0, 0, 0, 0, 0, 0, 0, 0x8000000000000000] }).w =
    #v[0, 0, 0, 0, 0, 0, 0, 0, 0x8000000000000000, 0x40C0500000000010] := by decide

/-- V-XF-10. -/
theorem test_rkey : (ran 0x29 { demoEng with w := Vector.replicate 10 0 }).w = #v[1, 1, 0, 1, 1, 0, 0, 1, 0, 1] := by decide

set_option maxRecDepth 20000 in
/-- R161 by hand: on the zero state only the round key 0x201 of the last round acts. -/
theorem test_round : (ran 0x53002A plainEng).w = #v[1, 0, 0, 0, 0, 0, 0, 0, 0, 1] := by decide

set_option maxRecDepth 20000 in
/-- The plain schedule's rounds keep the zero state, but for the last one, whose key is 0x201. -/
theorem plain_round (r : Nat) : cipherRound plainSchedule r (Vector.replicate 10 0) =
    injectRoundKey (plainSchedule.roundKey r) (Vector.replicate 10 0) := by
  unfold cipherRound
  rw [show applyPermutation (plainSchedule.descriptor 0) (Vector.replicate 10 0) = Vector.replicate 10 0 by decide,
    show applySubstitution plainSchedule (Vector.replicate 10 0) = Vector.replicate 10 0 by decide,
    show applyPermutation (plainSchedule.descriptor 1) (Vector.replicate 10 0) = Vector.replicate 10 0 by decide,
    show linearMix plainSchedule.rot (Vector.replicate 10 0) = Vector.replicate 10 0 by decide]

theorem plain_rounds (n : Nat) (h : n ≤ 83) :
    (List.range n).foldl (fun w r => cipherRound plainSchedule r w) (Vector.replicate 10 0) = Vector.replicate 10 0 := by
  induction n with
  | zero => rfl
  | succ n ih =>
    rw [List.range_succ, List.foldl_append, ih (by omega)]
    show cipherRound plainSchedule n (Vector.replicate 10 0) = _
    rw [plain_round, show plainSchedule.roundKey n = 0 by
      simp [Schedule.roundKey, plainSchedule, Vector.getD, show n < 84 by omega, show n ≠ 83 by omega]]
    decide

/-- The final cipher state of the plain schedule on a zero block (R162 by hand): only the last round key, 0x201, acts. -/
theorem plain_cipher (m : Memory) (h : preMix (unpackWords m) = Vector.replicate 10 0) :
    cipherWords plainSchedule m = #v[1, 0, 0, 0, 0, 0, 0, 0, 0, 1] := by
  rw [cipherWords, h, allRounds, show Config.rounds = 83 + 1 from rfl, List.range_succ, List.foldl_append,
    plain_rounds 83 (by omega)]
  show cipherRound plainSchedule 83 (Vector.replicate 10 0) = _
  rw [plain_round]
  decide

/-- R162 by hand: the zero block encrypts to the words of the last round key. -/
theorem test_encrypt : exec .encrypt plain = .next (finished plain { plainEng with
    w := #v[1, 0, 0, 0, 0, 0, 0, 0, 0, 1], buf := [(0x100, 1), (0x148, 1)] }) := by
  refine exec_sched (sch := plainSchedule) rfl rfl (fun h => by cases h) rfl ?_
  rw [Engine.encrypt, plain_cipher _ (by decide)]
  rfl
/-- R166, R167 by hand: with LEN = 80 and a zero buffer the marker goes to BUF[80], outside the encrypted block, and FINAL
takes the whole buffer. -/
theorem test_hash : exec .hash plain = .next (finished plain { plainEng with
    w := #v[1, 0, 0, 0, 0, 0, 0, 0, 0, 1], buf := finalize keccakP800 [(0x100, 1), (0x148, 1), (0x150, 1)] }) := by
  refine exec_sched (sch := plainSchedule) rfl rfl (fun _ => by decide) rfl ?_
  rw [Engine.hash, plain_cipher _ (by decide)]
  rfl

/-- X-15: padding "abc" with LEN = 3, over stale bytes. -/
theorem test_pad : padInput 3 [(0x100, 0x61), (0x101, 0x62), (0x102, 0x63), (0x107, 9), (0x163, 9)] =
    [(0x100, 0x61), (0x101, 0x62), (0x102, 0x63), (0x103, 1)] := by decide

set_option maxRecDepth 100000 in
/-- V-FIN-1, the first word (FINAL at its conformance value). -/
theorem test_final : (Finalization.keccak.apply (Vector.replicate 100 0)).toList.take 8 =
    [0x0b, 0x3e, 0x6e, 0x25, 0xcb, 0x9a, 0xeb, 0xd2] := by decide

/-- R168: the digest is BUF[0..31], BUF[0] first. -/
theorem test_digest : ({ Engine.reset with buf := [(0x100, 0x15), (0x11F, 0x8F), (0x120, 0xA6)] } : Engine).digest.toList =
    0x15 :: List.replicate 30 0 ++ [0x8F] := by decide

/-! ### Errors, accesses and reset (V-ERR, V-RST) -/

/-- V-ERR-1 and V-ERR-17: SUBST after reset, and the overflow of a second error. -/
theorem test_err_no_schedule : (memWrite 0x018 .w8 0x27 Engine.reset).errWord = 0x0000002700000003 ∧
    (memWrite 0x018 .w8 0x27 (memWrite 0x018 .w8 0x03 Engine.reset)).errWord = 0x0000000300000104 := by decide

/-- V-ERR-5 and V-ERR-6. -/
theorem test_err_illegal : (memWrite 0x018 .w8 0x00540029 Engine.reset).errWord = 0x0054002900000004 ∧
    (memWrite 0x018 .w8 0x80000000 demoEng).errWord = 0x8000000000000004 := by decide

/-- V-ERR-8b and V-ERR-8c. -/
theorem test_err_precondition :
    (memWrite 0x018 .w8 0x31 { demoEng with len := 81 }).errWord = 0x0000003100000001 ∧
    (memWrite 0x018 .w8 0x31 (memWrite 0x028 .w8 0x0000000100000050 demoEng)).statusWord = 0x9 := by decide

/-- V-ERR-9 to V-ERR-13. -/
theorem test_err_access : (memRead 0x080 .w4 demoEng).2.errWord = 0x0040008000000006 ∧
    (memWrite 0x000 .w8 0 demoEng).errWord = 0x0081000000000006 ∧
    (memRead 0x078 .w8 demoEng).2.errWord = 0x0080007800000006 ∧
    (memRead 0x160 .w8 demoEng).2.errWord = 0x0080016000000006 ∧
    (memRead 0x160 .w4 { demoEng with buf := [(0x160, 1), (0x161, 2), (0x162, 3), (0x163, 4)] }).1 = 0x04030201 ∧
    (memRead 0x101 .w2 demoEng).2.errWord = 0x0020010100000006 := by decide

set_option maxRecDepth 20000 in
/-- V-ERR-14, V-ERR-15 and the readback of V-SCHED-7. -/
theorem test_sched_data : (memRead 0x068 .w8 Engine.reset).2.errWord = 0x0080006800000003 ∧
    (memRead 0x068 .w8 { demoEng with schedAddr := 0x4005 }).2.errWord = 0x0080006800000008 ∧
    (memRead 0x068 .w8 { demoEng with schedAddr := 0x4000 }).1 = 0x7F42E3017D2F963E ∧
    (memRead 0x068 .w8 { demoEng with schedAddr := 0x4205 }).1 = 56 ∧
    (memRead 0x068 .w8 { demoEng with schedAddr := 0x4353 }).1 = 220 := by decide

/-- V-ERR-16, steps 1, 3, 5, 6 and 7. -/
theorem test_err_busy : (memWrite 0x018 .w8 0 (pending 0x30 demoEng)).errWord = 0x0000000000000005 ∧
    (memRead 0x020 .w8 (pending 0x30 demoEng)).1 = 1 ∧ (memRead 0x020 .w8 (pending 0x30 demoEng)).2.errWord = 0 ∧
    (memWrite 0x020 .w8 5 (pending 0x30 demoEng)).errWord = 0x0081002000000007 ∧
    (memRead 0x080 .w4 (pending 0x30 demoEng)).2.errWord = 0x0040008000000006 ∧
    (memRead 0x068 .w8 (pending 0x30 demoEng)).2.errWord = 0x0080006800000007 := by decide

/-- V-ERR-19. -/
theorem test_soft_reset : memWrite 0x008 .w8 0x80000003 (pending 0x30 demoEng) = Engine.reset := by decide

/-- V-RST. -/
theorem test_reset_reads : (memRead 0x000 .w8 Engine.reset).1 = 0x50130A0606060A54 ∧
    (memRead 0x050 .w8 Engine.reset).1 = 1 ∧ (memRead 0x010 .w8 Engine.reset).1 = 0 := by decide

/-- The host's step of `rd64 $3, 0x020`, and a word placed for the first step after reset is run by it (log entry 8). -/
theorem test_steps :
    (step { demo with host := { program := [.rd .w8 3 0x020], pos := 0, vars := [] } } =
      .next { demo with host := { program := [.rd .w8 3 0x020], pos := 1, vars := [(3, 1)] } }) ∧
    (ran 0x24 Engine.reset).lastcmd = 0x24 ∧ (ran 0x24 Engine.reset).done = true ∧
    (ran 0x27 Engine.reset).errWord = 0x0000002700000003 := ⟨rfl, by decide⟩

/-! ### Witnesses: states and operands that meet the hypotheses of each obligation that has some -/

/-- The rows of the demo schedule's tables. -/
theorem demo_sbox1 (t x : Nat) (ht : t < 40) (hx : x < 64) :
    (demoSchedule.sbox1[t])[x] = BitVec.ofNat 6 x ^^^ BitVec.ofNat 6 (t + 7) := by
  simp only [demoSchedule, Vector.getElem_ofFn]

theorem demo_sbox2 (t x : Nat) (ht : t < 10) (hx : x < 1024) :
    (demoSchedule.sbox2[t])[x] = BitVec.ofNat 10 x ^^^ BitVec.ofNat 10 (t + 214) := by
  simp only [demoSchedule, Vector.getElem_ofFn]

/-- XOR with a constant is injective on the `w`-bit numbers. -/
theorem xor_bijective {w : Nat} (c : BitVec w) (f : Fin (2 ^ w) → BitVec w) (h : ∀ x, f x = BitVec.ofNat w x.val ^^^ c) :
    Function.Bijective f := by
  constructor
  · intro x y hxy
    rw [h, h] at hxy
    have h2 : BitVec.ofNat w x.val = BitVec.ofNat w y.val := by
      have h3 := congrArg (· ^^^ c) hxy
      simpa [BitVec.xor_assoc] using h3
    have h4 := congrArg BitVec.toNat h2
    simp only [BitVec.toNat_ofNat, Nat.mod_eq_of_lt x.isLt, Nat.mod_eq_of_lt y.isLt] at h4
    exact Fin.ext h4
  · intro y
    refine ⟨⟨(y ^^^ c).toNat, (y ^^^ c).isLt⟩, ?_⟩
    rw [h]
    simp

/-- The demo schedule meets the invariants: hypotheses of ChkschedTestsTheInvariants, first clause, and of SubstReplacesEachField. -/
theorem witness_ScheduleInvariants : ScheduleInvariants demoSchedule where
  small t ht := xor_bijective (w := 6) (BitVec.ofNat 6 (t + 7)) _ fun x => demo_sbox1 t x.val ht x.isLt
  large t ht := xor_bijective (w := 10) (BitVec.ofNat 10 (t + 214)) _ fun x => demo_sbox2 t x.val ht x.isLt
  distinct := by decide
  rotations := by decide
  oddSum := by decide
  amounts := by decide
  keys r hr := BitVec.isLt _

/-- The test of CHKSCHED passes on the plain schedule. -/
theorem plain_ok : plainSchedule.ok = true := by
  have small : isFullTable (Vector.ofFn fun x : Fin 64 => BitVec.ofNat 6 x.val) = true :=
    (isFullTable_iff _).2 fun y => ⟨y.toNat, y.isLt, by simp⟩
  have large : isFullTable (Vector.ofFn fun x : Fin 1024 => BitVec.ofNat 10 x.val) = true :=
    (isFullTable_iff _).2 fun y => ⟨y.toNat, y.isLt, by simp⟩
  have rest : (decide (plainSchedule.rot.toList.Pairwise (· ≠ ·)) && plainSchedule.rot.toList.all isAmount &&
      decide ((plainSchedule.rot.toList.map (·.toNat)).sum % 2 = 1) &&
      plainSchedule.pbox.toList.all fun p => p.rot.toList.all fun row => row.toList.all isAmount) = true := by decide
  have tables : plainSchedule.sbox1.toList.all isFullTable = true ∧ plainSchedule.sbox2.toList.all isFullTable = true := by
    simp only [plainSchedule, Vector.toList_replicate, List.all_eq_true, List.mem_replicate]
    exact ⟨fun t h => h.2 ▸ small, fun t h => h.2 ▸ large⟩
  unfold Schedule.ok
  simp only [Bool.and_eq_true] at rest ⊢
  exact ⟨⟨⟨⟨tables, rest.1.1.1⟩, rest.1.1.2⟩, rest.1.2⟩, rest.2⟩

/-- ChkschedTestsTheInvariants, second clause. -/
theorem witness_ChkschedTestsTheInvariants :
    demo.eng.store = some demoSchedule ∧
    (withEng { demoEng with store := some badSchedule }).eng.store = some badSchedule ∧ ¬ ScheduleInvariants badSchedule := by
  refine ⟨rfl, rfl, fun h => ?_⟩
  have h1 := (h.small 0 (by decide)).1
  have h2 : (⟨0, by decide⟩ : Fin 64) = ⟨1, by decide⟩ := h1 (by simp [badSchedule])
  simp at h2

theorem witness_DecodeGivesBackEncodedCommand : Instr.hash.wellFormed = true ∧ (Instr.mswap 1 5).wellFormed = true ∧
    (Instr.prot 1 4).wellFormed = true ∧ (Instr.rkey 83).wellFormed = true ∧ (Instr.round 83).wellFormed = true := by decide

theorem witness_DecodedWordIsTheCommandsOwn : decode 0x0053002A = .ok (.round 83) ∧ decode 0 = .ok .nop := by decide

theorem witness_PrngBoundedScalesOneDraw : 1 ≤ demo.eng.arg.toNat ∧ State.reset.eng.arg = 0 := by decide

theorem witness_PrngJumpsThroughThePlainLcg : 0 < 1 := by decide

theorem witness_ShuffleIsTheLoopAndAPermutation : 1024 < 2 ^ 32 ∧ 1023 < 1024 := by decide

theorem witness_BuildIsAFunctionOfTheKey : demo.params.prng = Config.prng ∧ demo.eng.key = 1 := by decide

theorem witness_RotationSetScanStops (s : State) : ∃ (B : Vector Nat 63) (sum : Nat),
    B = (shuffle s.params.prng 63 (draws s.params.prng 12920 (Prng.seed s.eng.key))).1 ∧
    sum = (B[0] + 1) + (B[1] + 1) + (B[2] + 1) + (B[3] + 1) + (B[4] + 1) := ⟨_, _, rfl, rfl⟩

/-- The well-formed buffer hypothesis, with the last byte of BUF listed. -/
theorem witness_PackIsTheInverseOfUnpack : Memory.wf { demoEng with buf := [(0x100, 1), (0x163, 2)] }.buf = true := by decide

theorem witness_PremixFoldsTheWords : (1 : Word) =
    demo.eng.w[0] ^^^ demo.eng.w[1] ^^^ demo.eng.w[2] ^^^ demo.eng.w[3] ^^^ demo.eng.w[4] ^^^
      demo.eng.w[5] ^^^ demo.eng.w[6] ^^^ demo.eng.w[7] ^^^ demo.eng.w[8] ^^^ demo.eng.w[9] := by decide

/-- MaskedSwapExchangesTheMaskedBits at its last subround, PboxRotateTurnsEvenWords at its last, and RoundKeyMeetsBitZero
and RoundIsItsFiveSteps at their last round. -/
theorem witness_FieldBounds : demo.eng.store = some demoSchedule ∧ (5 : BitVec 3).toNat < 6 ∧ (4 : BitVec 3).toNat < 5 ∧
    (83 : BitVec 7).toNat < 84 := ⟨rfl, by decide, by decide, by decide⟩

/-- PermIsItsSixteenSteps, PermKeepsTheNumberOfOnes, LinearMixXorsSixRotations, SubstReplacesEachField (first clause) and
EncryptIsUnpackPremixRoundsPack. -/
theorem witness_StoreAndBuffer : demo.eng.store = some demoSchedule ∧ Memory.wf demo.eng.buf = true := ⟨rfl, by decide⟩

theorem witness_PaddingMarksTheEndOfTheInput : Memory.wf [(0x150, 7)] = true ∧ Memory.wf [] = true ∧ 80 ≤ 80 ∧
    (∀ k, k ≤ 80 → Memory.read (padInput 80 [(0x150, 7)]) (Config.bufBase + k) =
      Memory.read (padInput 80 []) (Config.bufBase + k)) := by decide

/-- LEN = 80, with the marker at BUF[80]. -/
theorem witness_HashPadsEncryptsAndFinalizes : demo.eng.store = some demoSchedule ∧ demo.eng.len.toNat ≤ 80 ∧
    Memory.wf demo.eng.buf = true ∧ Memory.wf [(0x150, 1)] = true ∧
    (∀ k, k < 100 → Memory.read [(0x150, 1)] (Config.bufBase + k) =
      if k < demo.eng.len.toNat then Memory.read demo.eng.buf (Config.bufBase + k)
      else if k = demo.eng.len.toNat then 0x01 else 0x00) :=
  ⟨rfl, by decide, by decide, by decide, by decide⟩

/-- Two states that agree where the statement asks and differ in the words, the key, the PRNG and BUF[80]. -/
theorem witness_EncryptAndHashReadNothingElse :
    demo.eng.store = some demoSchedule ∧
    ({ demoEng with w := Vector.replicate 10 5, key := 9, prng := Prng.seed 3, buf := [(0x150, 4)] } : Engine).store =
      some demoSchedule ∧
    Memory.wf demo.eng.buf = true ∧ Memory.wf [(0x150, 4)] = true ∧
    demo.params.final = { demo with params := { prng := { baseMul := 3, baseAdd := 5 }, final := .keccak } }.params.final ∧
    (∀ k, k < 80 → demoEng.bufByte k = { demoEng with buf := [(0x150, 4)] }.bufByte k) ∧ demo.eng.len.toNat ≤ 80 :=
  ⟨rfl, rfl, by decide, by decide, rfl, by decide, by decide⟩

/-- exec answers a next state. -/
theorem exec_answers (i : Instr) (s : State) : ∃ t, exec i s = .next t := (exec_next i s).elim fun _ h => ⟨_, h⟩

/-- FrameOfEveryCommand, FrameOfStoringCommands, FrameOfBuildAndPrngCommands and FrameOfWordCommands: a command of each
kind that answers a next state, in a state in which it is let through. -/
theorem witness_Frames : (∃ t, exec .pack demo = .next t) ∧ (∃ t, exec .encrypt demo = .next t) ∧
    (∃ t, exec .hash demo = .next t) ∧ (∃ t, exec .build demo = .next t) ∧ (∃ t, exec (.round 83) demo = .next t) ∧
    [Instr.nop, .build, .chksched, .prngSeed, .prngNext32, .prngNext64, .prngBounded, .unpack, .pack, .premix,
      .mswap 1 5, .wshuf, .prot 1 4, .perm 1, .subst, .lmix, .rkey 83, .round 83, .encrypt, .hash].all
      (fun i => commandError i demo.eng == none) = true :=
  ⟨exec_answers _ _, exec_answers _ _, exec_answers _ _, exec_answers _ _, exec_answers _ _, by decide⟩

theorem witness_RejectedCommandsAreTurnedAway : commandError (.mswap 0 6) demo.eng = some .illegalCmd ∧
    commandError .subst Engine.reset = some .noSchedule ∧
    commandError .hash { demoEng with len := 81 } = some .precondition := by decide

/-- RaiseRecordsTheFirstError and RegisterReadsReturnTheState: no record, and a record. -/
theorem witness_Errors : demoEng.err = none ∧
    (demoEng.raise .access 7).err = some { code := .access, ovf := false, info := 7 } ∧ demoEng.pend = none ∧
    (demoEng.raise .access 7).pend = none := by decide

theorem witness_CmdWriteAcceptsOrRejects : (0x00005123 : CmdWord) = BitVec.ofNat 32 (0x1234567800005123 : Word).toNat := by decide

/-- Each clause of IllegalPlace at its bounds, and legal neighbours that no clause takes in. -/
theorem witness_IllegalAccessRaisesAccess :
    IllegalPlace 0x080 4 ∧ IllegalPlace 0x0CC 8 ∧ IllegalPlace 0x078 8 ∧ IllegalPlace 0x101 2 ∧ IllegalPlace 0x160 8 ∧
    IllegalPlace 0x0D0 8 ∧ IllegalPlace 0x0FF 1 ∧ IllegalPlace 0x164 1 ∧ IllegalPlace 0x1FF 1 ∧
    ¬ IllegalPlace 0x070 8 ∧ ¬ IllegalPlace 0x080 8 ∧ ¬ IllegalPlace 0x0C8 8 ∧ ¬ IllegalPlace 0x100 8 ∧
    ¬ IllegalPlace 0x160 4 ∧ ¬ IllegalPlace 0x163 1 ∧ 0x000 ∈ readOnlyOffsets ∧ 0x070 ∈ readOnlyOffsets := by
  simp [IllegalPlace, readOnlyOffsets]

/-- BusyAccessRaisesAccessBusy: an engine-owned register, BUF at both ends, an operand register; and PendingCommandIsFrozen. -/
theorem witness_BusyAccessRaisesAccessBusy : (pending 0x30 demoEng).pend.isSome = true ∧
    ¬ IllegalPlace 0x0C8 8 ∧ 0x0C8 ∈ engineOwnedOffsets ∧ 0x0C8 ∉ readOnlyOffsets ∧
    ¬ IllegalPlace 0x040 8 ∧ 0x040 ∈ engineOwnedOffsets ∧
    ¬ IllegalPlace 0x100 8 ∧ ¬ IllegalPlace 0x163 1 ∧ 0x163 ∉ readOnlyOffsets ∧
    ¬ IllegalPlace 0x060 8 ∧ 0x060 ∈ operandOffsets ∧ 0x060 ∉ readOnlyOffsets := by
  simp [IllegalPlace, readOnlyOffsets, engineOwnedOffsets, operandOffsets, pending]

/-- RegisterWritesStoreTheirFields, PendingCommandIsFrozen and SoftResetIsTheWholeReset: CTRL with and without SRST. -/
theorem witness_CtrlWrites : demoEng.pend = none ∧ (0x00000003 : Word).getLsbD 31 = false ∧
    (0x80000003 : Word).getLsbD 31 = true := by decide

/-- SchedDataReadsTheIndexSpace: no store; the first and the last entry; and an index between two regions' entries. -/
theorem witness_SchedDataReadsTheIndexSpace : Engine.reset.store = none ∧ Engine.reset.pend = none ∧
    demoEng.store = some demoSchedule ∧ demoEng.pend = none ∧
    EntryAt demoSchedule 0x0000 ((demoSchedule.sbox1[0][0]).setWidth 64) ∧
    EntryAt demoSchedule 0x4353 ((demoSchedule.rkey[83]).setWidth 64) ∧
    (∀ v, ¬ EntryAt demoSchedule 0x4005 v) ∧ (∀ v, ¬ EntryAt demoSchedule 0xFFFF v) := by
  refine ⟨rfl, rfl, rfl, rfl, .sbox1 0 0 (by decide) (by decide), .rkey 83 (by decide), ?_, ?_⟩
  · intro v h
    generalize hn : 0x4005 = n at h
    cases h <;> omega
  · intro v h
    generalize hn : 0xFFFF = n at h
    cases h <;> omega

/-- BufAccessIsLittleEndianAndNeverSplit: BUF[0..7], BUF[99], and an access that runs past BUF[99]. -/
theorem witness_BufAccessIsLittleEndianAndNeverSplit : demoEng.pend = none ∧ Memory.wf demoEng.buf = true ∧
    (0x100 : BitVec 9).toNat % Width.w8.bytes = 0 ∧ (0x163 : BitVec 9).toNat + Width.w1.bytes - 1 ≤ 0x163 ∧
    0x163 < (0x160 : BitVec 9).toNat + Width.w8.bytes - 1 ∧ (0x101 : BitVec 9).toNat % Width.w2.bytes ≠ 0 := by decide

theorem witness_StatusWriteClearsWhatItNames : (0x4 : Word).getLsbD 2 = true ∧ (0x2 : Word).getLsbD 1 = true := by decide

theorem witness_ResetValuesAreThePrintedOnes : ∃ e, e = State.reset.eng := ⟨_, rfl⟩

/-- A busy machine whose turns are set, running a program of one statement. -/
def busyWith (ts : List Turn) (p : List HostStmt) : State :=
  { eng := pending 0x30 demoEng, host := { program := p, pos := 0, vars := [(1, 5)] }, turns := ts
    params := State.reset.params }

/-- ResetAbandonsThePendingCommand, through `rst` (busy and idle) and through CTRL.SRST. -/
theorem witness_ResetAbandonsThePendingCommand :
    ({ demo with turns := [.rst] }.eng.pend = none ∧ { demo with turns := [.rst] }.turns = [.rst]) ∧
    ((busyWith [.rst, .engine] []).eng.pend.isSome = true ∧ (busyWith [.rst, .engine] []).turns = [.rst, .engine]) ∧
    (busyWith [.host, .engine] [.wr .w8 0x008 0x80000000]).turns = [.host, .engine] ∧
    (busyWith [.host, .engine] [.wr .w8 0x008 0x80000000]).host.program[0]? = some (.wr .w8 0x008 0x80000000) ∧
    (0x80000000 : Word).getLsbD 31 = true := by decide

theorem witness_EngineTurnRunsThePendingCommand : (busyWith [.engine] []).eng.pend = some 0x30 ∧ decode 0x30 = .ok .encrypt ∧
    (busyWith [.engine] []).turns = [.engine] ∧ (busyWith [] []).turns = [] := by decide

/-- HostTurnRunsTheNextStatement: each kind of statement, the branch both ways. -/
theorem witness_HostTurnRunsTheNextStatement :
    (busyWith [.host] []).turns = [.host] ∧ Cells.wf (busyWith [.host] []).host.vars = true ∧
    (busyWith [.host] [.wr .w8 0x018 0]).host.program[0]? = some (.wr .w8 0x018 0) ∧
    (busyWith [.host] [.rd .w8 1 0x010]).host.program[0]? = some (.rd .w8 1 0x010) ∧
    (busyWith [.host] [.bnz 1 0x2 7, .label 7]).host.program[0]? = some (.bnz 1 0x2 7) ∧
    Cells.read (busyWith [.host] []).host.vars 1 &&& 0x2 = 0 ∧ Cells.read (busyWith [.host] []).host.vars 1 &&& 0x4 ≠ 0 ∧
    (busyWith [.host] [.bnz 1 0x4 7, .label 7]).host.program[1]? = some (.label 7) ∧
    (∀ q, q < 1 → (busyWith [.host] [.bnz 1 0x4 7, .label 7]).host.program[q]? ≠ some (.label 7)) ∧
    (busyWith [.host] [.halt]).host.program[0]? = some .halt ∧ (busyWith [.host] []).host.program[0]? = none := by decide

theorem witness_CommandRunsAfterItsCmdWrite :
    let s : State := { demo with
      turns := [.host, .engine]
      host := { program := [.wr .w8 0x018 (BitVec.ofNat 64 (encode .hash).toNat)], pos := 0, vars := [] } }
    Instr.hash.wellFormed = true ∧ s.eng.pend = none ∧ commandError .hash s.eng = none ∧ s.turns = [.host, .engine] ∧
    s.host.program[s.host.pos]? = some (.wr .w8 0x018 (BitVec.ofNat 64 (encode .hash).toNat)) := by decide

/-- NoCommandOrAccessStopsTheMachine: a program whose label is there, and one whose label is missing, which faults. -/
theorem witness_NoCommandOrAccessStopsTheMachine :
    labelsOk (busyWith [.host] [.bnz 1 0x4 7, .label 7]).host.program = true ∧
    step (busyWith [.host] [.bnz 1 0x4 7]) = .fault (.noSuchLabel 7) := ⟨by decide, rfl⟩

/-- StepKeepsTheInvariants and PendingCommandIsEventuallyCompleted: a state with a schedule and a pending command, whose step
is the engine's. -/
theorem witness_StepKeepsTheInvariants :
    (withEng (pending 0x2A plainEng)).eng.pend.isSome = true ∧
    labelsOk (withEng (pending 0x2A plainEng)).host.program = true ∧
    (withEng (pending 0x2A plainEng)).Inv ∧ ∃ t, step (withEng (pending 0x2A plainEng)) = .next t := by
  refine ⟨rfl, rfl, ⟨⟨?_, rfl, ?_, ?_, ?_⟩, rfl⟩, ?_⟩
  · intro w h
    obtain rfl : 0x2A = w := Option.some.inj h
    exact ⟨rfl, rfl, .round 0, by decide, by decide⟩
  · intro c h; cases h
  · intro sch h
    obtain rfl : plainSchedule = sch := Option.some.inj h
    exact plain_ok
  · intro r h; cases h
  · obtain ⟨t, h⟩ := exec_answers (.round 0) (withEng (pending 0x2A plainEng))
    refine ⟨t, ?_⟩
    rw [step_nil rfl]
    exact (engineStep_pending rfl (by decide)).trans h

/-- OnlyBuildAndResetTouchTheStore: a reset, and a BUILD on an engine without a store. -/
theorem witness_OnlyBuildAndResetTouchTheStore :
    (∃ t, step (busyWith [.rst] []) = .next t ∧ t.eng.store ≠ (busyWith [.rst] []).eng.store) ∧
    ∃ t, step (withEng (pending 0x01 Engine.reset)) = .next t ∧
      t.eng.store ≠ (withEng (pending 0x01 Engine.reset)).eng.store :=
  ⟨⟨_, rfl, by simp [busyWith, pending, demoEng, Engine.reset]⟩, ⟨_, rfl, by
    simp [withEng, pending, Engine.reset]⟩⟩

end Sys2Proof.Tests
end

section
/-! PROOFS. A pending command completes or is abandoned by a reset (00_scope.md R14, 20_memory.md R79). While a command is
pending a host access either resets the engine or leaves PEND and the command's operands frozen, so the command stays ready
to run until the engine's own turn, which completes it. -/

namespace Sys2Proof.Machine

/-! ### The host's turn while a command is pending -/

/-- A write to STATUS changes DONE and the error record, each where its bit is set (10_state.md R25). -/
theorem writeStatus_eq (v : Word) (e : Engine) :
    writeStatus v e =
      { e with done := !v.getLsbD 1 && e.done, err := if v.getLsbD 2 then none else e.err } := by
  unfold writeStatus
  cases v.getLsbD 1 <;> cases v.getLsbD 2 <;> rfl

/-- What a write to a control register does while a command is pending: a reset by CTRL, or new enables, DONE or ERR
(20_memory.md R70, 60_exceptions.md R193). -/
theorem writeReg_of_busy {r : Reg} {e : Engine} (v : Word) (hr : r.cls = .control) (hb : e.busy = true) :
    writeReg r v e = Engine.reset ∨
      ∃ ieDone ieErr done err, writeReg r v e = { e with ieDone := ieDone, ieErr := ieErr, done := done, err := err } := by
  cases r with
  | ctrl =>
    by_cases hs : v.getLsbD 31 = true
    · exact .inl (if_pos hs)
    · exact .inr ⟨_, _, _, _, if_neg hs⟩
  | status => exact .inr ⟨_, _, _, _, writeStatus_eq v e⟩
  | cmd =>
    have busy : e.present (v.setWidth 32) = e.raise .cmdBusy (v.setWidth 32) := by simp [Engine.present, hb]
    exact .inr ⟨_, _, _, _, busy.trans (Engine.raise_eq e _ _)⟩
  | id | err => exact .inr ⟨_, _, _, _, rfl⟩
  | key | len | arg | schedAddr => cases hr
  | prngOut | prngCur | prngMul | prngAdd | schedData | skey | word => cases hr

/-- What a host access does while a command is pending: it resets the engine, or changes at most the interrupt enables,
DONE and the error record (10_state.md R47, 20_memory.md R70). -/
theorem access_of_busy (a : Access) {e : Engine} (hb : e.busy = true) :
    (access a e).2 = Engine.reset ∨
      ∃ ieDone ieErr done err, (access a e).2 = { e with ieDone := ieDone, ieErr := ieErr, done := done, err := err } := by
  cases a with
  | read off n =>
    rcases memRead_engine off n e with h | ⟨_, _, h⟩
    · exact .inr ⟨_, _, _, _, h⟩
    · exact .inr ⟨_, _, _, _, h.trans (Engine.raise_eq e _ _)⟩
  | write off n v =>
    rcases memWrite_cases off n v e with ⟨_, _, h⟩ | ⟨r, _, hr, _, h⟩ | ⟨hi, _, _⟩
    · exact .inr ⟨_, _, _, _, h.trans (Engine.raise_eq e _ _)⟩
    · simpa only [access, h] using writeReg_of_busy v (hr hb) hb
    · simp [hb] at hi

/-- A branch of a program whose branches all have a target finds its label. -/
theorem labelPos_of_labelsOk {p : List HostStmt} {n x l : Nat} {mask : Word} (h : labelsOk p = true)
    (hb : p[n]? = some (.bnz x mask l)) : ∃ q, labelPos l 0 p = some q :=
  Option.isSome_iff_exists.mp (List.all_eq_true.mp h _ (List.mem_of_getElem? hb))

/-- The turn of a host whose branches all have a target: it answers a next state, keeps the program, and changes the engine
by at most one access (30_encoding.md R99). -/
theorem hostStep_of_labelsOk {s : State} (hl : labelsOk s.host.program = true) :
    ∃ e h, hostStep s = .next { s with eng := e, host := h } ∧ h.program = s.host.program ∧
      (e = s.eng ∨ ∃ a, e = (access a s.eng).2) := by
  unfold hostStep
  split
  · exact ⟨s.eng, s.host, rfl, rfl, .inl rfl⟩
  · exact ⟨s.eng, s.host, rfl, rfl, .inl rfl⟩
  · exact ⟨_, _, rfl, rfl, .inl rfl⟩
  · exact ⟨_, _, rfl, rfl, .inr ⟨_, rfl⟩⟩
  · exact ⟨_, _, rfl, rfl, .inr ⟨_, rfl⟩⟩
  · rename_i hst
    obtain ⟨q, hq⟩ := labelPos_of_labelsOk hl hst
    split
    · exact ⟨_, _, rfl, rfl, .inl rfl⟩
    · rw [hq]
      exact ⟨_, _, rfl, rfl, .inl rfl⟩

/-! ### A pending command stays ready until it is settled -/

/-- A command is pending that acceptance lets through in the present state (10_state.md R47, 60_exceptions.md R176). -/
def Engine.Ready (e : Engine) : Prop :=
  ∃ w i, e.pend = some w ∧ decode w = .ok i ∧ commandError i e = none

/-- No command is pending, because the last one has completed or a reset has abandoned it (20_memory.md R79,
70_reset_and_hazards.md R209). -/
def Engine.Settled (e : Engine) : Prop :=
  e.pend = none ∧ (e.done = true ∨ e = Engine.reset)

theorem Engine.Inv.ready {e : Engine} (h : e.Inv) (hp : e.pend.isSome = true) : e.Ready := by
  obtain ⟨w, hw⟩ := Option.isSome_iff_exists.mp hp
  obtain ⟨_, _, i, hd, hc⟩ := h.pending w hw
  exact ⟨w, i, hw, hd, hc⟩

theorem Engine.Ready.busy {e : Engine} (h : e.Ready) : e.busy = true := by
  obtain ⟨w, _, hw, _⟩ := h
  exact e.busy_eq_true.mpr ⟨w, hw⟩

theorem Engine.reset_settled : Engine.reset.Settled := ⟨rfl, .inr rfl⟩

theorem Engine.complete_settled (e : Engine) : e.complete.Settled := ⟨e.complete_pend, .inl e.complete_done⟩

/-- The operands of a pending command are frozen: no access but a reset keeps it from being ready (10_state.md R47). -/
theorem Engine.Ready.access {e : Engine} (h : e.Ready) (a : Access) :
    (access a e).2.Settled ∨ (access a e).2.Ready := by
  rcases access_of_busy a h.busy with hr | ⟨_, _, _, _, hk⟩
  · exact .inl (hr ▸ Engine.reset_settled)
  · obtain ⟨w, i, hw, hd, hc⟩ := h
    rw [hk]
    exact .inr ⟨w, i, hw, hd, (commandError_congr rfl rfl).trans hc⟩

/-- The engine's turn completes a ready command (20_memory.md R79). -/
theorem engineStep_of_ready {s : State} (h : s.eng.Ready) :
    ∃ e, engineStep s = .next { s with eng := e } ∧ e.Settled := by
  obtain ⟨w, i, hw, hd, hc⟩ := h
  exact ⟨_, (engineStep_pending hw hd).trans (exec_of_none hc), Engine.complete_settled _⟩

/-- Any turn settles a ready command or leaves it ready. -/
theorem takeTurn_of_ready (t : Turn) {s : State} (hr : s.eng.Ready) (hl : labelsOk s.host.program = true) :
    ∃ e h, takeTurn t s = .next { s with eng := e, host := h } ∧ h.program = s.host.program ∧ (e.Settled ∨ e.Ready) := by
  cases t with
  | host =>
    obtain ⟨e, h, hs, hp, rfl | ⟨a, rfl⟩⟩ := hostStep_of_labelsOk hl
    · exact ⟨_, h, hs, hp, .inr hr⟩
    · exact ⟨_, h, hs, hp, hr.access a⟩
  | engine =>
    obtain ⟨e, hs, he⟩ := engineStep_of_ready hr
    exact ⟨e, s.host, hs, rfl, .inl he⟩
  | rst => exact ⟨_, s.host, rfl, rfl, .inl Engine.reset_settled⟩

/-- A ready command is settled at most one step after the turns that are set. -/
theorem ready_settles (ts : List Turn) {s : State} (ht : s.turns = ts) (hr : s.eng.Ready)
    (hl : labelsOk s.host.program = true) :
    ∃ k t, k ≤ ts.length + 1 ∧ Host.Core.run Sys2Proof.core k s = .next t ∧ t.eng.Settled := by
  induction ts generalizing s with
  | nil =>
    obtain ⟨e, hs, he⟩ := engineStep_of_ready hr
    have first : step s = .next { s with eng := e } := by
      rw [step_nil ht, defaultTurn, if_pos hr.busy]
      exact hs
    exact ⟨1, _, Nat.le_refl 1, run_succ first, he⟩
  | cons a ts ih =>
    obtain ⟨e, h, hs, hp, he⟩ := takeTurn_of_ready a (s := { s with turns := ts }) hr hl
    have first := (step_cons ht).trans hs
    rcases he with he | he
    · exact ⟨1, _, by simp, run_succ first, he⟩
    · obtain ⟨k, t, hk, hrun, hset⟩ := ih (s := { s with eng := e, host := h, turns := ts }) rfl he (hp ▸ hl)
      exact ⟨k + 1, t, Nat.succ_le_succ hk, (run_succ first).trans hrun, hset⟩

/-- Settles O56, by induction on the turns that are set: each turn settles the pending command or leaves it ready, and the
default turn after them is the engine's. -/
theorem pendingCommandIsEventuallyCompleted : Obligations.PendingCommandIsEventuallyCompleted := by
  intro s hinv hp hl
  exact ready_settles s.turns rfl (hinv.eng.ready hp) hl

end Sys2Proof.Machine
end

section
/-! PROOFS. The schedules BUILD writes have the invariants of 10_state.md R45, and the test of CHKSCHED (41_schedule.md
R130) is those invariants. The tables are shuffles, so permutations; the rotation set is six different candidates of a
shuffle, the sixth making the sum odd; the rest are ranges of single draws. -/

namespace Sys2Proof.Machine

open Sys2Proof.Claims

/-! ### The test of CHKSCHED is the invariants -/

/-- A table of 2^w entries that reaches every value is a bijection, and the other way round (10_state.md R45 (a)). -/
theorem isFullTable_iff_bijective {w n : Nat} (t : Vector (BitVec w) n) (hn : n = 2 ^ w) :
    isFullTable t = true ↔ Function.Bijective fun x : Fin n => t[x.val] := by
  rw [isFullTable_iff]
  constructor
  · intro h
    have surj : Function.Surjective fun x : Fin n => t[x.val] := fun y =>
      let ⟨x, hx, e⟩ := h y
      ⟨⟨x, hx⟩, e⟩
    refine surj.bijective_of_nat_card_le ?_
    rw [Nat.card_congr (BitVec.equivFin (m := w)).toEquiv, Nat.card_fin, Nat.card_fin, hn]
  · intro h y
    obtain ⟨x, e⟩ := h.surjective y
    exact ⟨x.val, x.isLt, e⟩

/-- The entries of a vector are pairwise different exactly where any two places hold different entries. -/
theorem pairwise_ne_toList_iff {α : Type} {n : Nat} (v : Vector α n) :
    v.toList.Pairwise (· ≠ ·) ↔ ∀ i (_ : i < n) j (_ : j < n), i ≠ j → v[i] ≠ v[j] := by
  constructor
  · intro h i hi j hj hij e
    exact hij ((List.Nodup.getElem_inj_iff h (hi := by simpa) (hj := by simpa)).mp (by simpa using e))
  · intro h
    refine List.pairwise_iff_getElem.mpr fun i j hi hj hij => ?_
    simpa using h i (by simpa using hi) j (by simpa using hj) hij.ne

/-- The sum of the six entries of a rotation set. -/
theorem sum_toNat_toList (r : Vector (BitVec 6) 6) :
    (r.toList.map (·.toNat)).sum =
      r[0].toNat + r[1].toNat + r[2].toNat + r[3].toNat + r[4].toNat + r[5].toNat := by
  have entries : r.toList = [r[0], r[1], r[2], r[3], r[4], r[5]] := by
    refine List.ext_getElem (by simp) fun i hi _ => ?_
    have : i < 6 := by simpa using hi
    interval_cases i <;> simp
  rw [entries]
  simp only [List.map_cons, List.map_nil, List.sum_cons, List.sum_nil]
  omega

/-- The test of CHKSCHED is the invariants of 10_state.md R45 (41_schedule.md R130). -/
theorem Schedule.ok_iff (sch : Schedule) : sch.ok = true ↔ ScheduleInvariants sch := by
  simp only [Schedule.ok, Bool.and_eq_true, decide_eq_true_eq, Vector.all_toList, Vector.all_eq_true, isAmount_iff,
    pairwise_ne_toList_iff, sum_toNat_toList, isFullTable_iff_bijective (w := 6) (n := 64) _ rfl,
    isFullTable_iff_bijective (w := 10) (n := 1024) _ rfl]
  constructor
  · rintro ⟨⟨⟨⟨⟨small, large⟩, distinct⟩, rotations⟩, oddSum⟩, amounts⟩
    exact ⟨small, large, distinct, rotations, oddSum, amounts, fun _ _ => BitVec.isLt _⟩
  · rintro ⟨small, large, distinct, rotations, oddSum, amounts, _⟩
    exact ⟨⟨⟨⟨⟨small, large⟩, distinct⟩, rotations⟩, oddSum⟩, amounts⟩

/-! ### The tables -/

/-- A drawn table is a bijection, whatever the draws (41_schedule.md R123). -/
theorem drawTable_bijective (P : PrngParams) (g : Prng) {size w : Nat} (hn : size = 2 ^ w) :
    Function.Bijective fun x : Fin size => (drawTable P size w g).1[x.val] := by
  rw [← isFullTable_iff_bijective _ hn, isFullTable_iff]
  intro y
  have drawn : y.toNat ∈ (shuffle P size g).1.toList :=
    (shuffle_perm P size g).mem_iff.mpr (List.mem_range.mpr (hn ▸ y.isLt))
  obtain ⟨x, hx, e⟩ := Vector.mem_iff_getElem.mp (Vector.mem_toList_iff.mp drawn)
  exact ⟨x, hx, BitVec.eq_of_toNat_eq ((drawTable_toNat P g hn.le x hx).trans e)⟩

/-! ### The rotation set -/

/-- The scan stops at the first candidate that makes the sum odd, if there is one (41_schedule.md R125). -/
theorem scanOdd_eq_first {sum : Nat} {bs : List Nat} (h : ∃ b ∈ bs, (b + 1 + sum) % 2 = 1) :
    ∃ q, ∃ _ : q < bs.length, scanOdd sum bs = bs[q] + 1 ∧ (bs[q] + 1 + sum) % 2 = 1 ∧
      ∀ p (_ : p < q), (bs[p] + 1 + sum) % 2 = 0 := by
  induction bs with
  | nil => simp at h
  | cons b bs ih =>
    by_cases hb : (b + 1 + sum) % 2 = 0
    · have later : ∃ b ∈ bs, (b + 1 + sum) % 2 = 1 := by
        obtain ⟨c, hc, odd⟩ := h
        rcases List.mem_cons.mp hc with rfl | hc
        · omega
        · exact ⟨c, hc, odd⟩
      obtain ⟨q, hq, e, odd, first⟩ := ih later
      refine ⟨q + 1, Nat.succ_lt_succ hq, by simpa [scanOdd, hb] using e, odd, fun p hp => ?_⟩
      cases p with
      | zero => exact hb
      | succ p => exact first p (Nat.lt_of_succ_lt_succ hp)
    · exact ⟨0, by simp, by simp [scanOdd, hb], by simp; omega, fun p hp => absurd hp (Nat.not_lt_zero p)⟩

/-- Five numbers leave out one of any six of the same parity. -/
theorem exists_unlisted {l : List Nat} (hl : l.length ≤ 5) (r : Nat) : ∃ k, k < 6 ∧ 2 * k + r ∉ l := by
  have six : ((Finset.range 6).image fun k => 2 * k + r).card = 6 :=
    Finset.card_image_of_injective _ fun a b h => by simpa using h
  have five : l.toFinset.card < ((Finset.range 6).image fun k => 2 * k + r).card := by
    have := l.toFinset_card_le
    omega
  obtain ⟨b, hb, unlisted⟩ := Finset.exists_mem_notMem_of_card_lt_card five
  obtain ⟨k, hk, rfl⟩ := Finset.mem_image.mp hb
  exact ⟨k, Finset.mem_range.mp hk, by simpa using unlisted⟩

/-- Where the entries of a rotation set stand among the candidates: entry j < 5 at place j, the sixth from place 5 on. -/
theorem rotations_place {B : Vector Nat 63} {rot : Vector (BitVec 6) 6} (h : RotationsFrom B rot) (j : Nat) (hj : j < 6) :
    ∃ p, ∃ _ : p < 63, (rot[j]).toNat = B[p] + 1 ∧ (p = j ∨ j = 5 ∧ 5 ≤ p) := by
  by_cases h5 : j < 5
  · exact ⟨j, by omega, h.first j h5, .inl rfl⟩
  · obtain rfl : j = 5 := by omega
    obtain ⟨q, hq, hq5, e, -, -⟩ := h.sixth
    exact ⟨q, hq, e, .inr ⟨rfl, hq5⟩⟩

/-- The amounts of the rotation set have an odd sum (10_state.md R45 (b)). -/
theorem rotations_oddSum {B : Vector Nat 63} {rot : Vector (BitVec 6) 6} (h : RotationsFrom B rot) :
    (rot[0].toNat + rot[1].toNat + rot[2].toNat + rot[3].toNat + rot[4].toNat + rot[5].toNat) % 2 = 1 := by
  obtain ⟨q, hq, -, e, odd, -⟩ := h.sixth
  have h0 := h.first 0 (by decide)
  have h1 := h.first 1 (by decide)
  have h2 := h.first 2 (by decide)
  have h3 := h.first 3 (by decide)
  have h4 := h.first 4 (by decide)
  omega

section
variable {B : Vector Nat 63} (hB : B.toList.Perm (List.range 63))
include hB

/-- A candidate is below 63 (41_schedule.md R125). -/
theorem candidate_lt (i : Nat) (hi : i < 63) : B[i] < 63 := by
  have : B[i] ∈ B.toList := by simp
  simpa using hB.subset this

/-- Different places hold different candidates. -/
theorem candidate_inj (i j : Nat) (hi : i < 63) (hj : j < 63) (e : B[i] = B[j]) : i = j :=
  (List.Nodup.getElem_inj_iff (hB.nodup_iff.mpr List.nodup_range) (hi := by simpa) (hj := by simpa)).mp (by simpa using e)

/-- After the first five there is a candidate of either parity: six of the numbers below 63 have it, and five places hold at
most five of them (41_schedule.md R128). -/
theorem exists_candidate_odd (sum : Nat) : ∃ b ∈ B.toList.drop 5, (b + 1 + sum) % 2 = 1 := by
  obtain ⟨k, hk, unused⟩ := exists_unlisted (l := B.toList.take 5) (by simp) (sum % 2)
  have listed : 2 * k + sum % 2 ∈ B.toList.take 5 ++ B.toList.drop 5 := by
    rw [List.take_append_drop]
    exact hB.mem_iff.mpr (List.mem_range.mpr (by omega))
  refine ⟨_, (List.mem_append.mp listed).resolve_left unused, by omega⟩

/-- A candidate plus one fits in the six bits of a rotation amount. -/
theorem ofNat_candidate (i : Nat) (hi : i < 63) : (BitVec.ofNat 6 (B[i] + 1)).toNat = B[i] + 1 := by
  have := candidate_lt hB i hi
  rw [BitVec.toNat_ofNat]
  exact Nat.mod_eq_of_lt (by omega)

/-- The rotation set is the first five candidates and the first later one that makes the sum odd (41_schedule.md R125). -/
theorem rotationSet_from : RotationsFrom B (rotationSet B) where
  first j hj := by
    have fits := ofNat_candidate hB j (by omega)
    interval_cases j <;> exact fits
  sixth := by
    obtain ⟨q, hq, e, odd, first⟩ := scanOdd_eq_first (exists_candidate_odd hB
      ((B[0] + 1) + (B[1] + 1) + (B[2] + 1) + (B[3] + 1) + (B[4] + 1)))
    have place : 5 + q < 63 := by simp at hq; omega
    simp only [List.getElem_drop, Vector.getElem_toList] at e odd first
    refine ⟨5 + q, place, Nat.le_add_right 5 q, ?_, odd, fun p _ hp hpq => ?_⟩
    · rw [← ofNat_candidate hB (5 + q) place, ← e]
      rfl
    · obtain ⟨k, rfl⟩ := Nat.exists_eq_add_of_le hp
      exact first k (by omega)

/-- Different places of the rotation set hold different amounts (10_state.md R45 (b)). -/
theorem rotations_distinct {rot : Vector (BitVec 6) 6} (h : RotationsFrom B rot) (i : Nat) (hi : i < 6) (j : Nat)
    (hj : j < 6) (hij : i ≠ j) : rot[i] ≠ rot[j] := by
  obtain ⟨p, hp, ep, placeI⟩ := rotations_place h i hi
  obtain ⟨q, hq, eq, placeJ⟩ := rotations_place h j hj
  intro e
  have same : p = q := candidate_inj hB p q hp hq (by rw [e] at ep; omega)
  omega

/-- The amounts of the rotation set lie in [1, 63] (10_state.md R45 (b)). -/
theorem rotations_range {rot : Vector (BitVec 6) 6} (h : RotationsFrom B rot) (j : Nat) (hj : j < 6) :
    1 ≤ (rot[j]).toNat ∧ (rot[j]).toNat ≤ 63 := by
  obtain ⟨p, hp, e, -⟩ := rotations_place h j hj
  have := candidate_lt hB p hp
  omega

end

/-! ### The schedule BUILD writes -/

/-- Every schedule BUILD computes has the invariants of 10_state.md R45, whatever the key and the parameters of the PRNG. -/
theorem buildSchedule_invariants (P : PrngParams) (key : BitVec 32) : ScheduleInvariants (buildSchedule P key).1 := by
  have perm := shuffle_perm P 63 (Prng.advance P 12920 (Prng.seed key))
  have rot : RotationsFrom _ (buildSchedule P key).1.rot := buildSchedule_rot P key ▸ rotationSet_from perm
  refine ⟨fun t ht => ?_, fun t ht => ?_, rotations_distinct perm rot, rotations_range perm rot, rotations_oddSum rot,
    fun d hd s hs k hk => ?_, fun _ _ => BitVec.isLt _⟩
  · simp only [buildSchedule_sbox1 P key t ht]
    exact drawTable_bijective P _ (size := 64) (w := 6) rfl
  · simp only [buildSchedule_sbox2 P key t ht]
    exact drawTable_bijective P _ (size := 1024) (w := 10) rfl
  · simp only [buildSchedule_pbox P key d hd, drawPbox_rot P _ s k hs hk]
    exact drawAmount_range P _

/-- Every schedule BUILD computes passes the test of CHKSCHED (41_schedule.md R131). -/
theorem buildSchedule_ok (P : PrngParams) (key : BitVec 32) : (buildSchedule P key).1.ok = true :=
  (Schedule.ok_iff _).mpr (buildSchedule_invariants P key)

/-- What BUILD answers, in every state (41_schedule.md R121). -/
theorem exec_build (s : State) : exec .build s = .next { s with eng := (s.eng.build s.params.prng).complete } :=
  exec_plain rfl rfl rfl

/-- CHKSCHED on a store that passes its test completes and does nothing else (41_schedule.md R130). -/
theorem exec_chksched_of_ok {s : State} {sch : Schedule} (hs : s.eng.store = some sch) (hok : sch.ok = true) :
    exec .chksched s = .next (finished s s.eng) :=
  exec_sched hs rfl Instr.noConfusion rfl (Engine.check_of_ok s.eng sch hok)

/-- Settles O15: the schedule BUILD computes has the invariants, and CHKSCHED tests them. -/
theorem everyBuiltScheduleIsSound : Obligations.EveryBuiltScheduleIsSound := fun s =>
  ⟨_, _, exec_build s, rfl, buildSchedule_invariants s.params.prng s.eng.key,
    exec_chksched_of_ok rfl (buildSchedule_ok s.params.prng s.eng.key)⟩

end Sys2Proof.Machine
end

section
/-! PROOFS. What every step keeps (10_state.md R38, R45, R47; 41_schedule.md R131). Each agent's move is followed to the
engine: a host access, the completion of the pending command, or a reset; each keeps the invariants and, but for BUILD and a
reset, the store. -/

namespace Sys2Proof.Machine

/-! ### Host accesses -/

/-- New enables, DONE cleared or kept, and an error record without INVARIANT leave the invariants standing
(10_state.md R24, R25, R30). -/
theorem Engine.Inv.flags {e : Engine} (h : e.Inv) (ieDone ieErr keep : Bool) {err : Option ErrRecord}
    (he : ∀ r, err = some r → r.code ≠ .invariant) :
    ({ e with ieDone := ieDone, ieErr := ieErr, done := keep && e.done, err := err } : Engine).Inv := by
  refine { h with pending := fun w hw => ?_, noInvariantError := he }
  obtain ⟨hl, hd, i, hi, hc⟩ := h.pending w hw
  exact ⟨hl, by simp [hd], i, hi, (commandError_congr rfl rfl).trans hc⟩

/-- Taking an error other than INVARIANT keeps the invariants (60_exceptions.md R180). -/
theorem Engine.Inv.raise {e : Engine} (h : e.Inv) {x : ErrCode} (hx : x ≠ .invariant) (info : BitVec 32) :
    (e.raise x info).Inv := by
  rw [Engine.raise_eq]
  refine h.flags e.ieDone e.ieErr true fun r hr => ?_
  cases he : e.err with
  | none =>
    obtain rfl := Option.some.inj ((Engine.raise_err_none e x info he).symm.trans hr)
    exact hx
  | some old =>
    obtain rfl := Option.some.inj ((Engine.raise_err_some e x info old he).symm.trans hr)
    exact h.noInvariantError old he

/-- Accepting a command that the state lets through keeps the invariants (60_exceptions.md R176). -/
theorem Engine.Inv.accept {e : Engine} (h : e.Inv) {w : CmdWord} {i : Instr} (hd : decode w = .ok i)
    (hc : commandError i e = none) : (e.accept w).Inv where
  pending v hv := by
    obtain rfl := Option.some.inj hv
    exact ⟨rfl, rfl, i, hd, (commandError_congr rfl rfl).trans hc⟩
  bufWf := h.bufWf
  bufIn := h.bufIn
  storeOk := h.storeOk
  noInvariantError := h.noInvariantError

theorem Engine.reset_inv : Engine.reset.Inv where
  pending _ h := nomatch h
  bufWf := rfl
  bufIn _ h := nomatch h
  storeOk _ h := nomatch h
  noInvariantError _ h := nomatch h

/-- A write to a register that the busy gating lets through keeps the invariants (20_memory.md R69, R70). -/
theorem Engine.Inv.writeReg {e : Engine} (h : e.Inv) (r : Reg) (v : Word) (hb : e.busy = true → r.cls = .control) :
    (writeReg r v e).Inv := by
  cases r with
  | ctrl =>
    simp only [Machine.writeReg, writeCtrl]
    split
    · exact Engine.reset_inv
    · exact h.flags _ _ true h.noInvariantError
  | status =>
    simp only [Machine.writeReg, writeStatus_eq]
    refine h.flags _ _ _ fun r hr => ?_
    split at hr
    · cases hr
    · exact h.noInvariantError r hr
  | cmd =>
    rcases present_cases e (v.setWidth 32) with ⟨x, hx, k⟩ | ⟨_, i, hd, hc, k⟩
    · simpa only [Machine.writeReg, k] using h.raise hx _
    · simpa only [Machine.writeReg, k] using h.accept hd hc
  | key | len | arg | schedAddr | word =>
    have idle : e.pend = none := e.busy_eq_false.mp (by simpa [Reg.cls] using hb)
    exact { h with pending := fun w hw => nomatch idle.symm.trans hw }
  | id | err | prngOut | prngCur | prngMul | prngAdd | schedData | skey => exact h

/-- A host access keeps the invariants of the engine. -/
theorem Engine.Inv.access {e : Engine} (h : e.Inv) (a : Access) : (access a e).2.Inv := by
  cases a with
  | read off n =>
    rcases memRead_engine off n e with k | ⟨x, hx, k⟩
    · simpa only [Machine.access, k] using h
    · simpa only [Machine.access, k] using h.raise hx _
  | write off n v =>
    rcases memWrite_cases off n v e with ⟨x, hx, k⟩ | ⟨r, _, hb, _, k⟩ | ⟨hi, ht, k⟩
    · simpa only [Machine.access, k] using h.raise hx _
    · simpa only [Machine.access, k] using h.writeReg r v hb
    · obtain ⟨low, high, _⟩ := accessTarget_buf ht
      simp only [Machine.access, k]
      refine { h with pending := fun w hw => ?_, bufWf := ?_, bufIn := ?_ }
      · exact nomatch (e.busy_eq_false.mp hi).symm.trans hw
      · exact Memory.wf_storeLE _ _ _ h.bufWf
      · exact Memory.inBuf_storeLE v h.bufIn low high

/-! ### Completion of a command -/

/-- What holds of the engine and of an effect with its store holds of the effect under the store's guard. -/
theorem Engine.withStore_induction {p : Engine → Prop} {f : Schedule → Engine → Engine} {e : Engine} (unchanged : p e)
    (effect : ∀ sch, e.store = some sch → p (f sch e)) : p (Engine.withStore f e) := by
  cases hs : e.store with
  | none => rwa [Engine.withStore_none e f hs]
  | some sch =>
    rw [Engine.withStore_some e f sch hs]
    exact effect sch hs

/-- BUF is in canonical form and lists its own bytes only (10_state.md R22). -/
def Engine.BufCanonical (e : Engine) : Prop := Memory.wf e.buf = true ∧ Memory.InBuf e.buf

/-- No command's effect takes BUF out of its canonical form or beyond its end, HASH with LEN at most 80
(43_driver.md R166). -/
theorem effectOf_bufCanonical (P : Params) {i : Instr} {e : Engine} (hl : i = .hash → e.len.toNat ≤ 80)
    (h : e.BufCanonical) : (effectOf P i e).BufCanonical := by
  obtain ⟨hw, hb⟩ := h
  cases hi : writesBuf i with
  | false => rw [Engine.BufCanonical, effectOf_buf P i e hi]; exact ⟨hw, hb⟩
  | true =>
    cases i with
    | pack => exact ⟨wf_packWords _ hw, inBuf_packWords _ hb⟩
    | encrypt =>
      refine Engine.withStore_induction (p := Engine.BufCanonical) ⟨hw, hb⟩ fun _ _ => ?_
      rw [Engine.BufCanonical, Engine.encrypt_buf]
      exact ⟨wf_packWords _ hw, inBuf_packWords _ hb⟩
    | hash =>
      have short : e.len.toNat < 100 := (hl rfl).trans_lt (by decide)
      refine Engine.withStore_induction (p := Engine.BufCanonical) ⟨hw, hb⟩ fun _ _ => ?_
      rw [Engine.BufCanonical, Engine.hash_buf]
      exact ⟨wf_finalize (wf_packWords _ (wf_padInput _ hw)), inBuf_finalize (inBuf_packWords _ (inBuf_padInput hb short))⟩
    | _ => cases hi

/-- Every store after a command's effect is sound: only BUILD writes one (41_schedule.md R131). -/
theorem effectOf_storeOk (P : Params) (i : Instr) {e : Engine} (h : ∀ sch, e.store = some sch → sch.ok = true) :
    ∀ sch, (effectOf P i e).store = some sch → sch.ok = true := by
  by_cases hi : i = .build
  · subst hi
    intro sch hs
    obtain rfl := Option.some.inj hs
    exact buildSchedule_ok P.prng e.key
  · rw [effectOf_store P i e hi]
    exact h

/-- With a sound store no command records an error (41_schedule.md R131, 60_exceptions.md R179). -/
theorem effectOf_err_of_storeOk (P : Params) (i : Instr) {e : Engine} (h : ∀ sch, e.store = some sch → sch.ok = true) :
    (effectOf P i e).err = e.err := by
  by_cases hi : i = .chksched
  · subst hi
    exact Engine.withStore_induction (p := fun e' => e'.err = e.err) rfl
      fun sch hs => congrArg Engine.err (Engine.check_of_ok e sch (h sch hs))
  · exact effectOf_err P i e hi

/-- Completing a command that the state lets through keeps the invariants (20_memory.md R79). -/
theorem Engine.Inv.complete_effectOf {e : Engine} (h : e.Inv) (P : Params) {i : Instr} (hc : commandError i e = none) :
    (effectOf P i e).complete.Inv := by
  obtain ⟨_, _, hl⟩ := commandError_eq_none.mp hc
  obtain ⟨bufWf, bufIn⟩ := effectOf_bufCanonical P hl ⟨h.bufWf, h.bufIn⟩
  exact {
    pending := fun _ hw => nomatch hw
    bufWf := bufWf
    bufIn := bufIn
    storeOk := effectOf_storeOk P i h.storeOk
    noInvariantError := fun r hr => h.noInvariantError r ((effectOf_err_of_storeOk P i h.storeOk).symm.trans hr) }

/-! ### The moves of the agents -/

/-- The host's move changes the engine by one access or not at all (30_encoding.md R99). -/
theorem hostStep_engine {s t : State} (h : hostStep s = .next t) : t.eng = s.eng ∨ ∃ a, t.eng = (access a s.eng).2 := by
  rcases hostStep_cases s with ⟨_, k⟩ | ⟨a, _, k⟩ | ⟨_, _, _, _, _, k⟩ <;> rw [k] at h <;> cases h
  · exact .inl rfl
  · exact .inr ⟨a, rfl⟩

/-- The host's move keeps the canonical form of its variables (30_encoding.md R99). -/
theorem hostStep_vars {s t : State} (h : hostStep s = .next t) (hv : Cells.wf s.host.vars = true) :
    Cells.wf t.host.vars = true := by
  unfold hostStep at h
  split at h
  · cases h; exact hv
  · cases h; exact hv
  · cases h; exact hv
  · cases h; exact hv
  · cases h; exact Cells.wf_write _ _ hv
  · split at h
    · cases h; exact hv
    · split at h <;> cases h
      exact hv

/-- The engine's move runs the pending command, which the state lets through, and so keeps the invariants. -/
theorem Engine.Inv.engineStep {s t : State} (h : s.eng.Inv) (hs : engineStep s = .next t) :
    t.eng.Inv ∧ t.host = s.host := by
  cases hp : s.eng.pend with
  | none =>
    rw [engineStep_idle hp] at hs
    cases hs
    exact ⟨h, rfl⟩
  | some w =>
    obtain ⟨_, _, i, hd, hc⟩ := h.pending w hp
    rw [engineStep_pending hp hd, exec_of_none hc] at hs
    cases hs
    exact ⟨h.complete_effectOf s.params hc, rfl⟩

/-- Every agent's move keeps the invariants of the machine. -/
theorem State.Inv.takeTurn {s t : State} (h : s.Inv) (a : Turn) (hs : takeTurn a s = .next t) : t.Inv := by
  cases a with
  | host =>
    refine ⟨?_, hostStep_vars hs h.vars⟩
    rcases hostStep_engine hs with k | ⟨a, k⟩
    · exact k ▸ h.eng
    · exact k ▸ h.eng.access a
  | engine =>
    obtain ⟨heng, hhost⟩ := h.eng.engineStep hs
    exact ⟨heng, hhost ▸ h.vars⟩
  | rst =>
    cases hs
    exact ⟨Engine.reset_inv, h.vars⟩

/-- A step is the move of one agent; it changes the list of turns besides. -/
theorem step_eq_takeTurn (s : State) : ∃ a ts, step s = takeTurn a { s with turns := ts } := by
  cases h : s.turns with
  | nil => exact ⟨defaultTurn s, s.turns, step_nil h⟩
  | cons a ts => exact ⟨a, ts, step_cons h⟩

/-- Settles O57: a step is one agent's move, and each move keeps the invariants. -/
theorem stepKeepsTheInvariants : Obligations.StepKeepsTheInvariants := by
  intro s t hs
  refine ⟨fun h => ?_, ?_⟩
  · obtain ⟨a, ts, k⟩ := step_eq_takeTurn s
    exact State.Inv.takeTurn (s := { s with turns := ts }) ⟨h.eng, h.vars⟩ a (k.symm.trans hs)
  · rcases step_cases s with ⟨t', k, hp⟩ | ⟨_, k⟩ <;> rw [k] at hs <;> cases hs
    exact hp

/-! ### The store -/

/-- A register write resets the engine or keeps the store (10_state.md R38). -/
theorem writeReg_store (r : Reg) (v : Word) (e : Engine) :
    writeReg r v e = Engine.reset ∨ (writeReg r v e).store = e.store := by
  cases r with
  | ctrl =>
    simp only [writeReg, writeCtrl]
    split
    · exact .inl rfl
    · exact .inr rfl
  | status => exact .inr (by rw [writeReg, writeStatus_eq])
  | cmd =>
    rcases present_cases e (v.setWidth 32) with ⟨x, _, k⟩ | ⟨_, _, _, _, k⟩
    · exact .inr (by simp [writeReg, k])
    · exact .inr (by simp [writeReg, k])
  | _ => exact .inr rfl

/-- A host access resets the engine or keeps the store (10_state.md R38). -/
theorem access_store (a : Access) (e : Engine) : (access a e).2 = Engine.reset ∨ (access a e).2.store = e.store := by
  cases a with
  | read off n =>
    rcases memRead_engine off n e with k | ⟨x, _, k⟩
    · exact .inr (by simp [access, k])
    · exact .inr (by simp [access, k])
  | write off n v =>
    rcases memWrite_cases off n v e with ⟨x, _, k⟩ | ⟨r, _, _, _, k⟩ | ⟨_, _, k⟩
    · exact .inr (by simp [access, k])
    · simpa only [access, k] using writeReg_store r v e
    · exact .inr (by simp [access, k])

/-- The engine's move keeps the store unless it completes a BUILD (10_state.md R46). -/
theorem engineStep_store {s t : State} (h : engineStep s = .next t) :
    t.eng.store = s.eng.store ∨
      ∃ w, s.eng.pend = some w ∧ decode w = .ok .build ∧ t.eng = (s.eng.build s.params.prng).complete := by
  cases hp : s.eng.pend with
  | none =>
    rw [engineStep_idle hp] at h
    cases h
    exact .inl rfl
  | some w =>
    cases hd : decode w with
    | error x =>
      simp only [engineStep, hp, hd] at h
      cases h
      exact .inl (s.eng.turnAway_store _ w)
    | ok i =>
      rw [engineStep_pending hp hd] at h
      by_cases hi : i = .build
      · subst hi
        rw [exec_build] at h
        cases h
        exact .inr ⟨w, rfl, hd, rfl⟩
      · rcases exec_cases i s with ⟨_, k⟩ | ⟨c, _, k⟩ <;> rw [k] at h <;> cases h
        · exact .inl (effectOf_store s.params i s.eng hi)
        · exact .inl (s.eng.turnAway_store c _)

/-- An agent's move resets the engine, keeps the store, or completes a BUILD (10_state.md R38, R46). -/
theorem takeTurn_store {a : Turn} {s t : State} (h : takeTurn a s = .next t) :
    t.eng = Engine.reset ∨ t.eng.store = s.eng.store ∨
      ∃ w, s.eng.pend = some w ∧ decode w = .ok .build ∧ t.eng = (s.eng.build s.params.prng).complete := by
  cases a with
  | host =>
    rcases hostStep_engine h with k | ⟨a, k⟩
    · exact .inr (.inl (congrArg Engine.store k))
    · exact k ▸ (access_store a s.eng).imp_right .inl
  | engine => exact .inr (engineStep_store h)
  | rst =>
    cases h
    exact .inl rfl

/-- Settles O60: of the moves an agent can make, only a reset and the completion of a BUILD change the store. -/
theorem onlyBuildAndResetTouchTheStore : Obligations.OnlyBuildAndResetTouchTheStore := by
  refine ⟨rfl, fun s => ⟨_, exec_build s, rfl⟩, fun s t hs changed => ?_⟩
  obtain ⟨a, ts, k⟩ := step_eq_takeTurn s
  rcases takeTurn_store (k.symm.trans hs) with hr | hk | ⟨w, hp, hd, he⟩
  · exact .inl hr
  · exact absurd hk changed
  · rw [he]
    exact .inr ⟨rfl, w, hp, hd, rfl, rfl, rfl⟩

end Sys2Proof.Machine
end

section
/-! PROOFS. The register window as a host uses it (10_state.md R22 to R37, R47, R48, R51): what a read of each register
returns, what a write stores, irq from the bits read, what stays frozen while a command is pending, and the engine's answer
to a command that acceptance would refuse. -/

namespace Sys2Proof.Machine

open Sys2Proof.Claims

/-! ### The bits of STATUS, CTRL and ERR -/

/-- A flag as bit k of a register is that bit alone. -/
@[simp] theorem getElem_flagBit (b : Bool) (k j : Nat) (hj : j < 64) : (flagBit b k)[j] = (b && decide (j = k)) := by
  simp only [flagBit, BitVec.getElem_shiftLeft]
  grind

/-- STATUS as a number (10_state.md R25). -/
theorem Engine.statusWord_eq (e : Engine) : e.statusWord =
    BitVec.ofNat 64 (num e.pend.isSome + 2 * num e.done + 4 * num e.err.isSome + 8 * num e.store.isSome) := by
  unfold Engine.statusWord Engine.busy Engine.hasErr Engine.sv
  generalize e.pend.isSome = busy, e.done = done, e.err.isSome = err, e.store.isSome = sv
  revert busy done err sv
  decide

/-- CTRL as a number (10_state.md R24). -/
theorem Engine.ctrlWord_eq (e : Engine) : e.ctrlWord = BitVec.ofNat 64 (num e.ieDone + 2 * num e.ieErr) := by
  unfold Engine.ctrlWord
  generalize e.ieDone = ieDone, e.ieErr = ieErr
  revert ieDone ieErr
  decide

/-- ERR as a number: CODE, OVF and INFO at their places (10_state.md R30). -/
theorem Engine.errWord_toNat {e : Engine} {r : ErrRecord} (h : e.err = some r) :
    e.errWord.toNat = r.code.toByte.toNat + 2 ^ 8 * num r.ovf + 2 ^ 32 * r.info.toNat := by
  have low : (r.code.toByte.setWidth 64 ||| flagBit r.ovf 8).toNat = r.code.toByte.toNat + 2 ^ 8 * num r.ovf := by
    cases r.code <;> cases r.ovf <;> rfl
  have fits : r.code.toByte.toNat + 2 ^ 8 * num r.ovf < 2 ^ 32 := by
    cases r.code <;> cases r.ovf <;> decide
  have high : (r.info.setWidth 64 <<< 32).toNat = r.info.toNat <<< 32 := by
    have := r.info.isLt
    simp only [BitVec.toNat_shiftLeft, BitVec.toNat_setWidth, Nat.shiftLeft_eq]
    omega
  simp only [Engine.errWord, h]
  rw [BitVec.toNat_or, low, high, Nat.or_comm, ← Nat.shiftLeft_add_eq_or_of_lt fits, Nat.shiftLeft_eq]
  omega

@[simp] theorem Engine.statusWord_done (e : Engine) : e.statusWord[1] = e.done := by
  simp [Engine.statusWord]

@[simp] theorem Engine.statusWord_err (e : Engine) : e.statusWord[2] = e.hasErr := by
  simp [Engine.statusWord]

@[simp] theorem Engine.ctrlWord_ieDone (e : Engine) : e.ctrlWord[0] = e.ieDone := by
  simp [Engine.ctrlWord]

@[simp] theorem Engine.ctrlWord_ieErr (e : Engine) : e.ctrlWord[1] = e.ieErr := by
  simp [Engine.ctrlWord]

/-! ### Reads and writes at the offsets of the registers -/

/-- The offset of a state word (10_state.md R22). -/
theorem accessTarget_word (i : Nat) (h : i < 10) :
    accessTarget (BitVec.ofNat 9 (0x080 + 8 * i)) .w8 = some (.reg (.word ⟨i, h⟩)) := by
  interval_cases i <;> rfl

/-- A read of STATUS (10_state.md R25). -/
theorem memRead_status (e : Engine) : memRead 0x010 .w8 e = (e.statusWord, e) :=
  memRead_reg (r := .status) rfl (.inr nofun)

/-- A read of CTRL (10_state.md R24). -/
theorem memRead_ctrl (e : Engine) : memRead 0x008 .w8 e = (e.ctrlWord, e) :=
  memRead_reg (r := .ctrl) rfl (.inr nofun)

/-- A read of ERR (10_state.md R30). -/
theorem memRead_err (e : Engine) : memRead 0x038 .w8 e = (e.errWord, e) :=
  memRead_reg (r := .err) rfl (.inr nofun)

/-- Settles O44: each offset reaches its register, and the register's value is the field of the state. -/
theorem registerReadsReturnTheState : Obligations.RegisterReadsReturnTheState := by
  intro e
  simp only [BitVec.ofNat_toNat]
  refine ⟨memRead_reg (r := .id) rfl (.inr nofun), ?_, ?_, memRead_reg (r := .cmd) rfl (.inr nofun),
    memRead_reg (r := .key) rfl (.inr nofun), memRead_reg (r := .len) rfl (.inr nofun),
    memRead_reg (r := .arg) rfl (.inr nofun), fun h => ?_, fun r h => ?_,
    memRead_reg (r := .schedAddr) rfl (.inr nofun), fun h => ?_⟩
  · rw [memRead_ctrl, e.ctrlWord_eq]
  · rw [memRead_status, e.statusWord_eq]
  · simp only [memRead_err, Engine.errWord, h]
  · rw [memRead_err, ← Engine.errWord_toNat h, BitVec.ofNat_toNat, BitVec.setWidth_eq]
  · have idle := e.busy_eq_false.mpr h
    exact ⟨memRead_reg (r := .prngOut) rfl (.inl idle), memRead_reg (r := .prngCur) rfl (.inl idle),
      memRead_reg (r := .prngMul) rfl (.inl idle), memRead_reg (r := .prngAdd) rfl (.inl idle),
      memRead_reg (r := .skey) rfl (.inl idle), fun i hi => memRead_reg (accessTarget_word i hi) (.inl idle)⟩

/-- Settles O45: each offset reaches its register, and an idle engine stores the register's bits of the value. -/
theorem registerWritesStoreTheirFields : Obligations.RegisterWritesStoreTheirFields := by
  intro e v h
  have idle := e.busy_eq_false.mpr h
  simp only [BitVec.ofNat_toNat]
  refine ⟨memWrite_reg (r := .key) v rfl rfl (.inl idle), memWrite_reg (r := .len) v rfl rfl (.inl idle),
    memWrite_reg (r := .arg) v rfl rfl (.inl idle), memWrite_reg (r := .schedAddr) v rfl rfl (.inl idle),
    fun i hi => memWrite_reg v (accessTarget_word i hi) rfl (.inl idle), fun hs => ?_⟩
  rw [memWrite_reg (r := .ctrl) v rfl rfl (.inl idle), writeReg, writeCtrl, if_neg (by simpa using hs)]

/-- Settles O49: the bits of STATUS and CTRL a host reads are the flags irq is made of. -/
theorem irqFollowsStatusAndCtrl : Obligations.IrqFollowsStatusAndCtrl := by
  refine ⟨rfl, fun e => ?_⟩
  rw [memRead_status, memRead_ctrl]
  simp [Engine.irq]

/-! ### While a command is pending -/

/-- While a command is pending only the write of CTRL with SRST set ends it (10_state.md R47, 70_reset_and_hazards.md
R208). -/
theorem writeReg_busy {r : Reg} {v : Word} {e : Engine} (hr : r.cls = .control) (hb : e.busy = true)
    (hs : r = .ctrl → v.getLsbD 31 = false) : (writeReg r v e).busy = true := by
  cases r with
  | ctrl =>
    rw [writeReg, writeCtrl, if_neg (by simpa using hs rfl)]
    exact hb
  | status =>
    rw [writeReg, writeStatus_eq]
    exact hb
  | cmd => simp [writeReg, Engine.present, hb]
  | id | err => exact hb
  | key | len | arg | schedAddr => cases hr
  | prngOut | prngCur | prngMul | prngAdd | schedData | skey | word => cases hr

/-- An access that resets a busy engine is the write of CTRL with SRST set (70_reset_and_hazards.md R208). -/
theorem srst_of_access_reset {a : Access} {e : Engine} (hb : e.busy = true) (h : (access a e).2 = Engine.reset) :
    ∃ v : Word, a = .write 0x008 .w8 v ∧ v.getLsbD 31 = true := by
  have ended : (access a e).2.busy = false := congrArg Engine.busy h
  cases a with
  | read off n => rcases memRead_engine off n e with k | ⟨x, _, k⟩ <;> simp [access, k, hb] at ended
  | write off n v =>
    rcases memWrite_cases off n v e with ⟨x, _, k⟩ | ⟨r, _, hr, ht, k⟩ | ⟨hi, _, _⟩
    · simp [access, k, hb] at ended
    · by_cases hs : r = .ctrl → v.getLsbD 31 = false
      · simp [access, k, writeReg_busy (hr hb) hb hs] at ended
      · obtain ⟨rfl, hv⟩ := Classical.not_imp.mp hs
        obtain ⟨rfl, rfl⟩ := accessTarget_ctrl ht
        exact ⟨v, rfl, by simpa using hv⟩
    · simp [hb] at hi

/-- Settles O43: a host access to a busy engine is a reset, which only CTRL.SRST is, or changes at most the enables, DONE and
the error record. -/
theorem pendingCommandIsFrozen : Obligations.PendingCommandIsFrozen := by
  intro a e hb
  rcases access_of_busy a hb with hr | ⟨ieDone, ieErr, done, err, hk⟩
  · obtain ⟨v, ha, hv⟩ := srst_of_access_reset hb hr
    exact .inl ⟨v, ha, hv, hr⟩
  · exact .inr ⟨err, done, ieDone, ieErr, hk⟩

/-- Settles O38: a command that acceptance refuses has no effect but its error; its word is dropped. -/
theorem rejectedCommandsAreTurnedAway : Obligations.RejectedCommandsAreTurnedAway :=
  fun _ _ _ h => exec_of_some h

end Sys2Proof.Machine
end

section
/-! PROOFS. The engine's memory as host and engine reach it (20_memory.md R64, R66, R74, R75, R79): the schedule index space
behind SCHED_DATA, little-endian accesses to BUF, and the engine's turn. -/

namespace Sys2Proof.Machine

open Sys2Proof.Claims

/-! ### The schedule index space -/

/-- Each entry of the index space is found at its index (20_memory.md R74). -/
theorem schedEntry_of_entryAt {sch : Schedule} {a : BitVec 16} {n : Nat} {v : Word} (h : EntryAt sch n v)
    (ha : a.toNat = n) : schedEntry sch a = some v := by
  simp only [schedEntry, ha]
  cases h with
  | sbox1 t x ht hx =>
    rw [if_pos (by omega), show (64 * t + x) / 64 = t by omega, show (64 * t + x) % 64 = x by omega]
    simp [ht, hx]
  | sbox2 t x ht hx =>
    rw [if_neg (by omega), if_pos (by omega), show (0x1000 + 1024 * t + x - 0x1000) / 1024 = t by omega,
      show (0x1000 + 1024 * t + x - 0x1000) % 1024 = x by omega]
    simp [ht, hx]
  | pmask d s k hd hs hk =>
    rw [if_neg (by omega), if_neg (by omega), if_pos (by omega),
      show (0x4000 + 64 * d + 8 * s + k - 0x4000) / 64 = d by omega,
      show (0x4000 + 64 * d + 8 * s + k - 0x4000) % 64 / 8 = s by omega,
      show (0x4000 + 64 * d + 8 * s + k - 0x4000) % 8 = k by omega]
    simp [hd, hs, hk]
  | prot d s k hd hs hk =>
    rw [if_neg (by omega), if_neg (by omega), if_neg (by omega), if_pos (by omega),
      show (0x4100 + 64 * d + 8 * s + k - 0x4100) / 64 = d by omega,
      show (0x4100 + 64 * d + 8 * s + k - 0x4100) % 64 / 8 = s by omega,
      show (0x4100 + 64 * d + 8 * s + k - 0x4100) % 8 = k by omega]
    simp [hd, hs, hk]
  | rot j hj =>
    rw [if_neg (by omega), if_neg (by omega), if_neg (by omega), if_neg (by omega), if_pos (by omega),
      Nat.add_sub_cancel_left]
    simp [hj]
  | rkey r hr =>
    rw [if_neg (by omega), if_neg (by omega), if_neg (by omega), if_neg (by omega), if_neg (by omega),
      Nat.add_sub_cancel_left]
    simp [hr]

/-- What is found at an index is the entry the index space has there (20_memory.md R74). -/
theorem entryAt_of_schedEntry {sch : Schedule} {a : BitVec 16} {v : Word} (h : schedEntry sch a = some v) :
    EntryAt sch a.toNat v := by
  simp only [schedEntry] at h
  generalize a.toNat = n at h ⊢
  split_ifs at h <;>
    simp only [Option.bind_eq_some_iff, Option.map_eq_some_iff, Vector.getElem?_eq_some_iff] at h
  · obtain ⟨_, ⟨ht, rfl⟩, _, ⟨hx, rfl⟩, rfl⟩ := h
    simpa only [Nat.div_add_mod] using EntryAt.sbox1 (sch := sch) (n / 64) (n % 64) ht hx
  · obtain ⟨_, ⟨ht, rfl⟩, _, ⟨hx, rfl⟩, rfl⟩ := h
    convert EntryAt.sbox2 (sch := sch) ((n - 0x1000) / 1024) ((n - 0x1000) % 1024) ht hx using 1
    omega
  · obtain ⟨_, ⟨hd, rfl⟩, _, ⟨hs, rfl⟩, hk, rfl⟩ := h
    convert EntryAt.pmask (sch := sch) ((n - 0x4000) / 64) ((n - 0x4000) % 64 / 8) ((n - 0x4000) % 8) hd hs hk using 1
    omega
  · obtain ⟨_, ⟨hd, rfl⟩, _, ⟨hs, rfl⟩, _, ⟨hk, rfl⟩, rfl⟩ := h
    convert EntryAt.prot (sch := sch) ((n - 0x4100) / 64) ((n - 0x4100) % 64 / 8) ((n - 0x4100) % 8) hd hs hk using 1
    omega
  · obtain ⟨_, ⟨hj, rfl⟩, rfl⟩ := h
    convert EntryAt.rot (sch := sch) (n - 0x4200) hj using 1
    omega
  · obtain ⟨_, ⟨hr, rfl⟩, rfl⟩ := h
    convert EntryAt.rkey (sch := sch) (n - 0x4300) hr using 1
    omega

/-- Where R74 gives no entry, none is found. -/
theorem schedEntry_eq_none {sch : Schedule} {a : BitVec 16} (h : ∀ v, ¬ EntryAt sch a.toNat v) : schedEntry sch a = none :=
  Option.eq_none_iff_forall_ne_some.mpr fun v hv => h v (entryAt_of_schedEntry hv)

/-- A read of SCHED_DATA while no command is pending (20_memory.md R75). -/
theorem memRead_schedData {e : Engine} (h : e.pend = none) :
    memRead 0x068 .w8 e = readSchedule (infoWord 0x068 8 0) e :=
  memRead_reg (r := .schedData) rfl (.inl (e.busy_eq_false.mpr h))

/-- Settles O46: the read answers what is found at SCHED_ADDR, which is the entry of the index space, if there is one. -/
theorem schedDataReadsTheIndexSpace : Obligations.SchedDataReadsTheIndexSpace := by
  intro e hp
  rw [memRead_schedData hp]
  refine ⟨fun hs => ?_, fun sch hs => ⟨fun v hv => ?_, fun hv => ?_⟩⟩
  · simp only [readSchedule, hs]
  · simp only [readSchedule, hs, schedEntry_of_entryAt hv rfl]
  · simp only [readSchedule, hs, schedEntry_eq_none hv]

/-! ### Accesses to BUF -/

/-- Access info as a number: the offset, the direction and the width at their places (60_exceptions.md R177). -/
theorem accessInfo_eq_infoWord (off : BitVec 9) (n : Width) (isWrite : Bool) :
    accessInfo off n isWrite = infoWord off.toNat n.bytes (num isWrite) := by
  have high : (BitVec.ofBool isWrite).setWidth 32 <<< 16 ||| BitVec.ofNat 32 n.bytes <<< 20 =
      BitVec.ofNat 32 (num isWrite + n.bytes * 2 ^ 4) <<< 16 := by
    cases isWrite <;> cases n <;> rfl
  have disjoint : off.setWidth 32 &&& BitVec.ofNat 32 (num isWrite + n.bytes * 2 ^ 4) <<< 16 = 0#32 := by
    ext i hi
    by_cases h : i < 16
    · simp [h]
    · simp [BitVec.getLsbD_of_ge off i (by omega)]
  rw [accessInfo, BitVec.or_assoc, high, ← BitVec.add_eq_or_of_and_eq_zero _ _ disjoint, infoWord]
  apply BitVec.eq_of_toNat_eq
  simp [Nat.shiftLeft_eq]
  omega

/-- An access that is not aligned or that ends outside BUF is legal nowhere from offset 0x100 on (20_memory.md R64). -/
theorem accessTarget_none_of_not_buf {off : BitVec 9} {n : Width} (hlo : 0x100 ≤ off.toNat)
    (h : off.toNat % n.bytes ≠ 0 ∨ 0x163 < off.toNat + n.bytes - 1) : accessTarget off n = none := by
  simp only [accessTarget]
  rw [if_neg (by omega), if_neg (by omega)]

/-- An aligned access that lies inside BUF is legal (20_memory.md R64). -/
theorem accessTarget_of_buf {off : BitVec 9} {n : Width} (hlo : 0x100 ≤ off.toNat) (ha : off.toNat % n.bytes = 0)
    (hhi : off.toNat + n.bytes - 1 ≤ 0x163) : accessTarget off n = some .buf := by
  simp only [accessTarget]
  rw [if_neg (by omega), if_pos ⟨hlo, hhi, ha⟩]

theorem Width.bytes_le (n : Width) : n.bytes ≤ 8 := by
  cases n <;> decide

/-- Settles O47: a legal access loads or stores the bytes from its offset on; one that is not aligned or that runs past the
end of BUF reaches nothing. -/
theorem bufAccessIsLittleEndianAndNeverSplit : Obligations.BufAccessIsLittleEndianAndNeverSplit := by
  intro off n v e hp hwf hlo _
  have idle := e.busy_eq_false.mpr hp
  refine ⟨fun ha hhi => ?_, fun hbad => ?_⟩
  · have target := accessTarget_of_buf hlo ha hhi
    rw [memRead_buf target idle]
    refine ⟨rfl, ?_, _, memWrite_buf v target idle, Memory.wf_storeLE _ _ _ hwf, fun b hb => ?_,
      fun a => Memory.read_storeLE_other _ _ _ _⟩
    · rw [Memory.loadLE_toNat _ _ _ n.bytes_le]
      refine Finset.sum_congr rfl fun b _ => ?_
      rw [Engine.bufByte, Config.bufBase, show 0x100 + (off.toNat - 0x100 + b) = off.toNat + b by omega]
    · rw [Memory.read_storeLE_same _ _ _ hwf hb, BitVec.extractLsb', Nat.shiftRight_eq_div_pow]
  · have target := accessTarget_none_of_not_buf hlo hbad
    exact ⟨by rw [memRead_illegal e target, accessInfo_eq_infoWord]; rfl,
      by rw [memWrite_illegal v e target, accessInfo_eq_infoWord]; rfl⟩

/-! ### The engine's turn -/

/-- Settles O53: a turn of the engine, set or taken by default while it is busy, is the engine's step. -/
theorem engineTurnRunsThePendingCommand : Obligations.EngineTurnRunsThePendingCommand := by
  intro s w i hp hd
  refine ⟨fun ts ht => ?_, fun ht => ?_⟩
  · rw [step_cons ht]
    exact engineStep_pending (s := { s with turns := ts }) hp hd
  · rw [step_nil ht, defaultTurn, if_pos (s.eng.busy_eq_true.mpr ⟨w, hp⟩)]
    exact engineStep_pending hp hd

end Sys2Proof.Machine
end

section
/-! PROOFS. The command word (30_encoding.md R86 to R98): a word decodes to a command exactly when it is the word of that
command and the command is well-formed. Both directions of the round trip, the printed decoder and the 207 legal words
follow from that. -/

namespace Sys2Proof

open Sys2Proof.Claims

/-! ### The opcode map (R94, R95) -/

/-- The opcode map is injective: OP selects the operation whose code it is. -/
theorem Op.ofCode_eq_some_iff {c : BitVec 8} {op : Op} : Op.ofCode c = some op ↔ op.code = c := by
  refine ⟨fun h => by simpa using List.find?_some h, ?_⟩
  rintro rfl
  cases op <;> rfl

theorem Op.ofCode_eq_none_iff {c : BitVec 8} : Op.ofCode c = none ↔ c.toNat ∉ assigned := by
  have codes : assigned = Op.all.map fun op => op.code.toNat := rfl
  simp [Op.ofCode, codes, BitVec.toNat_inj]

/-- No operation has field bits inside OP (R87). -/
theorem Op.code_and_not_free (op : Op) : op.code.setWidth 32 &&& ~~~op.free = op.code.setWidth 32 := by
  cases op <;> rfl

/-- A word that passes an operation's mask test of R96 has that operation's code in OP. -/
theorem Op.code_of_mask {op : Op} {w : CmdWord} (h : w &&& ~~~op.free = op.code.setWidth 32) :
    op.code = w.extractLsb' 0 8 := by
  have low : (~~~op.free).extractLsb' 0 8 = BitVec.allOnes 8 := by cases op <;> rfl
  calc op.code = (op.code.setWidth 32).extractLsb' 0 8 := by simp [BitVec.extractLsb'_setWidth_of_le]
    _ = (w &&& ~~~op.free).extractLsb' 0 8 := by rw [h]
    _ = w.extractLsb' 0 8 := by rw [BitVec.extractLsb'_and, low, BitVec.and_allOnes]

/-! ### The fields of a word (R87) -/

theorem field_eq_toNat_extractLsb' (w : CmdWord) (lo width : Nat) : field w lo width = (w.extractLsb' lo width).toNat := by
  simp [field, Nat.shiftRight_eq_div_pow]

/-- A field put back at its place is the word with every other bit cleared. -/
theorem extractLsb'_shiftLeft (w : CmdWord) (lo n : Nat) :
    (w.extractLsb' lo n).setWidth 32 <<< lo = w &&& (BitVec.allOnes n).setWidth 32 <<< lo := by
  ext k hk
  by_cases h : k < lo
  · simp [h]
  · simp [h, BitVec.getLsbD_extractLsb', Nat.add_sub_cancel' (Nat.le_of_not_lt h), BitVec.getLsbD_eq_getElem hk,
      Bool.and_comm]

section

variable (op : Op) (d : BitVec 1) (s : BitVec 3) (r : BitVec 7)

@[simp] theorem opcode_assemble : (assemble op d s r).extractLsb' 0 8 = op.code := by
  ext k hk
  simp [assemble, show k < 32 by omega, show k < 12 by omega, show k < 16 by omega, hk]

@[simp] theorem fieldD_assemble : fieldD (assemble op d s r) = d := by
  unfold fieldD
  ext k hk
  simp [assemble, show k = 0 by omega]

@[simp] theorem fieldS_assemble : fieldS (assemble op d s r) = s := by
  unfold fieldS
  ext k hk
  simp [assemble, show 12 + k < 32 by omega, show 12 + k < 16 by omega, BitVec.getLsbD_of_ge op.code (12 + k) (by omega),
    BitVec.getLsbD_of_ge d (12 + k - 8) (by omega), BitVec.getLsbD_eq_getElem hk]

@[simp] theorem fieldR_assemble : fieldR (assemble op d s r) = r := by
  unfold fieldR
  ext k hk
  simp [assemble, show 16 + k < 32 by omega, BitVec.getLsbD_of_ge op.code (16 + k) (by omega),
    BitVec.getLsbD_of_ge d (16 + k - 8) (by omega), BitVec.getLsbD_of_ge s (16 + k - 12) (by omega),
    BitVec.getLsbD_eq_getElem hk]

end

/-! ### A command and its word (R93, R98) -/

/-- The operation of a command (R94). -/
def Instr.op : Instr → Op
  | .nop => .nop
  | .build => .build
  | .chksched => .chksched
  | .prngSeed => .prngSeed
  | .prngNext32 => .prngNext32
  | .prngNext64 => .prngNext64
  | .prngBounded => .prngBounded
  | .unpack => .unpack
  | .pack => .pack
  | .premix => .premix
  | .mswap _ _ => .mswap
  | .wshuf => .wshuf
  | .prot _ _ => .prot
  | .perm _ => .perm
  | .subst => .subst
  | .lmix => .lmix
  | .rkey _ => .rkey
  | .round _ => .round
  | .encrypt => .encrypt
  | .hash => .hash

@[simp] theorem op_withFields (op : Op) (d : BitVec 1) (s : BitVec 3) (r : BitVec 7) : (op.withFields d s r).op = op := by
  cases op <;> rfl

/-- A command is its operation with the fields that stand in its word. -/
theorem withFields_encode (i : Instr) :
    i.op.withFields (fieldD (encode i)) (fieldS (encode i)) (fieldR (encode i)) = i := by
  cases i <;> simp [Instr.op, encode, Op.withFields]

/-- The numbers of a command stand in its word; a field it does not have is 0 there (R93). -/
theorem numbers_eq_fields (i : Instr) :
    numbers i = (i.op.code.toNat, (fieldD (encode i)).toNat, (fieldS (encode i)).toNat, (fieldR (encode i)).toNat) := by
  cases i <;> simp [numbers, Instr.op, Op.code, encode]

/-- Reading an operation's fields from a word and assembling them again keeps exactly the bits the operation reads. -/
theorem encode_withFields (op : Op) (w : CmdWord) :
    encode (op.withFields (fieldD w) (fieldS w) (fieldR w)) = op.code.setWidth 32 ||| w &&& op.free := by
  have placeD : (fieldD w).setWidth 32 <<< 8 = w &&& 0x00000100 := extractLsb'_shiftLeft w 8 1
  have placeS : (fieldS w).setWidth 32 <<< 12 = w &&& 0x00007000 := extractLsb'_shiftLeft w 12 3
  have placeR : (fieldR w).setWidth 32 <<< 16 = w &&& 0x007F0000 := extractLsb'_shiftLeft w 16 7
  cases op with
  | mswap | prot =>
    have join : w &&& 0x100#32 ||| w &&& 0x7000#32 = w &&& 0x7100#32 := BitVec.and_or_distrib_left.symm
    simp [Op.withFields, encode, assemble, Op.free, placeD, placeS, join, BitVec.or_assoc]
  | perm => simp [Op.withFields, encode, assemble, Op.free, placeD]
  | rkey | round => simp [Op.withFields, encode, assemble, Op.free, placeR]
  | _ => simp [Op.withFields, encode, assemble, Op.free]

/-- The word of a command passes the mask test of its operation (R93, R96). -/
theorem encode_mask (i : Instr) : encode i &&& ~~~i.op.free = i.op.code.setWidth 32 := by
  have own : encode i = i.op.code.setWidth 32 ||| encode i &&& i.op.free := by
    simpa only [withFields_encode] using encode_withFields i.op (encode i)
  rw [own, BitVec.and_or_distrib_right, Op.code_and_not_free, BitVec.and_assoc]
  simp

/-- A word that passes an operation's mask test is the word of the command read from it. -/
theorem encode_withFields_of_mask {op : Op} {w : CmdWord} (h : w &&& ~~~op.free = op.code.setWidth 32) :
    encode (op.withFields (fieldD w) (fieldS w) (fieldR w)) = w := by
  rw [encode_withFields, ← h, ← BitVec.and_or_distrib_left]
  simpa using BitVec.and_allOnes (x := w)

/-! ### Decoding (R96) -/

/-- A word decodes to a command when it passes the mask test of some operation and the command read from it passes its
range check. -/
theorem decode_eq_ok_iff {w : CmdWord} {i : Instr} :
    decode w = .ok i ↔ ∃ op : Op, w &&& ~~~op.free = op.code.setWidth 32 ∧
      op.withFields (fieldD w) (fieldS w) (fieldR w) = i ∧ i.wellFormed = true := by
  constructor
  · intro h
    unfold decode at h
    split at h
    · cases h
    · rename_i op _
      split at h
      · rename_i hm
        split at h
        · rename_i hw
          cases h
          exact ⟨op, hm, rfl, hw⟩
        · cases h
      · cases h
  · rintro ⟨op, hm, rfl, hw⟩
    simp only [decode, Op.ofCode_eq_some_iff.mpr (Op.code_of_mask hm), if_pos hm, if_pos hw]

/-- The round trip: a word decodes to a command exactly when it is the word of that command and the command is legal. -/
theorem decode_eq_ok_iff_encode {w : CmdWord} {i : Instr} : decode w = .ok i ↔ encode i = w ∧ i.wellFormed = true := by
  rw [decode_eq_ok_iff]
  constructor
  · rintro ⟨op, hm, rfl, hw⟩
    exact ⟨encode_withFields_of_mask hm, hw⟩
  · rintro ⟨rfl, hw⟩
    exact ⟨i.op, encode_mask i, withFields_encode i, hw⟩

/-- The four bytes of a word are the word, least significant byte first (20_memory.md R66). -/
theorem decodeBytes_wordBytes (w : CmdWord) (rest : List Byte) :
    decodeBytes (wordBytes w ++ rest) = (decode w).map fun i => (i, rest) := by
  have join : w.extractLsb' 24 8 ++ w.extractLsb' 16 8 ++ w.extractLsb' 8 8 ++ w.extractLsb' 0 8 = w := by
    rw [BitVec.extractLsb'_append_extractLsb'_eq_extractLsb' (start₂ := 24) (start₁ := 16) rfl,
      BitVec.extractLsb'_append_extractLsb'_eq_extractLsb' (start₂ := 16) (start₁ := 8) rfl]
    exact BitVec.extractLsb'_append_extractLsb' (w := 24) (len := 8)
  simp only [wordBytes, List.cons_append, List.nil_append, decodeBytes, join]

/-- Settles O1: the word of a well-formed command decodes to it, and so do the word's bytes. -/
theorem decodeGivesBackEncodedCommand : Obligations.DecodeGivesBackEncodedCommand := by
  intro i hw
  have h : decode (encode i) = .ok i := decode_eq_ok_iff_encode.mpr ⟨rfl, hw⟩
  exact ⟨h, fun rest => by rw [decodeBytes_wordBytes, h]; rfl⟩

/-- Settles O2: a word that passes the decoder's tests holds nothing but the code and the fields of its command. -/
theorem decodedWordIsTheCommandsOwn : Obligations.DecodedWordIsTheCommandsOwn :=
  fun _ _ => decode_eq_ok_iff_encode.mp

/-! ### The printed decoder (R96) -/

theorem refDecode_of_reserved {w : CmdWord} (h : Op.ofCode (w.extractLsb' 0 8) = none) : refDecode w = none := by
  rw [Op.ofCode_eq_none_iff, ← field_eq_toNat_extractLsb'] at h
  simp only [refDecode, if_pos h]

/-- For an assigned OP the printed decoder makes the mask test, then the range check of the operation. -/
theorem refDecode_of_assigned {w : CmdWord} {op : Op} (h : op.code = w.extractLsb' 0 8) :
    refDecode w =
      if w &&& ~~~op.free = op.code.setWidth 32 then
        if (op.withFields (fieldD w) (fieldS w) (fieldR w)).wellFormed then
          some (op.code.toNat, (fieldD w).toNat, (fieldS w).toNat, (fieldR w).toNat)
        else none
      else none := by
  have hop : field w 0 8 = op.code.toNat := by rw [field_eq_toNat_extractLsb', h]
  have hd : field w 8 1 = (fieldD w).toNat := field_eq_toNat_extractLsb' w 8 1
  have hs : field w 12 3 = (fieldS w).toNat := field_eq_toNat_extractLsb' w 12 3
  have hr : field w 16 7 = (fieldR w).toNat := field_eq_toNat_extractLsb' w 16 7
  simp only [refDecode, hop, hd, hs, hr, BitVec.toNat_eq (x := w &&& _)]
  cases op with
  | mswap | prot | rkey | round =>
    simp [Op.code, assigned, Op.free, Op.withFields, Instr.wellFormed, ← Nat.not_lt, -not_lt]
  | _ => simp [Op.code, assigned, Op.free, Op.withFields, Instr.wellFormed]

/-- Settles O3: both decoders make the same three tests in the same order, and a word that passes them is the word of its
command, so the fields that the command does not read are 0 in it. -/
theorem decoderIsThePrintedOne : Obligations.DecoderIsThePrintedOne := by
  intro w
  cases hop : Op.ofCode (w.extractLsb' 0 8) with
  | none =>
    rw [refDecode_of_reserved hop]
    simp [decode, hop, Except.toOption]
  | some op =>
    rw [refDecode_of_assigned (Op.ofCode_eq_some_iff.mp hop)]
    split
    next hm =>
      split
      next hw => simp [decode, hop, hm, hw, Except.toOption, numbers_eq_fields, encode_withFields_of_mask hm]
      next hw => simp [decode, hop, hm, hw, Except.toOption]
    next hm => simp [decode, hop, hm, Except.toOption]

/-! ### The legal words (R97) -/

theorem encode_mswap (d : BitVec 1) (s : BitVec 3) :
    encode (.mswap d s) = BitVec.ofNat 32 (0x23 + 0x100 * d.toNat + 0x1000 * s.toNat) := by
  revert d s
  decide

theorem encode_prot (d : BitVec 1) (s : BitVec 3) :
    encode (.prot d s) = BitVec.ofNat 32 (0x25 + 0x100 * d.toNat + 0x1000 * s.toNat) := by
  revert d s
  decide

theorem encode_perm (d : BitVec 1) : encode (.perm d) = BitVec.ofNat 32 (0x26 + 0x100 * d.toNat) := by
  revert d
  decide

theorem encode_rkey (r : BitVec 7) : encode (.rkey r) = BitVec.ofNat 32 (0x29 + 0x10000 * r.toNat) := by
  revert r
  decide

theorem encode_round (r : BitVec 7) : encode (.round r) = BitVec.ofNat 32 (0x2A + 0x10000 * r.toNat) := by
  revert r
  decide

/-- The list of R97 by its six parts. -/
theorem mem_legalWords {w : CmdWord} : w ∈ legalWords ↔
    w ∈ legalWords.take 15 ∨
    (∃ d < 2, ∃ s < 6, BitVec.ofNat 32 (0x23 + 0x100 * d + 0x1000 * s) = w) ∨
    (∃ d < 2, ∃ s < 5, BitVec.ofNat 32 (0x25 + 0x100 * d + 0x1000 * s) = w) ∨
    (∃ d < 2, BitVec.ofNat 32 (0x26 + 0x100 * d) = w) ∨
    (∃ r < 84, BitVec.ofNat 32 (0x29 + 0x10000 * r) = w) ∨
    ∃ r < 84, BitVec.ofNat 32 (0x2A + 0x10000 * r) = w := by
  rw [show legalWords.take 15 = [0x00, 0x01, 0x02, 0x10, 0x11, 0x12, 0x13, 0x20, 0x21, 0x22, 0x24, 0x27, 0x28, 0x30, 0x31]
    from rfl]
  simp only [legalWords, List.mem_append, List.mem_flatMap, List.mem_map, List.mem_range, or_assoc]

theorem encode_mem_legalWords {i : Instr} (h : i.wellFormed = true) : encode i ∈ legalWords := by
  cases i with
  | mswap d s =>
    have hs : s.toNat ≤ 5 := of_decide_eq_true h
    exact mem_legalWords.mpr (.inr (.inl ⟨d.toNat, d.isLt, s.toNat, by omega, (encode_mswap d s).symm⟩))
  | prot d s =>
    have hs : s.toNat ≤ 4 := of_decide_eq_true h
    exact mem_legalWords.mpr (.inr (.inr (.inl ⟨d.toNat, d.isLt, s.toNat, by omega, (encode_prot d s).symm⟩)))
  | perm d => exact mem_legalWords.mpr (.inr (.inr (.inr (.inl ⟨d.toNat, d.isLt, (encode_perm d).symm⟩))))
  | rkey r =>
    have hr : r.toNat ≤ 83 := of_decide_eq_true h
    exact mem_legalWords.mpr (.inr (.inr (.inr (.inr (.inl ⟨r.toNat, by omega, (encode_rkey r).symm⟩)))))
  | round r =>
    have hr : r.toNat ≤ 83 := of_decide_eq_true h
    exact mem_legalWords.mpr (.inr (.inr (.inr (.inr (.inr ⟨r.toNat, by omega, (encode_round r).symm⟩)))))
  | _ => exact List.mem_of_mem_take (i := 15) (by decide)

/-- The decoder accepts each word of the finite list. -/
theorem exists_decode_of_mem_legalWords {w : CmdWord} (h : w ∈ legalWords) : ∃ i, decode w = .ok i := by
  have accepted : legalWords.all (fun w => (decode w).isOk) = true := by decide
  have hw := List.all_eq_true.mp accepted w h
  cases hd : decode w with
  | ok i => exact ⟨i, rfl⟩
  | error => simp [hd, Except.isOk, Except.toBool] at hw

/-- Words of one operation follow words of others without a repetition. -/
theorem nodup_append_of_opcode {l l' : List CmdWord} (op : Nat) (h : l.Nodup) (h' : l'.Nodup)
    (hl : l.all (fun w => field w 0 8 != op) = true) (hl' : l'.all (fun w => field w 0 8 == op) = true) :
    (l ++ l').Nodup := by
  simp only [List.all_eq_true, bne_iff_ne, beq_iff_eq] at hl hl'
  exact List.nodup_append.mpr ⟨h, h', fun a ha b hb e => hl a ha (e ▸ hl' b hb)⟩

theorem roundWords_nodup (c : Nat) : ((List.range 84).map fun r => BitVec.ofNat 32 (c + 0x10000 * r)).Nodup := by
  refine List.Nodup.map_on (fun r hr r' hr' e => ?_) List.nodup_range
  rw [List.mem_range] at hr hr'
  have values := congrArg BitVec.toNat e
  simp only [BitVec.toNat_ofNat] at values
  omega

theorem legalWords_nodup : legalWords.Nodup := by
  refine nodup_append_of_opcode 0x2A ?_ (roundWords_nodup 0x2A) (by decide) (by decide)
  refine nodup_append_of_opcode 0x29 ?_ (roundWords_nodup 0x29) (by decide) (by decide)
  refine nodup_append_of_opcode 0x26 ?_ (by decide) (by decide) (by decide)
  refine nodup_append_of_opcode 0x25 ?_ (by decide) (by decide) (by decide)
  exact nodup_append_of_opcode 0x23 (by decide) (by decide) (by decide) (by decide)

/-- Settles O4: the legal words are the words of the well-formed commands, and the finite list is counted. -/
theorem legalWordsAreCounted : Obligations.LegalWordsAreCounted := by
  refine ⟨fun w => ⟨?_, exists_decode_of_mem_legalWords⟩, legalWords_nodup, rfl, by decide, by decide, by decide,
    by decide, by decide, by decide⟩
  rintro ⟨i, hd⟩
  obtain ⟨rfl, hw⟩ := decode_eq_ok_iff_encode.mp hd
  exact encode_mem_legalWords hw

/-- Settles O5: ten fixed words, by running the decoder on each. -/
theorem printedWordsDecode : Obligations.PrintedWordsDecode := by
  unfold Obligations.PrintedWordsDecode
  decide

end Sys2Proof
end

section
/-! PROOFS. The host's turn (30_encoding.md R99): what each kind of statement does, and the turn that performs it. -/

namespace Sys2Proof.Machine

/-! ### The statements of a host program -/

section

variable {s : State} {x l : Nat} {n : Width} {off : BitVec 9} {v mask : Word}

theorem hostStep_wr (h : s.host.program[s.host.pos]? = some (.wr n off v)) :
    hostStep s = .next { s with eng := memWrite off n v s.eng, host := s.host.advance } := by
  simp only [hostStep, h, access]

theorem hostStep_rd (h : s.host.program[s.host.pos]? = some (.rd n x off)) :
    hostStep s = .next { s with
      eng := (memRead off n s.eng).2
      host := { s.host.advance with vars := Cells.write s.host.vars x (memRead off n s.eng).1 } } := by
  simp only [hostStep, h, access]

theorem hostStep_bnz_not_taken (h : s.host.program[s.host.pos]? = some (.bnz x mask l))
    (hz : Cells.read s.host.vars x &&& mask = 0) : hostStep s = .next { s with host := s.host.advance } := by
  simp only [hostStep, h, if_pos hz]

theorem hostStep_bnz_taken {p : Nat} (h : s.host.program[s.host.pos]? = some (.bnz x mask l))
    (hz : Cells.read s.host.vars x &&& mask ≠ 0) (hl : labelPos l 0 s.host.program = some p) :
    hostStep s = .next { s with host := { s.host with pos := p } } := by
  simp only [hostStep, h, if_neg hz, hl]

theorem hostStep_label (h : s.host.program[s.host.pos]? = some (.label l)) :
    hostStep s = .next { s with host := s.host.advance } := by
  simp only [hostStep, h]

/-- A host that has halted, or has no statement left, waits. -/
theorem hostStep_waits (h : s.host.program[s.host.pos]? = some .halt ∨ s.host.program[s.host.pos]? = none) :
    hostStep s = .next s := by
  rcases h with h | h <;> simp only [hostStep, h]

end

/-! ### The host's turn -/

/-- Settles O54: the host's turn is the host's step, which performs the statement at its position. -/
theorem hostTurnRunsTheNextStatement : Obligations.HostTurnRunsTheNextStatement := by
  intro s s' ts ht hs hv
  have hhost : s.host = s'.host := by rw [hs]
  have heng : s.eng = s'.eng := by rw [hs]
  rw [hhost] at hv
  rw [step_cons ht, ← hs, hhost, heng]
  refine ⟨fun n off v h => hostStep_wr h, fun n x off h => ?read, fun x mask l h => ⟨hostStep_bnz_not_taken h, ?taken⟩,
    fun l h => hostStep_label h, hostStep_waits⟩
  case read =>
    exact ⟨_, hostStep_rd h, Cells.read_write_same x _ hv, Cells.wf_write x _ hv,
      fun y hy => Cells.read_write_other s'.host.vars _ hy⟩
  case taken =>
    intro p hz hp hfirst
    exact hostStep_bnz_taken h hz (by simpa using labelPos_eq_first 0 hp hfirst)

end Sys2Proof.Machine
end

section
/-! PROOFS. The PRNG (40_prng.md R106 to R116): what each PRNG command answers in every state, the law that `k` draws from a
seed jump through the plain LCG, and the shuffle as the printed loop. -/

namespace Sys2Proof.Machine

open Sys2Proof.Claims

/-! ### The PRNG commands -/

section

variable (s : State)

theorem exec_prngSeed : exec .prngSeed s = .next (finished s s.eng.seedPrng) :=
  exec_plain rfl rfl rfl

theorem exec_prngNext32 : exec .prngNext32 s = .next (finished s (s.eng.drawNext32 s.params.prng)) :=
  exec_plain rfl rfl rfl

theorem exec_prngNext64 : exec .prngNext64 s = .next (finished s (s.eng.drawNext64 s.params.prng)) :=
  exec_plain rfl rfl rfl

theorem exec_prngBounded : exec .prngBounded s = .next (finished s (s.eng.drawBounded s.params.prng)) :=
  exec_plain rfl rfl rfl

end

/-- The draw as a number: CUR divided by 2^32 (R106). -/
theorem Prng.next32_toNat (P : PrngParams) (g : Prng) : (g.next32 P).1.toNat = (g.next32 P).2.cur.toNat / 2 ^ 32 := by
  rw [Prng.next32_fst, BitVec.extractLsb'_toNat, Nat.shiftRight_eq_div_pow]
  have := (g.next32 P).2.cur.isLt
  omega

/-- PRNG_OUT after PRNG_NEXT32, as a number: the draw, zero-extended (R114). -/
theorem Engine.drawNext32_prngOut_toNat (P : PrngParams) (e : Engine) :
    (e.drawNext32 P).prngOut.toNat = (e.prng.next32 P).1.toNat := by
  rw [Engine.drawNext32_prngOut, BitVec.toNat_setWidth_of_le (by decide)]

/-- PRNG_OUT after PRNG_BOUNDED, as a number: the scaled draw, zero-extended (R116). -/
theorem Engine.drawBounded_prngOut_toNat (P : PrngParams) (e : Engine) :
    (e.drawBounded P).prngOut.toNat = (e.prng.bounded P e.arg).1.toNat := by
  rw [Engine.drawBounded_prngOut, BitVec.toNat_setWidth_of_le (by decide)]

/-- Settles O6: the seeded PRNG in the words of the statement. -/
theorem prngSeedTakesTheKey : Obligations.PrngSeedTakesTheKey := by
  intro s
  rw [exec_prngSeed, BitVec.ofNat_toNat]
  rfl

/-- Settles O7: the registers are those of `next32`, which computes on words modulo 2^64. -/
theorem prngNext32AdvancesInOrder : Obligations.PrngNext32AdvancesInOrder := by
  intro s
  let g := s.eng.prng
  let P := s.params.prng
  refine ⟨g.add + g.mul * P.baseAdd, g.mul * P.baseMul, g.cur * (g.mul * P.baseMul) + (g.add + g.mul * P.baseAdd),
    ?add, BitVec.toNat_mul .., ?cur, ?next⟩
  case add => rw [BitVec.toNat_add, BitVec.toNat_mul, Nat.add_mod_mod]
  case cur => rw [BitVec.toNat_add, BitVec.toNat_mul, Nat.mod_add_mod]
  case next =>
    have out : (s.eng.drawNext32 P).prngOut = BitVec.ofNat 64 ((g.next32 P).2.cur.toNat / 2 ^ 32) := by
      rw [← Prng.next32_toNat, BitVec.ofNat_toNat]
      rfl
    rw [exec_prngNext32]
    exact congrArg (fun o => Host.Outcome.next (finished s { s.eng.drawNext32 P with prngOut := o })) out

/-- Settles O8: `next64` draws twice and appends the draws. -/
theorem prngNext64IsTwoDraws : Obligations.PrngNext64IsTwoDraws := by
  intro s
  let P := s.params.prng
  let s1 := finished s (s.eng.drawNext32 P)
  have out1 : s1.eng.prngOut.toNat = (s.eng.prng.next32 P).1.toNat := Engine.drawNext32_prngOut_toNat P s.eng
  have out2 : (s1.eng.drawNext32 P).prngOut.toNat = (s1.eng.prng.next32 P).1.toNat :=
    Engine.drawNext32_prngOut_toNat P s1.eng
  refine ⟨s1, _, (s.eng.prng.next64 P).1, exec_prngNext32 s, exec_prngNext32 s1, ?halves, ?hi, ?lo, exec_prngNext64 s⟩
  case halves => exact (BitVec.append_toNat_halves _ _).trans (congrArg₂ (· * 2 ^ 32 + ·) out1.symm out2.symm)
  case hi => exact out1.trans_lt (BitVec.isLt _)
  case lo => exact out2.trans_lt (BitVec.isLt _)

/-- Settles O9: a bounded draw is a plain draw and its exact product with ARG. -/
theorem prngBoundedScalesOneDraw : Obligations.PrngBoundedScalesOneDraw := by
  intro s
  let P := s.params.prng
  have scaled : (s.eng.drawBounded P).prngOut.toNat =
      (s.eng.drawNext32 P).prngOut.toNat * s.eng.arg.toNat / 2 ^ 32 := by
    rw [Engine.drawBounded_prngOut_toNat, Prng.bounded_toNat, Engine.drawNext32_prngOut_toNat]
  refine ⟨_, _, exec_prngNext32 s, exec_prngBounded s, rfl, scaled, ?below, ?zero⟩
  case below =>
    intro h
    exact (Engine.drawBounded_prngOut_toNat P s.eng).trans_lt (Prng.bounded_lt P s.eng.arg s.eng.prng h)
  case zero =>
    intro h
    refine BitVec.eq_of_toNat_eq (scaled.trans ?_)
    simp [h]

/-! ### The jump through the plain LCG (R112) -/

/-- After `k` draws from a seed the multiplicand is the `k`-th power of PRNG_BASE_MUL. -/
theorem Prng.advance_seed_mul (P : PrngParams) (key : BitVec 32) (k : Nat) :
    (Prng.advance P k (Prng.seed key)).mul.toNat = P.baseMul.toNat ^ k % 2 ^ 64 := by
  induction k with
  | zero => rfl
  | succ k ih => rw [Prng.advance_succ, Prng.next32_snd, BitVec.toNat_mul, ih, Nat.mod_mul_mod, ← pow_succ]

/-- The multiplicand and addend after `k` draws from a seed are those of `k` steps of the plain LCG at once. -/
theorem plainLcg_add (P : PrngParams) (key : BitVec 32) (n k : Nat) :
    plainLcg P key (n + k) = plainLcg P key n * (Prng.advance P k (Prng.seed key)).mul +
      (Prng.advance P k (Prng.seed key)).add := by
  induction k generalizing n with
  | zero => simp [Prng.seed]
  | succ k ih =>
    rw [← Nat.succ_add_eq_add_succ, ih, plainLcg, Prng.advance_succ, Prng.next32_snd]
    ring

/-- CUR after `k` draws from a seed is the plain LCG's value number k(k+1)/2: draw `k` jumps `k` values on. -/
theorem Prng.advance_seed_cur (P : PrngParams) (key : BitVec 32) (k : Nat) :
    (Prng.advance P k (Prng.seed key)).cur = plainLcg P key (k * (k + 1) / 2) := by
  induction k with
  | zero => rfl
  | succ k ih =>
    have index : (k + 1) * (k + 1 + 1) / 2 = k * (k + 1) / 2 + (k + 1) := by
      simpa [Nat.mul_comm] using Nat.triangle_succ (k + 1)
    rw [index, plainLcg_add, ← ih, Prng.advance_succ, Prng.next32_snd]

/-- What runs after commands that complete runs from the state they leave. -/
theorem runSeq_append {is js : List Instr} {s t : State} (h : runSeq is s = .next t) :
    runSeq (is ++ js) s = runSeq js t := by
  induction is generalizing s with
  | nil =>
    cases h
    rfl
  | cons i is ih =>
    obtain ⟨e, he⟩ := exec_next i s
    simp only [runSeq, he, List.cons_append] at h ⊢
    exact ih h

/-- PRNG_SEED and `k` PRNG_NEXT32 complete, with the PRNG `k` draws from the seed and the last draw in PRNG_OUT. -/
theorem runSeq_prngSeed_prngNext32 (s : State) (k : Nat) : ∃ t : State,
    runSeq (.prngSeed :: List.replicate k .prngNext32) s = .next t ∧ t.params = s.params ∧
    t.eng.prng = Prng.advance s.params.prng k (Prng.seed s.eng.key) ∧
    (0 < k → t.eng.prngOut.toNat = t.eng.prng.cur.toNat / 2 ^ 32) := by
  induction k with
  | zero => exact ⟨finished s s.eng.seedPrng, by simp only [List.replicate_zero, runSeq, exec_prngSeed], rfl, rfl, nofun⟩
  | succ k ih =>
    obtain ⟨t, run, params, prng, _⟩ := ih
    refine ⟨finished t (t.eng.drawNext32 t.params.prng), ?run, params, ?prng, fun _ => ?out⟩
    case run =>
      rw [List.replicate_succ', ← List.cons_append, runSeq_append run]
      simp only [runSeq, exec_prngNext32]
    case prng => rw [Prng.advance_succ, ← prng, ← params]; rfl
    case out => exact (Engine.drawNext32_prngOut_toNat _ _).trans (Prng.next32_toNat _ _)

/-- Settles O10: the registers after `k` draws are `k` steps of the plain LCG at once. -/
theorem prngJumpsThroughThePlainLcg : Obligations.PrngJumpsThroughThePlainLcg := by
  intro s k
  obtain ⟨t, run, _, prng, out⟩ := runSeq_prngSeed_prngNext32 s k
  rw [prng, Prng.advance_seed_cur] at out
  exact ⟨t, run, by rw [prng, Prng.advance_seed_mul], by rw [prng, Prng.advance_seed_cur], out⟩

/-! ### The shuffle (R109) -/

/-- The sequence of draws in the words of the statements. -/
theorem draws_eq_advance (P : PrngParams) (k : Nat) (g : Prng) : draws P k g = Prng.advance P k g := by
  induction k generalizing g with
  | zero => rfl
  | succ k ih => exact ih _

/-- The printed loop makes one draw an iteration. -/
theorem shuffleLoop_snd (P : PrngParams) (g : Prng) (k : Nat) : (shuffleLoop P g k).2 = Prng.advance P k g := by
  induction k with
  | zero => rfl
  | succ k ih => rw [shuffleLoop, Prng.bounded_snd, ih, Prng.advance_add]

/-- While its iterations stay inside the array, the shuffle holds what the printed loop holds. -/
theorem shuffleSteps_getElem (P : PrngParams) (size : Nat) (g : Prng) (hsize : size < 2 ^ 32) (k : Nat)
    (hk : k ≤ size - 1) (x : Nat) (hx : x < size) : (shuffleSteps P size g k).1[x] = (shuffleLoop P g k).1 x := by
  induction k generalizing x with
  | zero => simp [shuffleSteps, shuffleLoop]
  | succ k ih =>
    have inside : k + 1 < size := by omega
    have same := ih (by omega)
    have below := Prng.bounded_ofNat_lt P (k + 2) (Prng.advance P k g) (by omega) (by omega)
    simp only [shuffleSteps, shuffleLoop, exchanged, shuffleSteps_snd, shuffleLoop_snd]
    rw [getElem_swapIfInBounds _ _ _ inside (by omega) x hx, same _ inside, same _ (by omega), same x hx]

/-- Settles O11: the entries follow the loop, each iteration draws once, and a swap permutes. -/
theorem shuffleIsTheLoopAndAPermutation : Obligations.ShuffleIsTheLoopAndAPermutation := by
  intro P size g hsize
  refine ⟨fun x hx => shuffleSteps_getElem P size g hsize (size - 1) le_rfl x hx, ?draws, shuffle_perm P size g⟩
  case draws => rw [shuffle_snd, draws_eq_advance]

end Sys2Proof.Machine
end

section
/-! PROOFS. The schedule builder and its check (41_schedule.md R121 to R132): BUILD draws every entry at its place in the
sequence of draws from the key and nothing else enters; the scan for the sixth rotation constant stops by index 36, because
the candidates it skips are of one parity; CHKSCHED records INVARIANT exactly where the invariants fail. -/

namespace Sys2Proof.Machine

open Sys2Proof.Claims

/-! ### BUILD -/

/-- Settles O12: BUILD stores what `buildSchedule` computes from the key and the parameters. -/
theorem buildIsAFunctionOfTheKey : Obligations.BuildIsAFunctionOfTheKey := by
  intro P key
  refine ⟨(buildSchedule P key).1, (buildSchedule P key).2, ?_⟩
  rintro s rfl rfl
  exact exec_build s

/-- Every part of the schedule comes from its own place in the sequence of draws (41_schedule.md R122 to R127). -/
theorem buildSchedule_builtFrom (P : PrngParams) (key : BitVec 32) :
    BuiltFrom P key (buildSchedule P key).1 (buildSchedule P key).2 where
  small t ht x hx := by
    simp only [buildSchedule_sbox1 P key t ht]
    rw [drawTable_toNat P _ (by decide) x hx, draws_eq_advance, Nat.mul_comm]
  large t ht x hx := by
    simp only [buildSchedule_sbox2 P key t ht]
    rw [drawTable_toNat P _ (by decide) x hx, draws_eq_advance, Nat.mul_comm]
  masks d hd s hs k hk := by
    have place : 12750 + d * 85 + (s * 10 + k * 2) = 12750 + 85 * d + 2 * (5 * s + k) := by ring
    simp only [buildSchedule_pbox P key d hd]
    rw [drawPbox_mask P _ s k hs hk, draws_eq_advance, Prng.advance_add, place]
  amounts d hd s hs k hk := by
    have place : 12750 + d * 85 + (60 + (s * 5 + k)) = 12750 + 85 * d + 60 + (5 * s + k) := by ring
    simp only [buildSchedule_pbox P key d hd]
    rw [drawPbox_rot P _ s k hs hk, drawAmount_toNat, draws_eq_advance, Prng.advance_add, place]
  rotations := by
    rw [buildSchedule_rot, draws_eq_advance]
    exact rotationSet_from (shuffle_perm P 63 _)
  keys r hr := by rw [buildSchedule_rkey P key r hr, drawRoundKey_toNat, draws_eq_advance]
  left := by rw [buildSchedule_snd, draws_eq_advance]

/-- Settles O13: BUILD stores the schedule drawn in order and leaves the PRNG after its last draw. -/
theorem buildDrawsInOrder : Obligations.BuildDrawsInOrder := fun s =>
  ⟨_, _, buildSchedule_builtFrom s.params.prng s.eng.key, exec_build s⟩

/-! ### The scan for the sixth rotation constant -/

section
variable {B : Vector Nat 63} (hB : B.toList.Perm (List.range 63))
include hB

/-- The first five rotation constants are different numbers up to 63, so their sum is at most 63 + 62 + 61 + 60 + 59
(41_schedule.md R125). -/
theorem candidates_sum_le : (B[0] + 1) + (B[1] + 1) + (B[2] + 1) + (B[3] + 1) + (B[4] + 1) ≤ 305 := by
  have inj : Function.Injective fun j : Fin 5 => (B[j.val] : ℤ) := fun i j e =>
    Fin.ext (candidate_inj hB i j (by omega) (by omega) (Int.ofNat_inj.mp e))
  have below : ∀ b ∈ Finset.univ.image fun j : Fin 5 => (B[j.val] : ℤ), b ≤ 62 := by
    simp only [Finset.forall_mem_image]
    intro j _
    have := candidate_lt hB j (by omega)
    omega
  have bound := Finset.sum_le_sum_range below
  rw [Finset.sum_image inj.injOn, Finset.card_image_of_injective _ inj] at bound
  have five : (B[0] : ℤ) + B[1] + B[2] + B[3] + B[4] ≤ 300 := by
    simpa [Fin.sum_univ_five, Finset.sum_range_succ] using bound
  omega

/-- Of the numbers below 63, 32 are even and 31 are odd: so many places hold a candidate of the parity (R128). -/
theorem card_places_of_parity_le {r : Nat} (hr : r < 2) {S : Finset (Fin 63)} (h : ∀ p ∈ S, B[p.val] % 2 = r) :
    S.card ≤ 32 - r := by
  have into : ∀ p ∈ S, B[p.val] ∈ (Finset.range 63).filter (· % 2 = r) := fun p hp =>
    Finset.mem_filter.mpr ⟨Finset.mem_range.mpr (candidate_lt hB p p.isLt), h p hp⟩
  have inj : Set.InjOn (fun p : Fin 63 => B[p.val]) S := fun p _ q _ e =>
    Fin.ext (candidate_inj hB p q p.isLt q.isLt e)
  refine (Finset.card_le_card_of_injOn _ into inj).trans ?_
  interval_cases r <;> decide

/-- The scan skips at most 31 candidates (41_schedule.md R128): the skipped ones are of one parity, and where that is the
parity of 32 numbers below 63, one of the first five has it as well. -/
theorem scan_index_le {q : Nat} (hq : q < 63) (skipped : ∀ p (_ : p < 63), 5 ≤ p → p < q →
      (B[p] + 1 + ((B[0] + 1) + (B[1] + 1) + (B[2] + 1) + (B[3] + 1) + (B[4] + 1))) % 2 = 0) : q ≤ 36 := by
  have card : (Finset.Ico (5 : Fin 63) ⟨q, hq⟩).card = q - 5 := Fin.card_Ico ..
  have skip : ∀ p ∈ Finset.Ico (5 : Fin 63) ⟨q, hq⟩,
      (B[p.val] + 1 + ((B[0] + 1) + (B[1] + 1) + (B[2] + 1) + (B[3] + 1) + (B[4] + 1))) % 2 = 0 := fun p hp =>
    skipped p p.isLt (Finset.mem_Ico.mp hp).1 (Finset.mem_Ico.mp hp).2
  by_cases sumEven : ((B[0] + 1) + (B[1] + 1) + (B[2] + 1) + (B[3] + 1) + (B[4] + 1)) % 2 = 0
  · have odd : ∀ p ∈ Finset.Ico (5 : Fin 63) ⟨q, hq⟩, B[p.val] % 2 = 1 := fun p hp => by
      have := skip p hp
      omega
    have := card_places_of_parity_le hB (by decide) odd
    omega
  · have early : ∃ j, ∃ _ : j < 5, B[j] % 2 = 0 := by
      by_contra! noneEven
      have h0 := noneEven 0 (by decide)
      have h1 := noneEven 1 (by decide)
      have h2 := noneEven 2 (by decide)
      have h3 := noneEven 3 (by decide)
      have h4 := noneEven 4 (by decide)
      omega
    obtain ⟨j, hj, ej⟩ := early
    have new : (⟨j, by omega⟩ : Fin 63) ∉ Finset.Ico (5 : Fin 63) ⟨q, hq⟩ := fun h =>
      absurd (Finset.mem_Ico.mp h).1 (Nat.not_le.mpr hj)
    have evens : ∀ p ∈ insert ⟨j, by omega⟩ (Finset.Ico (5 : Fin 63) ⟨q, hq⟩), B[p.val] % 2 = 0 := by
      refine Finset.forall_mem_insert .. |>.mpr ⟨ej, fun p hp => ?_⟩
      have := skip p hp
      omega
    have := card_places_of_parity_le hB (by decide) evens
    rw [Finset.card_insert_of_notMem new] at this
    omega

end

/-- Settles O14: the scan's stop is that of R125, and counting parities bounds it. -/
theorem rotationSetScanStops : Obligations.RotationSetScanStops := by
  rintro s B sum hB rfl
  have perm : B.toList.Perm (List.range 63) := hB ▸ shuffle_perm _ 63 _
  have rot : RotationsFrom B (buildSchedule s.params.prng s.eng.key).1.rot :=
    hB ▸ (buildSchedule_builtFrom s.params.prng s.eng.key).rotations
  obtain ⟨q, hq, from5, sixth, odd, skipped⟩ := rot.sixth
  exact ⟨_, _, exec_build s, rfl, rot.first, candidates_sum_le perm,
    ⟨q, hq, from5, scan_index_le perm hq skipped, sixth, odd, skipped⟩,
    fun j hj => rotations_distinct perm rot 5 (by decide) j (by omega) hj.ne'⟩

/-! ### CHKSCHED -/

/-- CHKSCHED on a store that fails its test records INVARIANT with info 2 and completes (41_schedule.md R130). -/
theorem exec_chksched_of_not_ok {s : State} {sch : Schedule} (hs : s.eng.store = some sch) (hok : sch.ok = false) :
    exec .chksched s = .next (finished s (s.eng.raise .invariant 0x00000002)) :=
  exec_sched hs rfl Instr.noConfusion rfl (Engine.check_of_not_ok s.eng sch hok)

/-- Settles O16: the test of CHKSCHED is the invariants. -/
theorem chkschedTestsTheInvariants : Obligations.ChkschedTestsTheInvariants := by
  intro s sch hs
  rw [← Schedule.ok_iff, Bool.not_eq_true]
  exact ⟨exec_chksched_of_ok hs, exec_chksched_of_not_ok hs⟩

end Sys2Proof.Machine
end

section
/-! PROOFS. The state transforms (42_transform.md R136 to R155). A command that only replaces the state words is a function
on the words; commands run one after another are the functions composed, and only the functions are looked at word by word
and bit by bit. -/

namespace Sys2Proof.Machine

open Sys2Proof.Claims

/-! ### What each command answers -/

theorem exec_unpack (s : State) : exec .unpack s = .next (finished s s.eng.unpack) :=
  exec_plain rfl rfl rfl

theorem exec_pack (s : State) : exec .pack s = .next (finished s s.eng.pack) :=
  exec_plain rfl rfl rfl

theorem exec_premix (s : State) : exec .premix s = .next (finished s (s.eng.mapWords preMix)) :=
  exec_plain rfl rfl rfl

theorem exec_wshuf (s : State) : exec .wshuf s = .next (finished s (s.eng.mapWords wordShuffle)) :=
  exec_plain rfl rfl rfl

section
variable {s : State} {sch : Schedule} (hs : s.eng.store = some sch)
include hs

theorem exec_mswap (d : BitVec 1) {sub : BitVec 3} (h : sub.toNat < 6) : exec (.mswap d sub) s =
    .next (finished s (s.eng.mapWords (maskedSwap ((sch.descriptor d).maskRow sub.toNat)))) :=
  exec_sched hs (decide_eq_true (Nat.le_of_lt_succ h)) Instr.noConfusion rfl rfl

theorem exec_prot (d : BitVec 1) {sub : BitVec 3} (h : sub.toNat < 5) : exec (.prot d sub) s =
    .next (finished s (s.eng.mapWords (pboxRotate ((sch.descriptor d).rotRow sub.toNat)))) :=
  exec_sched hs (decide_eq_true (Nat.le_of_lt_succ h)) Instr.noConfusion rfl rfl

theorem exec_perm (d : BitVec 1) :
    exec (.perm d) s = .next (finished s (s.eng.mapWords (applyPermutation (sch.descriptor d)))) :=
  exec_sched hs rfl Instr.noConfusion rfl rfl

theorem exec_subst : exec .subst s = .next (finished s (s.eng.mapWords (applySubstitution sch))) :=
  exec_sched hs rfl Instr.noConfusion rfl rfl

theorem exec_lmix : exec .lmix s = .next (finished s (s.eng.mapWords (linearMix sch.rot))) :=
  exec_sched hs rfl Instr.noConfusion rfl rfl

theorem exec_rkey {r : BitVec 7} (h : r.toNat < 84) :
    exec (.rkey r) s = .next (finished s (s.eng.mapWords (injectRoundKey (sch.roundKey r.toNat)))) :=
  exec_sched hs (decide_eq_true (Nat.le_of_lt_succ h)) Instr.noConfusion rfl rfl

end

/-! ### Commands on the state words, one after another -/

theorem runSeq_pair {i j : Instr} {s t u : State} (hi : exec i s = .next t) (hj : exec j t = .next u) :
    runSeq [i, j] s = .next u := by
  simp only [runSeq, hi, hj]

/-- In every state with this store the commands complete, with `f` of the state words and nothing else changed. -/
def ActsOnWords (store : Option Schedule) (is : List Instr) (f : Words → Words) : Prop :=
  ∀ s : State, s.eng.store = store → runSeq is s = .next (finished s (s.eng.mapWords f))

section
variable {store : Option Schedule}

theorem ActsOnWords.single {i : Instr} {f : Words → Words}
    (h : ∀ s : State, s.eng.store = store → exec i s = .next (finished s (s.eng.mapWords f))) :
    ActsOnWords store [i] f := by
  intro s hs
  simp only [runSeq, h s hs]

theorem ActsOnWords.append {is js : List Instr} {f g : Words → Words} (hf : ActsOnWords store is f)
    (hg : ActsOnWords store js g) : ActsOnWords store (is ++ js) (g ∘ f) := by
  intro s hs
  rw [runSeq_append (hf s hs)]
  exact hg (finished s (s.eng.mapWords f)) hs

/-- Commands whose function gives the words back do nothing but complete. -/
theorem ActsOnWords.runSeq_eq_finished {is : List Instr} {f : Words → Words} {s : State}
    (h : ActsOnWords s.eng.store is f) (hf : f s.eng.w = s.eng.w) : runSeq is s = .next (finished s s.eng) := by
  rw [h s rfl, Engine.mapWords, hf]

end

/-! ### UNPACK and PACK (R136, R137) -/

/-- `pack()` stores byte j of word i at BUF[8i + j]. -/
theorem read_packWords_byte {m : Memory} (w : Words) (h : Memory.wf m = true) {i j : Nat} (hi : i < 10) (hj : j < 8) :
    Memory.read (packWords m w) (Config.bufBase + (8 * i + j)) = (w[i]).extractLsb' (8 * j) 8 := by
  rw [read_packWords w h, dif_pos (by simp only [Config.bufBase]; omega)]
  simp only [Config.bufBase, Nat.add_sub_cancel_left, show (8 * i + j) / 8 = i by omega, show (8 * i + j) % 8 = j by omega]

/-- `pack()` of the unpacked words changes nothing. -/
theorem packWords_unpackWords {m : Memory} (h : Memory.wf m = true) : packWords m (unpackWords m) = m := by
  refine Memory.ext (wf_packWords _ h) h fun a => ?_
  rw [read_packWords _ h]
  split
  next inside =>
    rw [extract_unpackWords m _ _ (by omega) (by omega)]
    exact congrArg (Memory.read m) (by omega)
  next => rfl

/-- `unpack()` of the packed buffer gives the words back. -/
theorem unpackWords_packWords {m : Memory} (w : Words) (h : Memory.wf m = true) : unpackWords (packWords m w) = w := by
  refine Vector.ext fun i hi => Word.ext_bytes fun j hj => ?_
  rw [extract_unpackWords _ i j hi hj]
  exact read_packWords_byte w h hi hj

/-- Settles O17: a little-endian load is the sum of its bytes by place. -/
theorem unpackLoadsLittleEndianWords : Obligations.UnpackLoadsLittleEndianWords := by
  intro s
  refine ⟨unpackWords s.eng.buf, exec_unpack s, fun i hi => ?_⟩
  rw [getElem_unpackWords, Memory.loadLE_toNat _ _ _ le_rfl]
  simp only [Engine.bufByte, Nat.add_assoc]

/-- Settles O18: PACK byte by byte, and the two inverse laws of the words and the buffer. -/
theorem packIsTheInverseOfUnpack : Obligations.PackIsTheInverseOfUnpack := by
  intro s wf
  refine ⟨packWords s.eng.buf s.eng.w, exec_pack s, wf_packWords _ wf, ?bytes,
    fun a ha => read_packWords_other _ _ ha, ?unpackPack, ?packUnpack⟩
  case bytes =>
    intro i hi j hj
    rw [read_packWords_byte _ wf hi hj, BitVec.extractLsb', Nat.shiftRight_eq_div_pow]
  case unpackPack =>
    refine ⟨_, runSeq_pair (exec_unpack s) (exec_pack _), ?_⟩
    simp only [finished, Engine.pack_buf, Engine.unpack_w, Engine.unpack_buf, packWords_unpackWords wf]
  case packUnpack =>
    refine ⟨_, runSeq_pair (exec_pack s) (exec_unpack _), ?_⟩
    simp only [finished, Engine.unpack_w, Engine.pack_buf, unpackWords_packWords _ wf]

/-! ### PREMIX (R138) -/

/-- The entries of a vector as a list, in order. -/
theorem toList_eq_ofFn {α : Type} {n : Nat} (v : Vector α n) : v.toList = List.ofFn fun i : Fin n => v[i] :=
  List.ext_getElem (by simp) (by simp)

/-- The accumulator of `pre_mix()`, its fold written out. -/
theorem mixAcc_eq (w : Words) {acc : Word}
    (h : acc = w[0] ^^^ w[1] ^^^ w[2] ^^^ w[3] ^^^ w[4] ^^^ w[5] ^^^ w[6] ^^^ w[7] ^^^ w[8] ^^^ w[9]) :
    mixAcc w = acc ^^^ acc >>> 32 := by
  simp [mixAcc, toList_eq_ofFn, List.ofFn_succ, h]

/-- Settles O19: the shift by 32 is the division by 2^32. -/
theorem premixFoldsTheWords : Obligations.PremixFoldsTheWords := by
  intro s acc hacc
  have shift : BitVec.ofNat 64 (acc.toNat / 2 ^ 32) = acc >>> 32 := by
    rw [← Nat.shiftRight_eq_div_pow, ← BitVec.toNat_ushiftRight, BitVec.ofNat_toNat, BitVec.setWidth_eq]
  have words : preMix s.eng.w = s.eng.w.map fun x => x ^^^ (acc ^^^ acc >>> 32) :=
    Vector.ext fun i hi => by rw [getElem_preMix, Vector.getElem_map, mixAcc_eq _ hacc]
  rw [exec_premix, Engine.mapWords, words, shift]

/-! ### MSWAP (R139) -/

/-- A swap keeps the XOR of each pair, from which it takes the bits it exchanges. -/
theorem maskedSwap_xor_pair (m : Vector Word 5) (w : Words) {k : Nat} (hk : k < 5) :
    (maskedSwap m w)[2 * k] ^^^ (maskedSwap m w)[2 * k + 1] = w[2 * k] ^^^ w[2 * k + 1] := by
  rw [getElem_maskedSwap_even _ _ _ hk, getElem_maskedSwap_odd _ _ _ hk, BitVec.xor_assoc,
    BitVec.xor_comm w[2 * k + 1] (m[k] &&& _), ← BitVec.xor_assoc (m[k] &&& _), BitVec.xor_self, BitVec.zero_xor]

/-- The second swap exchanges the same bits back. -/
theorem maskedSwap_maskedSwap (m : Vector Word 5) (w : Words) : maskedSwap m (maskedSwap m w) = w := by
  refine Words.ext_pairs fun k hk => ⟨?even, ?odd⟩
  case even =>
    rw [getElem_maskedSwap_even _ _ _ hk, maskedSwap_xor_pair m w hk, getElem_maskedSwap_even _ _ _ hk, BitVec.xor_assoc,
      BitVec.xor_self, BitVec.xor_zero]
  case odd =>
    rw [getElem_maskedSwap_odd _ _ _ hk, maskedSwap_xor_pair m w hk, getElem_maskedSwap_odd _ _ _ hk, BitVec.xor_assoc,
      BitVec.xor_self, BitVec.xor_zero]

theorem actsOnWords_mswap (sch : Schedule) (d : BitVec 1) {sub : BitVec 3} (h : sub.toNat < 6) :
    ActsOnWords (some sch) [.mswap d sub] (maskedSwap ((sch.descriptor d).maskRow sub.toNat)) :=
  .single fun _ hs => exec_mswap hs d h

/-- Settles O20: the swap bit by bit, and an involution. -/
theorem maskedSwapExchangesTheMaskedBits : Obligations.MaskedSwapExchangesTheMaskedBits := by
  intro s sch d sub hsub hs
  refine ⟨_, exec_mswap hs d hsub, fun k hk b _ => ⟨?even, ?odd⟩, ?twice⟩
  case even => rw [getLsbD_maskedSwap_even _ _ _ _ hk, getElem_maskRow sch d _ _ hsub hk]
  case odd => rw [getLsbD_maskedSwap_odd _ _ _ _ hk, getElem_maskRow sch d _ _ hsub hk]
  case twice =>
    have act := actsOnWords_mswap sch d hsub
    exact ActsOnWords.runSeq_eq_finished (hs ▸ act.append act) (maskedSwap_maskedSwap _ _)

/-! ### WSHUF (R140) -/

theorem actsOnWords_wshuf (store : Option Schedule) : ActsOnWords store [.wshuf] wordShuffle :=
  .single fun s _ => exec_wshuf s

/-- Four shuffles bring every word back: 7^4 is 1 modulo 10 (42_transform.md R140). -/
theorem wordShuffle_four (w : Words) : wordShuffle (wordShuffle (wordShuffle (wordShuffle w))) = w := by
  refine Vector.ext fun j hj => ?_
  have back : 7 * (7 * (7 * (7 * j % 10) % 10) % 10) % 10 = j := by omega
  simp only [getElem_wordShuffle, back]

/-- Settles O21: 7 and 3 are inverse modulo 10. -/
theorem wordShuffleMovesWordThreeI : Obligations.WordShuffleMovesWordThreeI := by
  intro s
  refine ⟨_, exec_wshuf s, fun i hi => ?target, fun j hj => getElem_wordShuffle _ j hj, ?four⟩
  case target =>
    have source : 7 * (3 * i % 10) % 10 = i := by omega
    simp only [getElem_wordShuffle, source]
  case four =>
    have act := actsOnWords_wshuf s.eng.store
    exact (((act.append act).append act).append act).runSeq_eq_finished (wordShuffle_four _)

/-! ### PROT (R141) -/

theorem actsOnWords_prot (sch : Schedule) (d : BitVec 1) {sub : BitVec 3} (h : sub.toNat < 5) :
    ActsOnWords (some sch) [.prot d sub] (pboxRotate ((sch.descriptor d).rotRow sub.toNat)) :=
  .single fun _ hs => exec_prot hs d h

/-- Settles O22: the rotation bit by bit. -/
theorem pboxRotateTurnsEvenWords : Obligations.PboxRotateTurnsEvenWords := by
  intro s sch d sub hsub hs
  refine ⟨_, exec_prot hs d hsub, fun k hk => ⟨getElem_pboxRotate_odd _ _ k hk, fun b hb => ?_⟩⟩
  rw [getElem_pboxRotate_even _ _ k hk, ← getElem_rotRow sch d _ _ hsub hk]
  exact getLsbD_rotl64 _ _ b hb

/-! ### PERM (R142, R152) -/

/-- The commands of one of the first five subrounds are the subround. -/
theorem actsOnWords_subround (sch : Schedule) (d : BitVec 1) {sub : BitVec 3} (h : sub.toNat < 5) :
    ActsOnWords (some sch) [.mswap d sub, .wshuf, .prot d sub] (subround (sch.descriptor d) sub.toNat) :=
  ((actsOnWords_mswap sch d (by omega)).append (actsOnWords_wshuf _)).append (actsOnWords_prot sch d h)

/-- The sixteen commands are `apply_permutation(d)`. -/
theorem actsOnWords_permCommands (sch : Schedule) (d : BitVec 1) :
    ActsOnWords (some sch) (permCommands d) (applyPermutation (sch.descriptor d)) := by
  have sub0 := actsOnWords_subround sch d (sub := 0) (by decide)
  have sub1 := actsOnWords_subround sch d (sub := 1) (by decide)
  have sub2 := actsOnWords_subround sch d (sub := 2) (by decide)
  have sub3 := actsOnWords_subround sch d (sub := 3) (by decide)
  have sub4 := actsOnWords_subround sch d (sub := 4) (by decide)
  have last := actsOnWords_mswap sch d (sub := 5) (by decide)
  exact ((((sub0.append sub1).append sub2).append sub3).append sub4).append last

/-- Settles O23: both sides are `apply_permutation(d)` on the words. -/
theorem permIsItsSixteenSteps : Obligations.PermIsItsSixteenSteps := by
  intro s sch d hs
  exact ⟨_, exec_perm hs d, (actsOnWords_permCommands sch d s hs).trans (exec_perm hs d).symm⟩

/-- The number of one-bits of a word. -/
def ones (x : Word) : Nat := ∑ b ∈ Finset.range 64, if x.getLsbD b then 1 else 0

/-- The one-bits of a state, pair by pair. -/
theorem popcount_eq_pairs (w : Words) : popcount w = ∑ k : Fin 5, (ones w[2 * k.val] + ones w[2 * k.val + 1]) := by
  have words : popcount w = ∑ i : Fin (5 * 2), ones w[i] := rfl
  rw [words, ← finProdFinEquiv.sum_comp, Fintype.sum_prod_type]
  refine Finset.sum_congr rfl fun k _ => ?_
  rw [Fin.sum_univ_two]
  simp [finProdFinEquiv, Nat.add_comm 1]

/-- A rotation moves each bit to a place of its own. -/
theorem ones_rotl64 (x : Word) (r : Nat) : ones (rotl64 x r) = ones x := by
  refine (Finset.sum_nbij' (fun b => (b + r) % 64) (fun b => (b + (64 - r % 64)) % 64) ?_ ?_ ?_ ?_ fun b hb => ?same).symm
  case same => rw [getLsbD_rotl64 x r b (Finset.mem_range.mp hb)]
  all_goals
    simp only [Finset.mem_range]
    omega

theorem popcount_maskedSwap (m : Vector Word 5) (w : Words) : popcount (maskedSwap m w) = popcount w := by
  rw [popcount_eq_pairs, popcount_eq_pairs]
  refine Finset.sum_congr rfl fun k _ => ?_
  simp only [ones, ← Finset.sum_add_distrib]
  refine Finset.sum_congr rfl fun b _ => ?_
  rw [getLsbD_maskedSwap_even _ _ _ _ k.isLt, getLsbD_maskedSwap_odd _ _ _ _ k.isLt]
  split
  · exact Nat.add_comm _ _
  · rfl

theorem popcount_wordShuffle (w : Words) : popcount (wordShuffle w) = popcount w := by
  have bijective : Function.Bijective fun j : Fin 10 => 7 * j := by decide
  calc popcount (wordShuffle w) = ∑ j : Fin 10, ones w[7 * j] :=
        Finset.sum_congr rfl fun j _ => congrArg ones (getElem_wordShuffle w j j.isLt)
    _ = ∑ i : Fin 10, ones w[i] := bijective.sum_comp fun i => ones w[i]

theorem popcount_pboxRotate (rr : Vector (BitVec 6) 5) (w : Words) : popcount (pboxRotate rr w) = popcount w := by
  rw [popcount_eq_pairs, popcount_eq_pairs]
  refine Finset.sum_congr rfl fun k _ => ?_
  rw [getElem_pboxRotate_even _ _ _ k.isLt, getElem_pboxRotate_odd _ _ _ k.isLt, ones_rotl64]

theorem popcount_subround (p : Pbox) (sub : Nat) (w : Words) : popcount (subround p sub w) = popcount w := by
  rw [subround, popcount_pboxRotate, popcount_wordShuffle, popcount_maskedSwap]

theorem popcount_applyPermutation (p : Pbox) (w : Words) : popcount (applyPermutation p w) = popcount w := by
  rw [applyPermutation, popcount_maskedSwap]
  exact List.foldlRecOn (motive := fun v => popcount v = popcount w) _ _ rfl
    fun v hv sub _ => (popcount_subround p sub v).trans hv

/-- Settles O24: each primitive of the permutation keeps the number. -/
theorem permKeepsTheNumberOfOnes : Obligations.PermKeepsTheNumberOfOnes := by
  intro s sch d hs
  exact ⟨_, exec_perm hs d, popcount_applyPermutation _ _⟩

/-! ### SUBST (R143) -/

/-- There are finitely many states: 640 bits. -/
theorem Words.finite : Finite Words :=
  Finite.of_injective (fun w (i : Fin 10) => (w[i]).toFin) fun w w' h =>
    Vector.ext fun i hi => BitVec.eq_of_toFin_eq (congrFun h ⟨i, hi⟩)

/-- A lookup in a table without repetitions is injective in the word that is looked up. -/
theorem lookup_injective {v n : Nat} {t : Vector (BitVec v) (2 ^ n)}
    (h : Function.Injective fun x : Fin (2 ^ n) => t[x.val]) :
    Function.Injective fun x : BitVec n => t[x.toNat]'(x.isLt) :=
  fun _ _ e => BitVec.eq_of_toFin_eq (h e)

/-- With tables without repetitions each field of a substituted word determines the field it came from. -/
theorem applySubstitution_injective {sch : Schedule}
    (small : ∀ t (_ : t < 40), Function.Injective fun x : Fin 64 => sch.sbox1[t][x.val])
    (large : ∀ t (_ : t < 10), Function.Injective fun x : Fin 1024 => sch.sbox2[t][x.val]) :
    Function.Injective (applySubstitution sch) := by
  intro w w' e
  refine Vector.ext fun i hi => Word.ext_fields fun j hj => ⟨?small, ?large⟩
  case small =>
    refine lookup_injective (n := 6) (small (4 * i + j) (by omega)) ?_
    have same := small_field_substitution sch w ⟨i, hi⟩ ⟨j, hj⟩
    rw [e, small_field_substitution] at same
    exact same.symm
  case large =>
    refine lookup_injective (n := 10) (large i hi) ?_
    have same := large_field_substitution sch w ⟨i, hi⟩ ⟨j, hj⟩
    rw [e, large_field_substitution] at same
    exact same.symm

/-- Settles O25: the fields one by one; and an injection of a finite set into itself is a bijection. -/
theorem substReplacesEachField : Obligations.SubstReplacesEachField := by
  intro sch
  refine ⟨fun s hs => ⟨_, exec_subst hs, fun i hi j hj => ?fields⟩, fun small large => ?bijective⟩
  case fields =>
    exact ⟨small_field_substitution sch s.eng.w ⟨i, hi⟩ ⟨j, hj⟩,
      large_field_substitution sch s.eng.w ⟨i, hi⟩ ⟨j, hj⟩⟩
  case bijective =>
    have := Words.finite
    exact Finite.injective_iff_bijective.mp
      (applySubstitution_injective (fun t ht => (small t ht).injective) fun t ht => (large t ht).injective)

/-! ### LMIX (R144) -/

/-- A rotation by an entry of the rotation set, which is below 64. -/
theorem rotl64_amount (x : Word) (r : BitVec 6) : rotl64 x r.toNat = x.rotateLeft r.toNat := by
  rw [rotl64_eq_rotateLeft, Nat.mod_eq_of_lt r.isLt]

/-- Settles O26: the fold over the rotation set written out. -/
theorem linearMixXorsSixRotations : Obligations.LinearMixXorsSixRotations := by
  intro s sch hs
  refine ⟨_, exec_lmix hs, fun i hi => ?_⟩
  rw [getElem_linearMix, toList_eq_ofFn]
  simp only [List.ofFn_succ, List.ofFn_zero, List.foldl_cons, List.foldl_nil, rotl64_amount,
    BitVec.xor_assoc]
  rfl

/-! ### RKEY (R145) -/

/-- The bits of a word after the round key: bit 0 takes bit i of the key. -/
theorem getLsbD_injectRoundKey (key : BitVec 10) (w : Words) {i : Nat} (hi : i < 10) {b : Nat} (hb : b < 64) :
    ((injectRoundKey key w)[i]).getLsbD b = ((w[i]).getLsbD b ^^ (decide (b = 0) && key.getLsbD i)) := by
  rw [getElem_injectRoundKey, BitVec.getLsbD_xor, BitVec.getLsbD_setWidth, BitVec.getLsbD_extractLsb']
  by_cases h : b = 0
  · simp [h]
  · simp [h, show ¬ b < 1 by omega]

/-- Settles O27: the round key bit by bit. -/
theorem roundKeyMeetsBitZero : Obligations.RoundKeyMeetsBitZero := by
  intro s sch r hr hs
  refine ⟨_, exec_rkey hs hr, fun i hi => ⟨?zero, fun b h1 hb => ?other⟩⟩
  case zero =>
    rw [getLsbD_injectRoundKey _ _ hi (by decide), roundKey_eq sch _ hr, decide_eq_true rfl, Bool.true_and]
  case other =>
    rw [getLsbD_injectRoundKey _ _ hi hb, decide_eq_false (by omega), Bool.false_and, Bool.xor_false]

/-! ### The frame of the commands on words (R146 to R155) -/

/-- A field that a command's effect keeps, and that completing and turning away keep, is the same after the command. -/
theorem exec_keeps {α : Type} (field : Engine → α) {i : Instr} {s t : State} (h : exec i s = .next t)
    (effect : field (effectOf s.params i s.eng) = field s.eng) (complete : ∀ e : Engine, field e.complete = field e)
    (turnAway : ∀ (e : Engine) c w, field (e.turnAway c w) = field e) : field t.eng = field s.eng := by
  obtain ⟨_, ran⟩ | ⟨c, _, turned⟩ := exec_cases i s
  · cases ran.symm.trans h
    exact (complete _).trans effect
  · cases turned.symm.trans h
    exact turnAway _ _ _

/-- Settles O37: none of these commands is among those that write the PRNG, PRNG_OUT, SKEY, the store or BUF. -/
theorem frameOfWordCommands : Obligations.FrameOfWordCommands := by
  intro i s t hi h
  have wordsOnly : i ≠ .build ∧ writesPrng i = false ∧ writesPrngOut i = false ∧ writesBuf i = false := by
    rcases hi with rfl | rfl | ⟨_, _, rfl⟩ | rfl | ⟨_, _, rfl⟩ | ⟨_, rfl⟩ | rfl | rfl | ⟨_, rfl⟩ | ⟨_, rfl⟩
    all_goals exact ⟨Instr.noConfusion, rfl, rfl, rfl⟩
  obtain ⟨build, prng, prngOut, buf⟩ := wordsOnly
  exact ⟨exec_keeps (·.prng) h (effectOf_prng _ _ _ prng) Engine.complete_prng Engine.turnAway_prng,
    exec_keeps (·.prngOut) h (effectOf_prngOut _ _ _ prngOut) Engine.complete_prngOut Engine.turnAway_prngOut,
    exec_keeps (·.skey) h (effectOf_skey _ _ _ build) Engine.complete_skey Engine.turnAway_skey,
    exec_keeps (·.store) h (effectOf_store _ _ _ build) Engine.complete_store Engine.turnAway_store,
    exec_keeps (·.buf) h (effectOf_buf _ _ _ buf) Engine.complete_buf Engine.turnAway_buf⟩

end Sys2Proof.Machine
end

section
/-! PROOFS. The driver (43_driver.md R161 to R170). ROUND and ENCRYPT are the commands they are made of, run one after
another; padding, ENCRYPT and FINAL read and write the first bytes of BUF alone, so buffers that agree there are taken to
buffers that agree. -/

namespace Sys2Proof.Machine

open Sys2Proof.Claims

/-! ### What each command answers -/

@[simp] theorem finished_w (s : State) (e : Engine) : (finished s e).eng.w = e.w := rfl

@[simp] theorem finished_buf (s : State) (e : Engine) : (finished s e).eng.buf = e.buf := rfl

theorem exec_nop (s : State) : exec .nop s = .next (finished s s.eng) :=
  exec_plain rfl rfl rfl

section
variable {s : State} {sch : Schedule} (hs : s.eng.store = some sch)
include hs

theorem exec_round {r : BitVec 7} (h : r.toNat < 84) :
    exec (.round r) s = .next (finished s (s.eng.mapWords (cipherRound sch r.toNat))) :=
  exec_sched hs (decide_eq_true (Nat.le_of_lt_succ h)) Instr.noConfusion rfl rfl

theorem exec_encrypt : exec .encrypt s = .next (finished s (s.eng.encrypt sch)) :=
  exec_sched hs rfl Instr.noConfusion rfl rfl

theorem exec_hash (hl : s.eng.len.toNat ≤ 80) :
    exec .hash s = .next (finished s (s.eng.hash s.params.final.apply sch)) :=
  exec_sched hs rfl (fun _ => hl) rfl rfl

end

/-- Settles O28: NOP has no effect besides completing. -/
theorem nopOnlyCompletes : Obligations.NopOnlyCompletes := exec_nop

/-! ### ROUND (R161) -/

/-- The five commands are `round(r)`. -/
theorem actsOnWords_roundCommands (sch : Schedule) {r : BitVec 7} (h : r.toNat < 84) :
    ActsOnWords (some sch) [.perm 0, .subst, .perm 1, .lmix, .rkey r] (cipherRound sch r.toNat) := by
  have perm (d : BitVec 1) : ActsOnWords (some sch) [.perm d] (applyPermutation (sch.descriptor d)) :=
    .single fun _ hs => exec_perm hs d
  have subst : ActsOnWords (some sch) [.subst] (applySubstitution sch) := .single fun _ hs => exec_subst hs
  have lmix : ActsOnWords (some sch) [.lmix] (linearMix sch.rot) := .single fun _ hs => exec_lmix hs
  have rkey : ActsOnWords (some sch) [.rkey r] (injectRoundKey (sch.roundKey r.toNat)) :=
    .single fun _ hs => exec_rkey hs h
  exact ((((perm 0).append subst).append (perm 1)).append lmix).append rkey

/-- Settles O29: both sides are `round(r)` on the words. -/
theorem roundIsItsFiveSteps : Obligations.RoundIsItsFiveSteps := by
  intro s sch r hr hs
  exact ⟨_, exec_round hs hr, (actsOnWords_roundCommands sch hr s hs).trans (exec_round hs hr).symm⟩

/-! ### ENCRYPT (R162) -/

/-- ROUND commands after other commands apply their rounds in order. -/
theorem ActsOnWords.append_rounds {sch : Schedule} {is : List Instr} {f : Words → Words}
    (hf : ActsOnWords (some sch) is f) {rs : List Nat} (hr : ∀ r ∈ rs, r < 84) :
    ActsOnWords (some sch) (is ++ rs.map fun r => .round (BitVec.ofNat 7 r))
      fun w => rs.foldl (fun w r => cipherRound sch r w) (f w) := by
  induction rs generalizing is f with
  | nil => simpa using hf
  | cons r rs ih =>
    obtain ⟨hr, hrs⟩ := List.forall_mem_cons.mp hr
    have index : (BitVec.ofNat 7 r).toNat = r := Nat.mod_eq_of_lt (by omega)
    have one : ActsOnWords (some sch) [.round (BitVec.ofNat 7 r)] (cipherRound sch r) := .single fun s hs => by
      rw [exec_round hs (by omega), index]
    rw [List.map_cons, List.append_cons]
    exact ih (hf.append one) hrs

/-- PREMIX and the 84 rounds. -/
theorem actsOnWords_premixRounds (sch : Schedule) :
    ActsOnWords (some sch) ([.premix] ++ (List.range 84).map fun r => .round (BitVec.ofNat 7 r))
      fun w => allRounds sch (preMix w) :=
  (ActsOnWords.single fun s _ => exec_premix s).append_rounds fun _ => List.mem_range.mp

/-- The commands of `encrypt()`: the middle ones act on the words that UNPACK loads and PACK stores. -/
theorem runSeq_encryptCommands {s : State} {sch : Schedule} (hs : s.eng.store = some sch) :
    runSeq encryptCommands s = .next (finished s (s.eng.encrypt sch)) := by
  have first : runSeq [.unpack] s = .next (finished s s.eng.unpack) := by simp only [runSeq, exec_unpack]
  have middle := actsOnWords_premixRounds sch (finished s s.eng.unpack) hs
  have split : encryptCommands =
      [.unpack] ++ (([.premix] ++ (List.range 84).map fun r => .round (BitVec.ofNat 7 r)) ++ [.pack]) := rfl
  rw [split, runSeq_append first, runSeq_append middle]
  simp only [runSeq, exec_pack, finished, Engine.pack, Engine.mapWords, Engine.unpack, Engine.encrypt, cipherWords]

/-- Settles O30: the sequence is `encrypt()`, and UNPACK of the packed cipher state gives it back. -/
theorem encryptIsUnpackPremixRoundsPack : Obligations.EncryptIsUnpackPremixRoundsPack := by
  intro s sch hs wf
  refine ⟨cipherWords sch s.eng.buf, packWords s.eng.buf (cipherWords sch s.eng.buf), exec_encrypt hs,
    (runSeq_encryptCommands hs).trans (exec_encrypt hs).symm, ?unpack, fun a ha => read_packWords_other _ _ ha⟩
  case unpack =>
    rw [runSeq_pair (exec_encrypt hs) (exec_unpack _), exec_encrypt hs]
    simp only [finished, Engine.unpack, Engine.encrypt, unpackWords_packWords _ wf]

/-! ### Padding (R166) -/

/-- The padded buffer byte by byte: the input, the marker, then zeros. -/
theorem read_padInput_byte {m : Memory} (wf : Memory.wf m = true) {n k : Nat} (hn : n ≤ 80) (hk : k < 100) :
    Memory.read (padInput n m) (Config.bufBase + k) =
      if k < n then Memory.read m (Config.bufBase + k) else if k = n then 0x01 else 0x00 := by
  refine (read_padInput (by omega) wf k).trans ?_
  obtain lt | rfl | gt := Nat.lt_trichotomy k n
  · rw [if_neg lt.ne, if_neg (by omega), if_pos lt]
    rfl
  · simp
  · rw [if_neg gt.ne', if_pos ⟨gt.le, hk⟩, if_neg gt.not_gt, if_neg gt.ne']

/-- A padded buffer does not read the same as one of a longer input, which has its marker where this one has a zero. -/
theorem le_of_read_padInput_eq {m m' : Memory} (wf : Memory.wf m = true) (wf' : Memory.wf m' = true) {n n' : Nat}
    (hn : n ≤ 80) (hn' : n' ≤ 80) (same : ∀ k, k ≤ 80 →
      Memory.read (padInput n m) (Config.bufBase + k) = Memory.read (padInput n' m') (Config.bufBase + k)) :
    n' ≤ n := by
  by_contra! longer
  have marker := same n' hn'
  rw [read_padInput_byte wf hn (by omega), read_padInput_byte wf' hn' (by omega), if_neg longer.not_gt,
    if_neg longer.ne', if_neg (lt_irrefl n'), if_pos rfl] at marker
  exact absurd marker (by decide)

/-- Settles O31: the place of the marker gives the length, and below it stand the bytes. -/
theorem paddingMarksTheEndOfTheInput : Obligations.PaddingMarksTheEndOfTheInput := by
  refine ⟨fun m n wf hn k hk => read_padInput_byte wf hn hk, fun m m' n n' wf wf' hn hn' same => ?injective⟩
  case injective =>
    obtain rfl : n = n' := le_antisymm (le_of_read_padInput_eq wf' wf hn' hn fun k hk => (same k hk).symm)
      (le_of_read_padInput_eq wf wf' hn hn' same)
    refine ⟨rfl, fun k hk => ?_⟩
    have byte := same k (by omega)
    rwa [read_padInput_byte wf hn (by omega), read_padInput_byte wf' hn (by omega), if_pos hk, if_pos hk] at byte

/-! ### Buffers that agree (R170) -/

/-- BUF[0..n-1] is the same in both buffers. -/
def BufAgree (n : Nat) (m m' : Memory) : Prop :=
  ∀ k, k < n → Memory.read m (Config.bufBase + k) = Memory.read m' (Config.bufBase + k)

section
variable {m m' : Memory}

/-- The final cipher state is a function of BUF[0..79]. -/
theorem BufAgree.cipherWords_eq {n : Nat} (h : BufAgree n m m') (hn : 80 ≤ n) (sch : Schedule) :
    cipherWords sch m = cipherWords sch m' :=
  congrArg (fun w => allRounds sch (preMix w)) (unpackWords_congr fun k hk => h k (hk.trans_le hn))

/-- FINAL is applied to BUF[0..99]. -/
theorem BufAgree.bufBlock_eq (h : BufAgree 100 m m') : bufBlock m = bufBlock m' :=
  Vector.ext fun k hk => by
    rw [getElem_bufBlock, getElem_bufBlock]
    exact h k hk

variable (wf : Memory.wf m = true) (wf' : Memory.wf m' = true)
include wf wf'

/-- Packing the same words keeps the agreement. -/
theorem BufAgree.packWords {n : Nat} (h : BufAgree n m m') (w : Words) :
    BufAgree n (packWords m w) (packWords m' w) := by
  intro k hk
  rw [read_packWords w wf, read_packWords w wf']
  split
  · rfl
  · exact h k hk

/-- Padding inputs that agree gives buffers that agree on the whole. -/
theorem BufAgree.padInput {n : Nat} (hn : n ≤ 80) (h : BufAgree n m m') :
    BufAgree 100 (padInput n m) (padInput n m') := by
  intro k hk
  rw [read_padInput_byte wf hn hk, read_padInput_byte wf' hn hk]
  split
  next inside => exact h k inside
  next => rfl

/-- FINAL on buffers that agree on the whole. -/
theorem BufAgree.finalize (h : BufAgree 100 m m') (final : Block → Block) :
    BufAgree 100 (finalize final m) (finalize final m') := by
  intro k hk
  refine (read_finalize wf k hk).trans (.trans ?_ (read_finalize wf' k hk).symm)
  rw [h.bufBlock_eq]

end

/-! ### HASH (R167, R168) -/

/-- Settles O32: the given buffer agrees with the padded one, so it encrypts to the same words and the same bytes. -/
theorem hashPadsEncryptsAndFinalizes : Obligations.HashPadsEncryptsAndFinalizes := by
  intro s sch p hs hl wf wfp padded
  have agree : BufAgree 100 (padInput s.eng.len.toNat s.eng.buf) p := fun k hk =>
    (read_padInput_byte wf hl hk).trans (padded k hk).symm
  have words := agree.cipherWords_eq (by decide) sch
  have packed := wf_packWords (cipherWords sch p) (wf_padInput s.eng.len.toNat wf)
  have block := (agree.packWords (wf_padInput _ wf) wfp (cipherWords sch p)).bufBlock_eq
  have bytes : ∀ k (hk : k < 100),
      Memory.read (s.eng.hash s.params.final.apply sch).buf (Config.bufBase + k) =
        (s.params.final.apply (bufBlock (packWords p (cipherWords sch p))))[k] := by
    intro k hk
    rw [Engine.hash_buf, words, ← block]
    exact read_finalize packed k hk
  refine ⟨_, _, (s.eng.hash s.params.final.apply sch).buf, exec_encrypt hs, exec_hash hs hl, ?state, ?bytes, ?digest,
    ?outside⟩
  case state => simp only [finished, Engine.hash, Engine.encrypt_w, words]
  case bytes => simpa only [finished_buf, Engine.encrypt_buf] using bytes
  case digest =>
    intro k hk
    rw [Engine.digest_getElem, Engine.bufByte]
    simpa only [finished_buf, Engine.encrypt_buf] using bytes k (by omega)
  case outside =>
    intro a ha
    simp only [Config.bufBase] at ha
    rw [Engine.hash_buf, read_finalize_other _ _ ha, read_packWords_other _ _ (by omega),
      read_padInput_below _ _ ha (by omega)]

/-! ### What ENCRYPT and HASH read (R170) -/

/-- Settles O33: each step of `encrypt()` and of HASH takes buffers that agree to buffers that agree. -/
theorem encryptAndHashReadNothingElse : Obligations.EncryptAndHashReadNothingElse := by
  intro s s' sch hs hs' wf wf'
  refine ⟨fun same => ?encrypt, fun sameFinal sameLen hl same => ?hash⟩
  case encrypt =>
    have agree : BufAgree 80 s.eng.buf s'.eng.buf := same
    have words := agree.cipherWords_eq le_rfl sch
    have buffer : BufAgree 80 (s.eng.encrypt sch).buf (s'.eng.encrypt sch).buf := by
      rw [Engine.encrypt_buf, Engine.encrypt_buf, words]
      exact agree.packWords wf wf' _
    refine ⟨_, _, exec_encrypt hs, exec_encrypt hs', ?words, ?buffer⟩
    case words => simpa only [finished_w, Engine.encrypt_w] using words
    case buffer => simpa only [Engine.bufByte, finished_buf, BufAgree] using buffer
  case hash =>
    have agree := BufAgree.padInput wf wf' hl same
    have words := agree.cipherWords_eq (by decide) sch
    have buffer : BufAgree 100 (s.eng.hash s.params.final.apply sch).buf (s'.eng.hash s'.params.final.apply sch).buf := by
      rw [Engine.hash_buf, Engine.hash_buf, ← sameFinal, ← sameLen, words]
      exact (agree.packWords (wf_padInput _ wf) (wf_padInput _ wf') _).finalize
        (wf_packWords _ (wf_padInput _ wf)) (wf_packWords _ (wf_padInput _ wf')) _
    refine ⟨_, _, exec_hash hs hl, exec_hash hs' (sameLen ▸ hl), ?words, Vector.ext fun k hk => ?digest, buffer⟩
    case words => simpa only [finished_w, Engine.hash_w, ← sameLen] using words
    case digest =>
      rw [Engine.digest_getElem, Engine.digest_getElem]
      exact buffer k (by omega)

end Sys2Proof.Machine
end

section
/-! PROOFS. Errors and the accesses that raise them (60_exceptions.md R176, R180, R184, R185, R193): which places of the window
are illegal and which the busy gating refuses, acceptance by the printed decoder, and the error record as a host sees it. -/

namespace Sys2Proof.Machine

open Sys2Proof.Claims

/-! ### The rows of the register map by their offsets (10_state.md R22) -/

/-- A register stands at a multiple of 8 that is not the reserved 0x078 (10_state.md R22, 60_exceptions.md R184 (a)). -/
theorem regMap_lookup_eq_none_iff {o : Nat} (h : o < 0x0D0) :
    regMap.lookup o = none ↔ o % 8 ≠ 0 ∨ 0x078 ≤ o ∧ o ≤ 0x07F := by
  simp only [List.lookup_eq_none_iff, regMap, List.cons_append, List.nil_append, List.forall_mem_cons, bne_iff_ne,
    List.not_mem_nil, false_implies, implies_true, and_true]
  omega

/-- The classes and the read-only registers of R22 by their offsets (20_memory.md R69, R70). -/
theorem regMap_columns : ∀ row ∈ regMap, row.1 < 0x0D0 ∧ (row.2.readOnly = true ↔ row.1 ∈ readOnlyOffsets) ∧
    (row.2.cls = .engineOwned ↔ row.1 ∈ engineOwnedOffsets) ∧ (row.2.cls = .operand ↔ row.1 ∈ operandOffsets) := by
  decide

/-- A register that an access reaches has its row in the register map. -/
theorem accessTarget_reg {off : BitVec 9} {n : Width} {r : Reg} (h : accessTarget off n = some (.reg r)) :
    (off.toNat, r) ∈ regMap := by
  simp only [accessTarget] at h
  split at h
  · split at h
    · obtain ⟨r', hr, e⟩ := Option.map_eq_some_iff.mp h
      cases e
      obtain ⟨_, _, e, _⟩ := List.lookup_eq_some_iff.mp hr
      simp [e]
    · cases h
  · split at h <;> cases h

/-! ### Which places are illegal, read-only or gated -/

/-- An access reaches nothing exactly at the places R184 (a) to (c) calls illegal. -/
theorem accessTarget_eq_none_iff {off : BitVec 9} {n : Width} :
    accessTarget off n = none ↔ IllegalPlace off.toNat n.bytes := by
  simp only [accessTarget, IllegalPlace]
  split
  next low =>
    split
    next wide =>
      subst wide
      rw [Option.map_eq_none_iff, regMap_lookup_eq_none_iff low]
      simp only [Width.bytes]
      omega
    next narrow =>
      have : n.bytes ≠ 8 := by cases n <;> simp_all [Width.bytes]
      simp only [true_iff]
      omega
  next high =>
    have : 1 ≤ n.bytes ∧ n.bytes ≤ 8 := by cases n <;> decide
    split
    next inside => simp only [reduceCtorEq, false_iff]; omega
    next outside => simp only [true_iff]; omega

section

variable {off : BitVec 9} {n : Width} {t : Target} (h : accessTarget off n = some t)
include h

/-- What is read-only is known by its offset (60_exceptions.md R184 (d)). -/
theorem Target.readOnly_iff : t.readOnly = true ↔ off.toNat ∈ readOnlyOffsets := by
  cases t with
  | reg r =>
    obtain ⟨_, hro, _, _⟩ := regMap_columns _ (accessTarget_reg h)
    exact hro
  | buf =>
    obtain ⟨hlo, _, _⟩ := accessTarget_buf h
    have : ∀ o ∈ readOnlyOffsets, o < 0x100 := by decide
    simp only [Target.readOnly, Bool.false_eq_true, false_iff]
    exact fun ho => absurd (this _ ho) (by omega)

/-- What a read finds gated: engine-owned registers and BUF (20_memory.md R70). -/
theorem Target.readGated_of_offset (ho : off.toNat ∈ engineOwnedOffsets ∨ 0x100 ≤ off.toNat) : t.readGated = true := by
  cases t with
  | reg r =>
    obtain ⟨hlow, _, howned, _⟩ := regMap_columns _ (accessTarget_reg h)
    simpa [Target.readGated] using howned.mpr (ho.resolve_right (by omega))
  | buf => rfl

/-- What a write finds gated: operand registers too (20_memory.md R70). -/
theorem Target.writeGated_of_offset
    (ho : off.toNat ∈ engineOwnedOffsets ∨ 0x100 ≤ off.toNat ∨ off.toNat ∈ operandOffsets) : t.writeGated = true := by
  cases t with
  | reg r =>
    obtain ⟨hlow, _, howned, hoperand⟩ := regMap_columns _ (accessTarget_reg h)
    rcases ho with ho | ho | ho
    · simp [Target.writeGated, howned.mpr ho]
    · omega
    · simp [Target.writeGated, hoperand.mpr ho]
  | buf => rfl

end

/-- Settles O41: an illegal place reaches nothing, and a read-only register refuses every write before the busy gating. -/
theorem illegalAccessRaisesAccess : Obligations.IllegalAccessRaisesAccess := by
  intro off n v e
  refine ⟨fun hplace => ?_, fun hplace => ?_⟩
  · rw [memRead_illegal e (accessTarget_eq_none_iff.mpr hplace), accessInfo_eq_infoWord]
    rfl
  · have raised : memWrite off n v e = e.raise .access (accessInfo off n true) := by
      cases ht : accessTarget off n with
      | none => exact memWrite_illegal v e ht
      | some t =>
        have legal : ¬ IllegalPlace off.toNat n.bytes := by simp [← accessTarget_eq_none_iff, ht]
        have readOnly := (Target.readOnly_iff ht).mpr (hplace.resolve_left legal)
        cases t with
        | reg r => exact memWrite_readOnly v e ht readOnly
        | buf => cases readOnly
    rw [raised, accessInfo_eq_infoWord]
    rfl

/-- Settles O42: a legal access reaches a target, which its offset shows to be gated. -/
theorem busyAccessRaisesAccessBusy : Obligations.BusyAccessRaisesAccessBusy := by
  intro off n v e hb hplace
  obtain ⟨t, ht⟩ := Option.ne_none_iff_exists'.mp (mt accessTarget_eq_none_iff.mp hplace)
  refine ⟨fun ho => ?_, fun ho hro => ?_⟩
  · rw [memRead_gated ht hb (Target.readGated_of_offset ht ho), accessInfo_eq_infoWord]
    rfl
  · have writable : t.readOnly = false := Bool.eq_false_iff.mpr (mt (Target.readOnly_iff ht).mp hro)
    rw [memWrite_gated v ht writable hb (Target.writeGated_of_offset ht ho), accessInfo_eq_infoWord]
    rfl

/-! ### The error record (R180, R193) -/

/-- Settles O39: `raise` is its two cases, and ERR, STATUS and irq are views of the record. -/
theorem raiseRecordsTheFirstError : Obligations.RaiseRecordsTheFirstError := by
  intro e x info
  rw [memRead_err, memRead_status]
  refine ⟨fun h => ⟨Engine.raise_of_none h x info, ?_⟩, fun r h => ⟨Engine.raise_of_some h x info, ?_⟩, ?_, ?_⟩
  · rw [Engine.errWord_toNat (e.raise_err_none x info h)]
    simp [num, Nat.mul_comm]
  · rw [Engine.errWord_toNat (e.raise_err_some x info r h)]
    simp [num, Nat.mul_comm]
  · simp
  · simp [Engine.irq]

/-- A write to STATUS, which the busy gating never refuses (20_memory.md R70). -/
theorem memWrite_status (v : Word) (e : Engine) :
    memWrite 0x010 .w8 v e =
      { e with err := if v.getLsbD 2 then none else e.err, done := e.done && !v.getLsbD 1 } := by
  rw [memWrite_reg (r := .status) v rfl rfl (.inr rfl), writeReg, writeStatus_eq, Bool.and_comm]

/-- Settles O48: the write clears what its bits name, and ERR and irq are views of what is left. -/
theorem statusWriteClearsWhatItNames : Obligations.StatusWriteClearsWhatItNames := by
  intro e v
  refine ⟨memWrite_status v e, fun h => ?_, fun h => ?_⟩
  · rw [memRead_err, memWrite_status]
    simp [Engine.errWord, Engine.irq, Engine.hasErr, h]
  · rw [memWrite_status]
    cases h2 : v.getLsbD 2 <;> simp [Engine.irq, Engine.hasErr, h]

/-! ### Acceptance (R176) -/

/-- A write to CMD presents the low 32 bits of its value (60_exceptions.md R176). -/
theorem memWrite_cmd (v : Word) (e : Engine) : memWrite 0x018 .w8 v e = e.present (v.setWidth 32) :=
  memWrite_reg (r := .cmd) v rfl rfl (.inr rfl)

theorem Engine.present_busy {e : Engine} (hb : e.busy = true) (w : CmdWord) : e.present w = e.raise .cmdBusy w := by
  simp only [Engine.present, if_pos hb]

theorem Engine.present_illegal {e : Engine} {w : CmdWord} {x : DecodeError} (hb : e.busy = false)
    (hd : decode w = .error x) : e.present w = e.raise .illegalCmd w := by
  simp [Engine.present, hb, hd]

theorem Engine.present_rejected {e : Engine} {w : CmdWord} {i : Instr} {c : ErrCode} (hb : e.busy = false)
    (hd : decode w = .ok i) (hc : commandError i e = some c) : e.present w = e.raise c w := by
  simp [Engine.present, hb, hd, hc]

theorem Engine.present_accepted {e : Engine} {w : CmdWord} {i : Instr} (hb : e.busy = false)
    (hd : decode w = .ok i) (hc : commandError i e = none) : e.present w = e.accept w := by
  simp [Engine.present, hb, hd, hc]

/-- The column "sched" of the opcode map by OP (30_encoding.md R94). -/
theorem needsSchedule_iff (i : Instr) : needsSchedule i = true ↔ (numbers i).1 ∈ schedOps := by
  cases i <;> simp [needsSchedule, numbers, schedOps]

/-- HASH by its OP (30_encoding.md R94). -/
theorem eq_hash_iff (i : Instr) : i = .hash ↔ (numbers i).1 = 0x31 := by
  cases i <;> simp [numbers]

/-- The checks on a legal command by its OP: NO_SCHEDULE, then PRECONDITION (60_exceptions.md R176). -/
theorem commandError_of_wellFormed {i : Instr} (hw : i.wellFormed = true) (e : Engine) :
    commandError i e =
      if (numbers i).1 ∈ schedOps ∧ e.store = none then some .noSchedule
      else if (numbers i).1 = 0x31 ∧ 80 < e.len.toNat then some .precondition
      else none := by
  simp only [commandError, hw, needsSchedule_iff, eq_hash_iff, e.sv_eq_false, Config.maxInputBytes]
  rfl

/-- Settles O40: the write presents its word, the printed decoder answers what `decode` does, and the checks go by OP. -/
theorem cmdWriteAcceptsOrRejects : Obligations.CmdWriteAcceptsOrRejects := by
  rintro e v w rfl
  rw [memWrite_cmd, BitVec.ofNat_toNat]
  generalize v.setWidth 32 = w
  split
  next hb => exact Engine.present_busy hb w
  next hb =>
    have idle : e.busy = false := by simpa [Engine.busy] using hb
    rw [← decoderIsThePrintedOne w]
    cases hd : decode w with
    | error x => exact Engine.present_illegal idle hd
    | ok i =>
      obtain ⟨_, hw⟩ := decode_eq_ok_iff_encode.mp hd
      have checks := commandError_of_wellFormed hw e
      simp only [Except.toOption, Option.map_some]
      split_ifs at checks ⊢
      · exact Engine.present_rejected idle hd checks
      · exact Engine.present_rejected idle hd checks
      · exact Engine.present_accepted idle hd checks

end Sys2Proof.Machine
end

section
/-! PROOFS. Steps that answer a next state (30_encoding.md R99, 60_exceptions.md R176, R192): from a write to CMD to the end of
its command, and the one fault there is, the host's branch to a label its program does not have. -/

namespace Sys2Proof.Machine

/-! ### From a write to CMD to the command's completion -/

/-- An accepted command's word carried by a write to CMD (60_exceptions.md R176). -/
theorem memWrite_cmd_encode {i : Instr} {e : Engine} (hw : i.wellFormed = true) (hp : e.pend = none)
    (hc : commandError i e = none) :
    memWrite 0x018 .w8 (BitVec.ofNat 64 (encode i).toNat) e = e.accept (encode i) := by
  have low : (BitVec.ofNat 64 (encode i).toNat).setWidth 32 = encode i := by simp
  rw [memWrite_cmd, low]
  exact Engine.present_accepted (e.busy_eq_false.mpr hp) (decode_eq_ok_iff_encode.mpr ⟨rfl, hw⟩) hc

/-- Settles O55: the host's turn puts the command in PEND, and the engine's turn runs it, which always answers a state. -/
theorem commandRunsAfterItsCmdWrite : Obligations.CommandRunsAfterItsCmdWrite := by
  intro s i ts hw hp hc ht hst
  have hostTurn := (step_cons ht).trans (hostStep_wr (s := { s with turns := .engine :: ts }) hst)
  rw [memWrite_cmd_encode hw hp hc] at hostTurn
  rw [run_succ hostTurn]
  obtain ⟨e, completes⟩ := exec_next i
    { s with turns := ts, host := s.host.advance, eng := s.eng.accept (encode i) }
  refine ⟨_, run_succ ?_, completes⟩
  rw [step_cons rfl]
  exact (engineStep_pending rfl (decode_eq_ok_iff_encode.mpr ⟨rfl, hw⟩)).trans completes

/-! ### The only fault -/

/-- A turn faults only at the host's taken branch to a label its program does not have. -/
theorem takeTurn_fault {a : Turn} {s : State} {f : Fault} (h : takeTurn a s = .fault f) :
    ∃ x mask l, s.host.program[s.host.pos]? = some (.bnz x mask l) ∧ f = .noSuchLabel l ∧
      labelPos l 0 s.host.program = none := by
  cases a with
  | host =>
    rcases hostStep_cases s with ⟨_, k⟩ | ⟨_, _, k⟩ | ⟨x, mask, l, hst, hl, k⟩ <;> cases k.symm.trans h
    exact ⟨x, mask, l, hst, rfl, hl⟩
  | engine =>
    obtain ⟨_, k⟩ := engineStep_next s
    cases k.symm.trans h
  | rst => cases h

/-- A step of a machine whose host program has a target for each branch answers a next state with the same program. -/
theorem step_of_labelsOk {s : State} (hl : labelsOk s.host.program = true) :
    ∃ t, step s = .next t ∧ t.host.program = s.host.program := by
  obtain ⟨a, ts, k⟩ := step_eq_takeTurn s
  cases a with
  | host =>
    obtain ⟨_, _, hs, hp, _⟩ := hostStep_of_labelsOk (s := { s with turns := ts }) hl
    exact ⟨_, k.trans hs, hp⟩
  | engine =>
    obtain ⟨_, hs⟩ := engineStep_next { s with turns := ts }
    exact ⟨_, k.trans hs, rfl⟩
  | rst => exact ⟨_, k, rfl⟩

/-- A host program whose branches all have a target never stops the machine, by induction on the number of steps. -/
theorem safeRun_of_labelsOk {s : State} (hl : labelsOk s.host.program = true) : SafeRun s := by
  intro k
  induction k generalizing s with
  | zero => exact ⟨s, rfl⟩
  | succ k ih =>
    obtain ⟨t, hs, hp⟩ := step_of_labelsOk hl
    rw [run_succ hs]
    exact ih (hp ▸ hl)

/-- Settles O59: of the agents' moves only the host's branch can fault, at a label that stands nowhere in its program. -/
theorem noCommandOrAccessStopsTheMachine : Obligations.NoCommandOrAccessStopsTheMachine := by
  refine ⟨step_not_refused, fun s f hf => ?_, fun s => safeRun_of_labelsOk⟩
  obtain ⟨a, ts, k⟩ := step_eq_takeTurn s
  obtain ⟨x, mask, l, hst, he, hl⟩ := takeTurn_fault (k.symm.trans hf)
  exact ⟨x, mask, l, hst, he, labelPos_eq_none hl⟩

end Sys2Proof.Machine
end

section
/-! PROOFS. The frames of the commands (70_reset_and_hazards.md R216): what no command changes, which bytes of BUF the storing
commands leave alone, and what NOP, CHKSCHED, BUILD and the PRNG commands keep of the datapath. -/

namespace Sys2Proof.Machine

/-- A field that a command's effect keeps where acceptance lets the command through, and that completing and turning away
keep, is the same after the command. -/
theorem exec_keeps_of_accepted {α : Type} (field : Engine → α) {i : Instr} {s t : State} (h : exec i s = .next t)
    (effect : commandError i s.eng = none → field (effectOf s.params i s.eng) = field s.eng)
    (complete : ∀ e : Engine, field e.complete = field e)
    (turnAway : ∀ (e : Engine) c w, field (e.turnAway c w) = field e) : field t.eng = field s.eng := by
  cases accepted : commandError i s.eng with
  | none => exact exec_keeps field h (effect accepted) complete turnAway
  | some c =>
    cases (exec_of_some accepted).symm.trans h
    exact turnAway _ _ _

/-! ### Every command -/

/-- Settles O34: exec changes the engine alone, no effect touches these fields, and an accepted command ends in
`complete`. -/
theorem frameOfEveryCommand : Obligations.FrameOfEveryCommand := by
  intro i s t h
  have engineOnly : t.host = s.host ∧ t.turns = s.turns ∧ t.params = s.params := by
    obtain ⟨_, k⟩ := exec_next i s
    cases k.symm.trans h
    exact ⟨rfl, rfl, rfl⟩
  obtain ⟨host, turns, params⟩ := engineOnly
  refine ⟨host, turns, params,
    exec_keeps (·.key) h (effectOf_key ..) Engine.complete_key Engine.turnAway_key,
    exec_keeps (·.len) h (effectOf_len ..) Engine.complete_len Engine.turnAway_len,
    exec_keeps (·.arg) h (effectOf_arg ..) Engine.complete_arg Engine.turnAway_arg,
    exec_keeps (·.schedAddr) h (effectOf_schedAddr ..) Engine.complete_schedAddr Engine.turnAway_schedAddr,
    exec_keeps (·.lastcmd) h (effectOf_lastcmd ..) Engine.complete_lastcmd Engine.turnAway_lastcmd,
    exec_keeps (·.ieDone) h (effectOf_ieDone ..) Engine.complete_ieDone Engine.turnAway_ieDone,
    exec_keeps (·.ieErr) h (effectOf_ieErr ..) Engine.complete_ieErr Engine.turnAway_ieErr, fun accepted => ?completes⟩
  case completes =>
    cases (exec_of_none accepted).symm.trans h
    exact ⟨rfl, rfl, effectOf_err s.params i s.eng⟩

/-! ### PACK, ENCRYPT and HASH -/

/-- ENCRYPT stores BUF[0..79] and no other byte (43_driver.md R165). -/
theorem read_effectOf_encrypt_other (P : Params) (e : Engine) {a : Nat} (ha : a < 0x100 ∨ 0x150 ≤ a) :
    Memory.read (effectOf P .encrypt e).buf a = Memory.read e.buf a :=
  Engine.withStore_induction (p := fun e' => Memory.read e'.buf a = Memory.read e.buf a) rfl fun sch _ => by
    rw [Engine.encrypt_buf, read_packWords_other _ _ ha]

/-- HASH of a short enough input stores BUF[0..99] and no other byte (43_driver.md R167). -/
theorem read_effectOf_hash_other (P : Params) {e : Engine} (hl : e.len.toNat ≤ 80) {a : Nat}
    (ha : a < 0x100 ∨ 0x164 ≤ a) : Memory.read (effectOf P .hash e).buf a = Memory.read e.buf a :=
  Engine.withStore_induction (p := fun e' => Memory.read e'.buf a = Memory.read e.buf a) rfl fun sch _ => by
    rw [Engine.hash_buf, read_finalize_other _ _ ha, read_packWords_other _ _ (by omega),
      read_padInput_below _ _ ha (by omega)]

/-- Settles O35: the stores of the three effects end where the statement says, HASH's because acceptance bounds LEN. -/
theorem frameOfStoringCommands : Obligations.FrameOfStoringCommands := by
  intro i s t hi h
  have storesOnly : i ≠ .build ∧ writesPrng i = false ∧ writesPrngOut i = false ∧ (i = .pack → writesWords i = false) := by
    rcases hi with rfl | rfl | rfl <;> decide
  obtain ⟨build, prng, prngOut, words⟩ := storesOnly
  refine ⟨fun a ha => exec_keeps_of_accepted (fun e => Memory.read e.buf a) h (fun accepted => ?bytes)
      (fun e => congrArg (Memory.read · a) e.complete_buf) (fun e c w => congrArg (Memory.read · a) (e.turnAway_buf c w)),
    exec_keeps (·.prng) h (effectOf_prng _ _ _ prng) Engine.complete_prng Engine.turnAway_prng,
    exec_keeps (·.prngOut) h (effectOf_prngOut _ _ _ prngOut) Engine.complete_prngOut Engine.turnAway_prngOut,
    exec_keeps (·.skey) h (effectOf_skey _ _ _ build) Engine.complete_skey Engine.turnAway_skey,
    exec_keeps (·.store) h (effectOf_store _ _ _ build) Engine.complete_store Engine.turnAway_store,
    fun hp => exec_keeps (·.w) h (effectOf_w _ _ _ (words hp)) Engine.complete_w Engine.turnAway_w⟩
  case bytes =>
    rcases hi with rfl | rfl | rfl
    · exact read_packWords_other _ _ ha
    · exact read_effectOf_encrypt_other _ _ ha
    · obtain ⟨_, _, short⟩ := commandError_eq_none.mp accepted
      exact read_effectOf_hash_other _ (short rfl) ha

/-! ### NOP, CHKSCHED, BUILD and the PRNG commands -/

/-- Settles O36: none of these commands writes the words or BUF, and each of the other parts is written by those of them the
statement names. -/
theorem frameOfBuildAndPrngCommands : Obligations.FrameOfBuildAndPrngCommands := by
  intro i s t hi h
  have writers : writesWords i = false ∧ writesBuf i = false ∧ (i = .nop ∨ i = .chksched → writesPrng i = false) ∧
      (i ≠ .prngNext32 → i ≠ .prngNext64 → i ≠ .prngBounded → writesPrngOut i = false) := by
    clear h
    revert i
    decide
  obtain ⟨words, buf, prng, prngOut⟩ := writers
  exact ⟨exec_keeps (·.w) h (effectOf_w _ _ _ words) Engine.complete_w Engine.turnAway_w,
    fun a => congrArg (Memory.read · a)
      (exec_keeps (·.buf) h (effectOf_buf _ _ _ buf) Engine.complete_buf Engine.turnAway_buf),
    fun build =>
      ⟨exec_keeps (·.store) h (effectOf_store _ _ _ build) Engine.complete_store Engine.turnAway_store,
        exec_keeps (·.skey) h (effectOf_skey _ _ _ build) Engine.complete_skey Engine.turnAway_skey⟩,
    fun hp => exec_keeps (·.prng) h (effectOf_prng _ _ _ (prng hp)) Engine.complete_prng Engine.turnAway_prng,
    fun h32 h64 hb => exec_keeps (·.prngOut) h (effectOf_prngOut _ _ _ (prngOut h32 h64 hb)) Engine.complete_prngOut
      Engine.turnAway_prngOut⟩

end Sys2Proof.Machine
end

section
/-! PROOFS. Reset (70_reset_and_hazards.md R206 to R209, 10_state.md R52): what the host reads right after it, CTRL.SRST as the
whole reset, and the command it abandons. -/

namespace Sys2Proof.Machine

/-! ### CTRL.SRST (R208) -/

/-- A write to CTRL, which the busy gating never refuses (20_memory.md R70). -/
theorem memWrite_ctrl (v : Word) (e : Engine) : memWrite 0x008 .w8 v e = writeCtrl v e :=
  memWrite_reg (r := .ctrl) v rfl rfl (.inr rfl)

theorem memWrite_ctrl_of_srst {v : Word} (h : v.getLsbD 31 = true) (e : Engine) :
    memWrite 0x008 .w8 v e = Engine.reset := by
  rw [memWrite_ctrl, writeCtrl, if_pos h]

theorem memWrite_ctrl_of_not_srst {v : Word} (h : v.getLsbD 31 = false) (e : Engine) :
    memWrite 0x008 .w8 v e = { e with ieDone := v.getLsbD 0, ieErr := v.getLsbD 1 } := by
  rw [memWrite_ctrl, writeCtrl, if_neg (by simpa using h)]

/-! ### The abandoned command (R209) -/

/-- A turn of the engine on an idle engine takes the turn off the list and changes nothing else (60_exceptions.md R202). -/
theorem step_engine_idle {s : State} {ts : List Turn} (ht : s.turns = .engine :: ts) (hp : s.eng.pend = none) :
    step s = .next { s with turns := ts } :=
  (step_cons ht).trans (engineStep_idle (s := { s with turns := ts }) hp)

/-- Settles O52: either source of the reset leaves the reset engine, which has nothing pending for a later turn to run. -/
theorem resetAbandonsThePendingCommand : Obligations.ResetAbandonsThePendingCommand := by
  rintro s t ts v (⟨ht, rfl⟩ | ⟨ht, hst, hv, rfl⟩)
  case inl => exact ⟨step_cons ht, rfl, rfl, fun us hu => step_engine_idle hu rfl⟩
  case inr =>
    have hostTurn := (step_cons ht).trans (hostStep_wr (s := { s with turns := ts }) hst)
    rw [memWrite_ctrl_of_srst hv] at hostTurn
    exact ⟨hostTurn, rfl, rfl, fun us hu => step_engine_idle hu rfl⟩

/-! ### The reset engine (R207) -/

/-- The reset buffer, which lists nothing, loads 0 everywhere (10_state.md R52). -/
theorem Memory.loadLE_nil (a n : Nat) : Memory.loadLE [] a n = 0 := by
  induction n generalizing a with
  | zero => rfl
  | succ n ih => simp [Memory.loadLE, ih, Memory.read, Cells.read]

/-- A byte of BUF lies where a one-byte access reaches it (20_memory.md R64). -/
theorem accessTarget_bufByte {k : Nat} (hk : k < 100) : accessTarget (BitVec.ofNat 9 (0x100 + k)) .w1 = some .buf := by
  have place : (BitVec.ofNat 9 (0x100 + k)).toNat = 0x100 + k := Nat.mod_eq_of_lt (by omega)
  refine accessTarget_of_buf ?_ (Nat.mod_one _) ?_
  all_goals simp only [place, Width.bytes]; omega

/-- Settles O50: the registers are read as in any state, and each field of the reset engine is 0 but for PRNG_MUL. -/
theorem resetValuesAreThePrintedOnes : Obligations.ResetValuesAreThePrintedOnes := by
  rintro _ rfl
  obtain ⟨id, ctrl, status, cmd, key, len, arg, err, -, schedAddr, idle⟩ := registerReadsReturnTheState State.reset.eng
  obtain ⟨prngOut, prngCur, prngMul, prngAdd, skey, words⟩ := idle rfl
  refine ⟨congrArg Prod.fst id, ?zeros, prngMul, fun i hi => ?word, fun k hk => ?byte, rfl, rfl⟩
  case zeros =>
    simp only [List.forall_mem_cons, List.not_mem_nil, false_implies, implies_true, and_true]
    exact ⟨ctrl, status, cmd, key, len, arg, err rfl, prngOut, prngCur, prngAdd, schedAddr, skey⟩
  case word =>
    rw [words i hi]
    simp [State.reset, Engine.reset]
  case byte =>
    rw [memRead_buf (e := State.reset.eng) (accessTarget_bufByte hk) rfl]
    exact congrArg (·, State.reset.eng) (Memory.loadLE_nil _ _)

/-- Settles O51: with SRST set the write leaves the reset engine, whose CTRL reads 0; else it stores the enables. -/
theorem softResetIsTheWholeReset : Obligations.SoftResetIsTheWholeReset := by
  intro e v
  refine ⟨fun h => ⟨memWrite_ctrl_of_srst h e, ?_⟩, fun h => memWrite_ctrl_of_not_srst h e⟩
  rw [memWrite_ctrl_of_srst h, memRead_ctrl]
  rfl

/-- Settles O58: nothing is pending, stored or recorded, and BUF and the host's variables list nothing. -/
theorem resetHasTheInvariants : Obligations.ResetHasTheInvariants :=
  ⟨Engine.reset_inv, rfl⟩

end Sys2Proof.Machine
end
